-- ==== Sys2Proof/Word.lean ====
section
/-! DEFINITION. The widths of the engine's data, and nothing else: a register byte, a virtual address, a float word,
a command word, an attempt count, a duration (rules R11, R60, R62, R101, R24). -/

namespace Sys2Proof

/-- One byte: a physical register, a virtual register, a byte on the wire (R62). -/
abbrev Byte := BitVec 8

/-- A virtual-register address, 0x00 to 0x7F (R60, R67). -/
abbrev VAddr := BitVec 7

/-- A 32-bit word; the binary32 results of RDFLT and RDALL are carried as their bit patterns (R187). -/
abbrev Word := BitVec 32

/-- A command word, 18 bits (R101). -/
abbrev CmdWord := BitVec 18

/-- An attempt count or an attempt bound, CNT_BITS = 16 bits (R9, R25). -/
abbrev Count := BitVec 16

/-- A nominal duration in microseconds; no rule computes with it (R146, R300). -/
abbrev Duration := Nat

end Sys2Proof
end

