-- ==== Sys2Proof/Machine/Memory.lean ====
section
/-! DEFINITION. The sensor's virtual-register file `VReg[d][a]` (R44, R60) as a list of (address, byte) pairs in one
canonical form. The address of register `a` of die `d` is `128 * d + a`, so that the whole VIRT space of three dies is
0 to 383. -/

namespace Sys2Proof.Machine

/-- The virtual registers of the three dies: addresses strictly rising, no entry equal to `Memory.background`. -/
abbrev Memory := List Host.Cell

/-- How many virtual registers there are: three dies of 128 (R44, R60). -/
def Memory.size : Nat := 384

/-- What an unlisted virtual register reads as. The spec gives no power-up value (R56): DESIGN CHOICE, log entry 7. -/
def Memory.background : Byte := 0x00

/-- One byte of the file. -/
def Memory.read : Memory → Nat → Byte
  | [], _ => Memory.background
  | (k, v) :: rest, a => if k = a then v else Memory.read rest a

/-- One byte stored, keeping the canonical form: writing the background value removes the entry. -/
def Memory.write : Memory → Nat → Byte → Memory
  | [], a, b => if b = Memory.background then [] else [(a, b)]
  | (k, v) :: rest, a, b =>
    if a < k then (if b = Memory.background then (k, v) :: rest else (a, b) :: (k, v) :: rest)
    else if a = k then (if b = Memory.background then rest else (a, b) :: rest)
    else (k, v) :: Memory.write rest a b

/-- Every entry's address lies above `lo`, addresses rise strictly, every address exists, no value is the background. -/
def Memory.wfAbove : Nat → Memory → Bool
  | _, [] => true
  | lo, (k, v) :: rest => decide (lo ≤ k) && decide (k < Memory.size) && decide (v ≠ Memory.background) && Memory.wfAbove (k + 1) rest

/-- The canonical form. -/
def Memory.wf (m : Memory) : Bool := Memory.wfAbove 0 m

/-- The canonical file that holds the given cells, the later of two for one address winning; a cell at an address that
does not exist is dropped. It makes a legal file of cells that nothing constrains. -/
def Memory.ofCells (cells : List Host.Cell) : Memory :=
  cells.foldl (fun m c => if c.1 < Memory.size then Memory.write m c.1 c.2 else m) []

end Sys2Proof.Machine
end

