-- ==== Sys2Proof/Machine/Device.lean ====
section
/-! DEFINITION. The sensor's side of the bus as data: what R40 to R49 say the AS7265x triad holds, the answers a
transport call can have, and the knobs of the reference device RD of R88 with the extensions RD+F and RD+B of file 95.
What the sensor DOES stands in Machine/Sensor.lean; the engine never reads any of this. -/

namespace Sys2Proof.Machine

/-- The three dies behind the one bus address (R44, R261). -/
inductive Die where
  | master
  | slave1
  | slave2
  deriving DecidableEq, Repr, Inhabited

/-- What the firmware waits for: nothing, or the data byte of a write to an address (R48 (a), R88 `pend`). -/
inductive Pending where
  | none
  | writeTo (a : VAddr)
  deriving DecidableEq, Repr, Inhabited

/-- The sensor-side state of R40 to R49. The STATUS byte is computed from `statusHi`, `tc`, `rdv` and `rc`. -/
structure Sensor where
  /-- The register pointer: the sub-address last transmitted (R49). -/
  ptr : Byte
  /-- STATUS bits 7:2, which the document does not define (R40). -/
  statusHi : BitVec 6
  /-- WRITE: the byte last handed to the firmware (R41). -/
  write : Byte
  /-- READ: the result of the last virtual-register read (R42). -/
  read : Byte
  /-- A read result is held (R88 `rdv`); RX_VALID shows it once `tc` and `rc` have run out. -/
  rdv : Bool
  /-- The firmware's transaction state (R48). -/
  pend : Pending
  /-- The device selector, one for the whole sensor (R45). -/
  sel : Die
  /-- `VReg[d][a]` (R44). -/
  vreg : Memory
  /-- How many more STATUS reads will see the last WRITE byte still pending: TX_VALID is 1 while it is not 0 (R88). -/
  tc : Nat
  /-- How many more STATUS reads will see the read result not yet ready (R88). -/
  rc : Nat
  /-- The busy bit's counter of RD+B (file 95). -/
  bc : Nat
  deriving DecidableEq, Repr, Inhabited

/-- The measurement busy bit of the reference device: absent (plain RD), read as 1 `nb` times after a start (RD+B(nb)),
or never clearing (RD+B(inf)) (file 95). -/
inductive BusyModel where
  | off
  | times (nb : Nat)
  | forever
  deriving DecidableEq, Repr, Inhabited

/-- The parameters of a reference device: RD(lt, lr) of R88, its busy bit, and the ordinals of the transport calls that
fail (RD+F(S) of file 95). -/
structure RefDevice where
  lt : Nat
  lr : Nat
  busy : BusyModel
  failAt : List Nat
  deriving DecidableEq, Repr, Inhabited

/-- Who answers the transport calls: the unconstrained oracle of R8 and R80, or the reference device of R88. -/
inductive BusModel where
  | oracle
  | reference (rd : RefDevice)
  deriving DecidableEq, Repr, Inhabited

/-- The two answers of `transmit` (R262). -/
inductive TxAnswer where
  | ok
  | busError
  deriving DecidableEq, Repr, Inhabited

/-- The two answers of `receive(addr7, 1)`: exactly one byte, or BusError (R262). -/
inductive RxAnswer where
  | byte (b : Byte)
  | busError
  deriving DecidableEq, Repr, Inhabited

end Sys2Proof.Machine
end

