-- ==== Sys2Proof/Config.lean ====
section
/-! DEFINITION. The parameter record of R9: the FIXED and DECIDED constants as definitions, the TUNING and OPEN ones as
the fields of `Params`, which a state carries and no instruction writes; and the free values, constants without a body
that stand for what the spec leaves open. -/

namespace Sys2Proof

/-- The order of a float's four bytes (R64, R65, parameter FLOAT_BYTE_ORDER). -/
inductive ByteOrder where
  | be
  | le
  deriving DecidableEq, Repr

/-- The three durations the engine ever asks the delay primitive for (R146). -/
inductive Interval where
  | txPoll
  | rxPoll
  | measPoll
  deriving DecidableEq, Repr

/-- The parameters of R9 that the document does not fix: status TUNING, OPEN, or DECIDED with a choice (byte order). -/
structure Params where
  statusReg : Byte
  writeReg : Byte
  readReg : Byte
  byteOrder : ByteOrder
  txPollMax : Count
  txPollInterval : Duration
  rxPollMax : Count
  rxPollInterval : Duration
  measPollMax : Count
  measPollInterval : Duration
  xferTimeout : Duration
  ledControlVaddr : VAddr
  ledDrvEnMask : Byte
  controlSetupVaddr : VAddr
  measBusyMask : Byte
  deriving DecidableEq, Repr

/-! The FIXED and DECIDED parameters of R9. -/

def Config.devAddr7 : BitVec 7 := 0x49
def Config.txValidMask : Byte := 0x02
def Config.rxValidMask : Byte := 0x01
def Config.vwriteFlag : Byte := 0x80
def Config.devselVaddr : VAddr := 0x4F
def Config.calBase : VAddr := 0x14
def Config.calStep : VAddr := 4
def Config.zeroSubst : Word := 0x00000000

/-- The duration an interval stands for under a parameter record. -/
def Params.duration (p : Params) : Interval → Duration
  | .txPoll => p.txPollInterval
  | .rxPoll => p.rxPollInterval
  | .measPoll => p.measPollInterval

/-- Exactly one bit of a mask is set (R9, D19). -/
def oneBit (m : Byte) : Bool := decide (m ≠ 0) && decide (m &&& (m - 1) = 0)

/-- The constraints the spec puts on a parameter record: bounds 1 to 65535 (R10 (d)), pairwise distinct sub-addresses
(D8), masks of one bit and addresses that differ from each other and from 0x4F (D19). -/
def Params.wf (p : Params) : Bool :=
  decide (p.statusReg ≠ p.writeReg) && decide (p.statusReg ≠ p.readReg) && decide (p.writeReg ≠ p.readReg) &&
  decide (p.txPollMax ≠ 0) && decide (p.rxPollMax ≠ 0) && decide (p.measPollMax ≠ 0) &&
  oneBit p.ledDrvEnMask && oneBit p.measBusyMask &&
  decide (p.ledControlVaddr ≠ p.controlSetupVaddr) && decide (p.ledControlVaddr ≠ Config.devselVaddr) &&
  decide (p.controlSetupVaddr ≠ Config.devselVaddr)

/-! Free values: what the spec leaves open. None has a body, so no proof can see a value. -/

/-- RX_POLL_MAX less one: OPEN, D9; 1 to 65535 is all that is said of the bound. -/
opaque Config.openRxPollMaxLessOne : Fin 65535

/-- RX_POLL_INTERVAL: OPEN, D9. -/
opaque Config.openRxPollInterval : Nat

/-- XFER_TIMEOUT: OPEN, D29. -/
opaque Config.openXferTimeout : Nat

/-- The position of the one bit of MEAS_BUSY_MASK: OPEN with no default, D19, D20. -/
opaque Config.openMeasBusyBit : Fin 8

/-- The answer to a `transmit` that nothing else determines (R8, R264); the argument numbers the draw. -/
opaque Config.freeTx : Nat → Machine.TxAnswer

/-- The answer to a `receive` that nothing else determines (R8, R80, R264). -/
opaque Config.freeRx : Nat → Machine.RxAnswer

/-- The whole sensor side after a call under the unconstrained oracle (R8, R50, R80, U1). -/
opaque Config.freeSensor : Nat → Machine.Sensor

/-- A response byte that holds no value (R31). -/
opaque Config.freeByte : Nat → BitVec 8

/-- A response word that holds no value (R31, R188). -/
opaque Config.freeWord : Nat → BitVec 32

/-- The response's result array where it holds no value (R31). -/
opaque Config.freeRes : Nat → Vector (BitVec 32) 18

/-- The response's FAIL bits where they hold no value (R31). -/
opaque Config.freeFail : Nat → BitVec 18

/-- The parameter record a machine starts with: the defaults of R9's table, and a free value where it gives none. -/
def Params.default : Params where
  statusReg := 0x00
  writeReg := 0x01
  readReg := 0x02
  byteOrder := .be
  txPollMax := 100
  txPollInterval := 1000
  rxPollMax := BitVec.ofNat 16 (Config.openRxPollMaxLessOne.val + 1)
  rxPollInterval := Config.openRxPollInterval
  measPollMax := 1000
  measPollInterval := 10000
  xferTimeout := Config.openXferTimeout
  ledControlVaddr := 0x07
  ledDrvEnMask := 0x08
  controlSetupVaddr := 0x04
  measBusyMask := 1#8 <<< Config.openMeasBusyBit.val

end Sys2Proof
end

