-- ==== Sys2Proof/Syntax.lean ====
section
/-! DEFINITION. The instructions: one constructor for each of the 23 rows of spec/opcode_table.json, in its order. -/

namespace Sys2Proof

/-- Everything the opcode table lists: the six commands and two reserved opcodes of the command port (R122, R124), the
four bytes of the wire (R110 to R112), the four bus frames (R113) and the seven micro-operations (R123). -/
inductive Instr where
  /-- WRVR addr, data (R160). -/
  | wrvr (addr : VAddr) (data : Byte)
  /-- RDVR addr (R165). -/
  | rdvr (addr : VAddr)
  /-- SELDEV id (R180); id 3 spells no device (R126). -/
  | seldev (id : BitVec 2)
  /-- RDFLT base (R185); a base above 0x7C is refused (R126). -/
  | rdflt (base : VAddr)
  /-- RDALL (R195). -/
  | rdall
  /-- MEAS (R212). -/
  | meas
  /-- Reserved opcode 6 with any operand bits (R124). -/
  | reserved6 (rest : BitVec 15)
  /-- Reserved opcode 7 with any operand bits (R124). -/
  | reserved7 (rest : BitVec 15)
  /-- The write command byte, first byte of a write handshake (R110, R115). -/
  | vwra (addr : VAddr)
  /-- The read command byte (R110, R116). -/
  | vrda (addr : VAddr)
  /-- The data byte of a write handshake (R111). -/
  | vdata (data : Byte)
  /-- A STATUS byte received by the engine (R112). -/
  | status (b : Byte)
  /-- The pointer frame of STATUS (R113). -/
  | ptrStatus
  /-- The pointer frame of READ (R113). -/
  | ptrRead
  /-- The two-byte frame that hands `b` to WRITE (R113). -/
  | wrWrite (b : Byte)
  /-- The receive of one byte (R113). -/
  | get1
  /-- Read STATUS once (R140). -/
  | rdstatus
  /-- Write one byte to WRITE (R141). -/
  | wrwrite (b : Byte)
  /-- Read READ once (R142). -/
  | rdread
  /-- Yield for one of the three intervals (R146). -/
  | delay (t : Interval)
  /-- The bounded poll of STATUS (R147). -/
  | poll (mask want : Byte) (max : Count) (t : Interval)
  /-- Poll until TX_VALID is clear (R148). -/
  | waittx
  /-- Poll until RX_VALID is set (R149). -/
  | waitrx
  deriving DecidableEq, Repr

/-- The pseudo-instruction RDCH idx = RDFLT 0x14 + 4*idx, idx 0 to 5 (R131). -/
def Instr.rdch (idx : Fin 6) : Instr := .rdflt (Config.calBase + Config.calStep * BitVec.ofNat 7 idx.val)

end Sys2Proof
end

