-- ==== Sys2Proof/WellFormed.lean ====
section
/-! DEFINITION. Which instructions the spec admits: the operand limits of R126 and R147. -/

namespace Sys2Proof

/-- The operands are ones the spec admits: a device id of 0, 1 or 2 (R126), a float base whose four addresses exist
(R67, R126), a poll whose wanted bits lie inside its mask and whose bound is 1 to 65535 (R147). -/
def Instr.wf : Instr → Bool
  | .wrvr _ _ => true
  | .rdvr _ => true
  | .seldev id => decide (id ≠ 3)
  | .rdflt base => decide (base.toNat ≤ 0x7C)
  | .rdall => true
  | .meas => true
  | .reserved6 _ => true
  | .reserved7 _ => true
  | .vwra _ => true
  | .vrda _ => true
  | .vdata _ => true
  | .status _ => true
  | .ptrStatus => true
  | .ptrRead => true
  | .wrWrite _ => true
  | .get1 => true
  | .rdstatus => true
  | .wrwrite _ => true
  | .rdread => true
  | .delay _ => true
  | .poll mask want max _ => decide (want &&& ~~~mask = 0) && decide (max ≠ 0)
  | .waittx => true
  | .waitrx => true

/-- The instructions a command word can spell (R122, R124). -/
def Instr.isCommand : Instr → Bool
  | .wrvr _ _ | .rdvr _ | .seldev _ | .rdflt _ | .rdall | .meas | .reserved6 _ | .reserved7 _ => true
  | .vwra _ | .vrda _ | .vdata _ | .status _ | .ptrStatus | .ptrRead | .wrWrite _ | .get1
  | .rdstatus | .wrwrite _ | .rdread | .delay _ | .poll _ _ _ _ | .waittx | .waitrx => false

end Sys2Proof
end

