-- ==== Sys2Proof/Decode.lean ====
section
/-! DEFINITION. The decoders, total and refusing by name, and after them the encoders. Three kinds of code exist: the
18-bit word of the command port (R101, R122), the byte on the wire, which only its POSITION tells apart (R41, R110 to
R112), and the frame of a transport call (R113). Micro-operations have no code of their own (R123). -/

namespace Sys2Proof

/-- Why a code spells no instruction. -/
inductive DecodeError where
  /-- `data` must be 0 and is not, or SELDEV's `data[7:2]` is not 0 (R124). -/
  | dataNotZero
  /-- `addr` must be 0 and is not (R124). -/
  | addrNotZero
  /-- SELDEV with id 3 (R126). -/
  | deviceIdOutOfRange
  /-- RDFLT with a base above 0x7C (R126). -/
  | baseOutOfRange
  /-- The bytes are none of the transmit frames of R113. -/
  | noSuchFrame
  /-- The engine only ever receives one byte (R114). -/
  | noSuchReceive
  deriving DecidableEq, Repr

/-- Where a byte stands in a handshake: the first byte written to WRITE, the byte after a write command byte, or the
byte received after STATUS was pointed at (R41, R111, R112). -/
inductive WirePos where
  | command
  | data
  | status
  deriving DecidableEq, Repr

/-- A code of any of the three kinds, or the receive of some number of bytes. -/
inductive Code where
  | command (w : CmdWord)
  | wire (pos : WirePos) (b : Byte)
  | frame (bytes : List Byte)
  | receive (len : Nat)
  deriving DecidableEq, Repr

/-! The fields of a command word (R101). -/

def cmdOp (w : CmdWord) : BitVec 3 := w.extractLsb' 15 3
def cmdAddr (w : CmdWord) : VAddr := w.extractLsb' 8 7
def cmdData (w : CmdWord) : Byte := w.extractLsb' 0 8
def cmdRest (w : CmdWord) : BitVec 15 := w.extractLsb' 0 15

/-- The decoding of a command word by R122, R124 and R126. The reserved opcodes are rows of the table and decode to
their own constructors; their meaning is the refusal of R125. -/
def decodeCmd (w : CmdWord) : Except DecodeError Instr :=
  match (cmdOp w).toNat with
  | 0 => .ok (.wrvr (cmdAddr w) (cmdData w))
  | 1 => if cmdData w = 0 then .ok (.rdvr (cmdAddr w)) else .error .dataNotZero
  | 2 =>
    if cmdAddr w ≠ 0 then .error .addrNotZero
    else if (cmdData w).extractLsb' 2 6 ≠ 0 then .error .dataNotZero
    else if (cmdData w).extractLsb' 0 2 = 3 then .error .deviceIdOutOfRange
    else .ok (.seldev ((cmdData w).extractLsb' 0 2))
  | 3 =>
    if cmdData w ≠ 0 then .error .dataNotZero
    else if (cmdAddr w).toNat ≤ 0x7C then .ok (.rdflt (cmdAddr w))
    else .error .baseOutOfRange
  | 4 =>
    if cmdAddr w ≠ 0 then .error .addrNotZero
    else if cmdData w ≠ 0 then .error .dataNotZero
    else .ok .rdall
  | 5 =>
    if cmdAddr w ≠ 0 then .error .addrNotZero
    else if cmdData w ≠ 0 then .error .dataNotZero
    else .ok .meas
  | 6 => .ok (.reserved6 (cmdRest w))
  | _ => .ok (.reserved7 (cmdRest w))

/-- The decoding of a byte on the wire by its position (R110, R111, R112); every byte value is legal (R128). -/
def decodeWire (pos : WirePos) (b : Byte) : Instr :=
  match pos with
  | .command => if b &&& Config.vwriteFlag ≠ 0 then .vwra (b.extractLsb' 0 7) else .vrda (b.extractLsb' 0 7)
  | .data => .vdata b
  | .status => .status b

/-- The decoding of a `transmit` frame by its sub-address and its length (R113, R114). -/
def decodeFrame (p : Params) (bytes : List Byte) : Except DecodeError Instr :=
  match bytes with
  | [r] =>
    if r = p.statusReg then .ok .ptrStatus
    else if r = p.readReg then .ok .ptrRead
    else .error .noSuchFrame
  | [r, b] => if r = p.writeReg then .ok (.wrWrite b) else .error .noSuchFrame
  | _ => .error .noSuchFrame

/-- The decoder of every code, total. -/
def decode (p : Params) : Code → Except DecodeError Instr
  | .command w => decodeCmd w
  | .wire pos b => .ok (decodeWire pos b)
  | .frame bytes => decodeFrame p bytes
  | .receive len => if len = 1 then .ok .get1 else .error .noSuchReceive

/-- The instruction the decoder reads from a row's bits, numbered as the opcode table numbers them: a word of more than
16 bits is a command word, one of 9 to 16 bits is WR_WRITE's frame (sub-address in bits 15:8, under the default
sub-addresses), one of up to 8 bits is a command byte. The other 8-bit rows are told apart by position only (R41), which
the bits do not give; log entry 13. -/
def decodeTableWord (nbits w : Nat) : Option Instr :=
  if nbits ≤ 8 then (if w < 256 then some (decodeWire .command (BitVec.ofNat 8 w)) else none)
  else if nbits ≤ 16 then
    (if w < 65536 then (decodeFrame Params.default [BitVec.ofNat 8 (w / 256), BitVec.ofNat 8 w]).toOption else none)
  else if w < 262144 then (decodeCmd (BitVec.ofNat 18 w)).toOption
  else none

/-! The encoders. -/

/-- A command word from its fields (R101). -/
def cmdWord (op : BitVec 3) (addr : VAddr) (data : Byte) : CmdWord := op ++ addr ++ data

/-- VWRA(a) = 0x80 | zext_8(a) (R115). -/
def vwraByte (a : VAddr) : Byte := Config.vwriteFlag ||| a.setWidth 8

/-- VRDA(a) = zext_8(a) & 0x7F (R116). -/
def vrdaByte (a : VAddr) : Byte := a.setWidth 8 &&& 0x7F

/-- The code of an instruction from the spec's encoding tables; none for a micro-operation (R123). -/
def encode (p : Params) : Instr → Option Code
  | .wrvr a d => some (.command (cmdWord 0 a d))
  | .rdvr a => some (.command (cmdWord 1 a 0))
  | .seldev id => some (.command (cmdWord 2 0 (id.setWidth 8)))
  | .rdflt base => some (.command (cmdWord 3 base 0))
  | .rdall => some (.command (cmdWord 4 0 0))
  | .meas => some (.command (cmdWord 5 0 0))
  | .reserved6 rest => some (.command ((6#3 ++ rest : BitVec 18)))
  | .reserved7 rest => some (.command ((7#3 ++ rest : BitVec 18)))
  | .vwra a => some (.wire .command (vwraByte a))
  | .vrda a => some (.wire .command (vrdaByte a))
  | .vdata d => some (.wire .data d)
  | .status b => some (.wire .status b)
  | .ptrStatus => some (.frame [p.statusReg])
  | .ptrRead => some (.frame [p.readReg])
  | .wrWrite b => some (.frame [p.writeReg, b])
  | .get1 => some (.receive 1)
  | .rdstatus => none
  | .wrwrite _ => none
  | .rdread => none
  | .delay _ => none
  | .poll _ _ _ _ => none
  | .waittx => none
  | .waitrx => none

/-! The textual form of a command (R130). -/

/-- A hexadecimal digit. -/
def hexDigit (n : Nat) : Char := ['0', '1', '2', '3', '4', '5', '6', '7', '8', '9', 'A', 'B', 'C', 'D', 'E', 'F'].getD n '0'

/-- A byte as `0x` and two hexadecimal digits. -/
def hexByte (n : Nat) : String := "0x" ++ String.singleton (hexDigit (n / 16 % 16)) ++ String.singleton (hexDigit (n % 16))

/-- The assembly line of a command (R130); none for what cannot be issued at the command port. -/
def asm : Instr → Option String
  | .wrvr a d => some ("WRVR " ++ hexByte a.toNat ++ ", " ++ hexByte d.toNat)
  | .rdvr a => some ("RDVR " ++ hexByte a.toNat)
  | .seldev id => some ("SELDEV " ++ hexByte id.toNat)
  | .rdflt base => some ("RDFLT " ++ hexByte base.toNat)
  | .rdall => some "RDALL"
  | .meas => some "MEAS"
  | .reserved6 _ | .reserved7 _ => none
  | .vwra _ | .vrda _ | .vdata _ | .status _ | .ptrStatus | .ptrRead | .wrWrite _ | .get1
  | .rdstatus | .wrwrite _ | .rdread | .delay _ | .poll _ _ _ _ | .waittx | .waitrx => none

end Sys2Proof
end

