-- ==== Sys2Proof/Machine/State.lean ====
section
/-! DEFINITION. The state of the whole system (R20): the engine's sequencer and registers (R21 to R31), the command port
(R100), and the environment: the transport's answers, the sensor's side (R40 to R49) and the trace of external calls
(R74). State is plain data. -/

namespace Sys2Proof.Machine

/-- The position inside a poll step: next call is the STATUS pointer, the receive, the delay (R22 `PL`). -/
inductive PollPos where
  | ptr
  | get
  | dly
  deriving DecidableEq, Repr

/-- The position inside the read of READ (R22 `PL`, E_PTR and E_GET). -/
inductive ReadPos where
  | ptr
  | get
  deriving DecidableEq, Repr

/-- The steps (a) to (e) of a virtual-register write with their positions (R22, R161). -/
inductive WStep where
  | wA (p : PollPos)
  | wB
  | wC (p : PollPos)
  | wD
  | wE (p : PollPos)
  deriving DecidableEq, Repr

/-- The steps (a) to (e) of a virtual-register read with their positions (R22, R166). -/
inductive RStep where
  | rA (p : PollPos)
  | rB
  | rC (p : PollPos)
  | rD (p : PollPos)
  | rE (p : ReadPos)
  deriving DecidableEq, Repr

/-- Which operation and phase a virtual-register write belongs to. The die of a sweep is the register DEV. -/
inductive WCtx where
  | wrvr
  | seldev
  | sweepSel
  | ledonWr
  | measWr
  | ledoffWr
  deriving DecidableEq, Repr

/-- Which operation and phase a virtual-register read belongs to; `b` numbers the byte of a float. The die and channel of
a sweep are the registers DEV and CH. -/
inductive RCtx where
  | rdvr
  | flt (b : Fin 4)
  | sweepFlt (b : Fin 4)
  | ledonRd
  | measRd
  | measPoll
  deriving DecidableEq, Repr

/-- The accepted command whose last call has returned and whose response is still to come. -/
inductive EndCtx where
  | wrvr
  | rdvr
  | seldev
  | rdflt
  | rdall
  | meas
  deriving DecidableEq, Repr

/-- The sequencer SEQ (R21): idle, in a write handshake, in a read handshake, in the delay of the busy poll, or after a
command's last call, with the status code its completion will answer (R7, R23 (d), R104; log entry 4). Only the tuples R22
allows can be written; `Seq.top`, `Seq.phase`, `Seq.vr` and `Seq.pl` (Machine/Operands.lean) read them. -/
inductive Seq where
  | idle
  | writing (c : WCtx) (w : WStep)
  | reading (c : RCtx) (r : RStep)
  | measDly
  | ending (c : EndCtx) (status : BitVec 2)
  deriving DecidableEq, Repr

/-- The engine's registers (R24). -/
structure Regs where
  /-- OP: opcode of the accepted command. -/
  op : BitVec 3
  /-- A: virtual address of the operation in progress. -/
  a : VAddr
  /-- D: data byte of the write in progress. -/
  d : Byte
  /-- BASE: base address of the float read in progress. -/
  base : VAddr
  /-- ST: the last STATUS byte received. -/
  st : Byte
  /-- RX: the last byte received from READ. -/
  rx : Byte
  /-- CNT: attempts made in the STATUS poll in progress. -/
  cnt : Count
  /-- CNT2: attempts made in the busy poll of MEAS. -/
  cnt2 : Count
  /-- ACC: the float word being assembled. -/
  acc : Word
  /-- DEV: die index of the sweep. -/
  dev : BitVec 2
  /-- CH: channel index of the sweep. -/
  ch : BitVec 3
  /-- RES[0..17]: the result array as the sweep fills it; the response's copy is `Rsp.res` (log entry 21). -/
  res : Vector Word 18
  /-- FAIL: bit i set when RES[i] is a substituted 0.0; the response's copy is `Rsp.fail` (log entry 21). -/
  fail : BitVec 18
  /-- LEDSAVE: LED_CONTROL as read before LedOn. -/
  ledsave : Byte
  /-- CS: CONTROL_SETUP as last read. -/
  cs : Byte
  /-- ERR: first failure met during MEAS after LedOn; 0 is none. -/
  err : BitVec 2
  deriving DecidableEq, Repr

/-- The response registers, written together when a command ends and held until the next one ends (R31), and whether a response has been produced since the last acceptance (R55, R100). -/
structure Rsp where
  /-- RSP_STATUS. -/
  status : BitVec 2
  /-- RSP_BYTE: valid for RDVR with status OK, otherwise a free value. -/
  byte : Byte
  /-- RSP_WORD: valid for RDFLT with status OK, otherwise a free value. -/
  word : Word
  /-- RES[0..17] of the response: valid for RDALL, otherwise a free value. -/
  res : Vector Word 18
  /-- FAIL of the response: valid for RDALL, otherwise a free value. -/
  fail : BitVec 18
  /-- A response is pending. -/
  pending : Bool
  deriving DecidableEq, Repr

/-- The result an instruction hands to what encloses it: Ok, Ok(v), Timeout or BusError (R13). -/
inductive Ret where
  | ok
  | byte (v : Byte)
  | timeout
  | busError
  deriving DecidableEq, Repr

/-- What crosses the engine's boundary: the external calls with their arguments and answers (R74, R143), the two events
of the command port (R100), and a reset (R280). -/
inductive Event where
  | transmit (dev : BitVec 7) (bytes : List Byte) (timeout : Duration) (answer : TxAnswer)
  | receive (dev : BitVec 7) (len : Nat) (timeout : Duration) (answer : RxAnswer)
  | delay (t : Interval) (duration : Duration)
  | accept (w : CmdWord)
  | done (status : BitVec 2)
  | reset
  deriving DecidableEq, Repr

/-- The environment of the engine (R8): who answers, the answers already settled for the coming calls, the sensor's side,
how many transport calls were made, the counter that numbers free values (the model's own), and the trace, newest first. -/
structure Env where
  bus : BusModel
  /-- Answers settled for the coming `transmit` calls under the oracle; past the list's end an answer is a free value. -/
  txAnswers : List TxAnswer
  /-- Answers settled for the coming `receive` calls under the oracle. -/
  rxAnswers : List RxAnswer
  sensor : Sensor
  calls : Nat
  fresh : Nat
  trace : List Event
  deriving DecidableEq, Repr

/-- The state of the machine. -/
structure State where
  /-- The parameter record (R9); no step writes it. -/
  par : Params
  /-- SEQ. -/
  seq : Seq
  regs : Regs
  rsp : Rsp
  /-- The result of the call or micro-operation last executed (R13); the sequencer takes it at once. -/
  ret : Ret
  /-- The CLIENT's command words not yet accepted, in its order; the first stands at the port (R75, R100, R102). -/
  cmds : List CmdWord
  /-- The environment has applied a reset that the engine has not yet taken (R280). -/
  resetReq : Bool
  env : Env
  deriving DecidableEq, Repr

/-- Why a step has no defined outcome. The engine itself has no fatal state (R255): every fault is the reference
device's REFUSE of R88, a situation in which the spec gives the sensor no behaviour (R86). All are safe. -/
inductive Fault where
  /-- Raised by WR_WRITE on the reference device: a value above 2 as the data of a write to 0x4F (R88, U4). Safe. -/
  | rdSelectorOutOfRange
  /-- Raised by WR_WRITE on the reference device: WRITE is written while TX_VALID is 1 (R86, U2). Safe. -/
  | rdWriteWhilePending
  /-- Raised by GET1 on the reference device: READ is read while no result is ready (R86, R88, U6). Safe. -/
  | rdReadNotReady
  /-- Raised on the reference device by any other call R88 gives no meaning: a frame that is none of R113's, or a receive
  with the pointer at a register that is not read (U7). Safe. -/
  | rdOutsideProtocol
  deriving DecidableEq, Repr

/-- Why a step gives an instruction no meaning. -/
inductive Refusal where
  /-- Raised only in exec's arms, for an instruction that has no meaning yet. Safe. -/
  | notModelled (mnemonic : String)
  /-- Raised by POLL with a bound of 0, which R147 does not admit (`max` in 1..65535). Safe. -/
  | pollBoundZero
  deriving DecidableEq, Repr

/-- The engine's registers after reset. The spec gives them no value (R27, R55): all zero by DESIGN CHOICE, log entry 1. -/
def Regs.reset : Regs where
  op := 0
  a := 0
  d := 0
  base := 0
  st := 0
  rx := 0
  cnt := 0
  cnt2 := 0
  acc := 0
  dev := 0
  ch := 0
  res := Vector.replicate 18 0
  fail := 0
  ledsave := 0
  cs := 0
  err := 0

/-- The response registers after reset: no response is pending (R55); the values are zero by DESIGN CHOICE, log entry 1. -/
def Rsp.reset : Rsp where
  status := 0
  byte := 0
  word := 0
  res := Vector.replicate 18 0
  fail := 0
  pending := false

/-- The sensor's side at power-up: unspecified in every part (R56), so a free value; its register file lists nothing. -/
def Sensor.powerUp : Sensor := { Config.freeSensor 0 with vreg := [] }

/-- The environment at power-up: the unconstrained oracle, no answer settled, nothing recorded. -/
def Env.powerUp : Env where
  bus := .oracle
  txAnswers := []
  rxAnswers := []
  sensor := Sensor.powerUp
  calls := 0
  fresh := 1
  trace := []

/-- The machine right after reset (R55, R56): SEQ idle, no response pending, no command waiting. -/
def State.reset : State where
  par := Params.default
  seq := .idle
  regs := Regs.reset
  rsp := Rsp.reset
  ret := .ok
  cmds := []
  resetReq := false
  env := Env.powerUp

end Sys2Proof.Machine
end

