-- ==== Sys2Proof/Machine/Operands.lean ====
section
/-! DEFINITION. Operand assembly (R115 to R121) and the reading of SEQ as R22's tuple. -/

namespace Sys2Proof.Machine

/-! Operands of the multi-register sequences. -/

/-- Byte `i` of the float at `base` is at `base + i` (R117). -/
def floatByteAddr (base : VAddr) (i : Fin 4) : VAddr := base + BitVec.ofNat 7 i.val

/-- The base of a die's channel: `CAL_BASE + CAL_STEP * idx` (R118). -/
def channelBase (ch : BitVec 3) : VAddr := Config.calBase + Config.calStep * ch.setWidth 7

/-- The flat index `dev*6 + idx` (R118, R196). -/
def flatIndex (dev : BitVec 2) (ch : BitVec 3) : Nat := dev.toNat * 6 + ch.toNat

/-- The place of byte `i` of a float in the word under each byte order (R119). -/
def placeByte (o : ByteOrder) (i : Fin 4) (b : Byte) : Word :=
  match o with
  | .be => b.setWidth 32 <<< (24 - 8 * i.val)
  | .le => b.setWidth 32 <<< (8 * i.val)

/-- ACC after byte `i`: the first byte is assigned, the others are or-ed in (R185). -/
def mergeByte (o : ByteOrder) (i : Fin 4) (acc : Word) (b : Byte) : Word :=
  if i = 0 then placeByte o i b else acc ||| placeByte o i b

/-- The word of four bytes in address order (R119). -/
def assembleWord (o : ByteOrder) (b0 b1 b2 b3 : Byte) : Word :=
  match o with
  | .be => b0 ++ b1 ++ b2 ++ b3
  | .le => b3 ++ b2 ++ b1 ++ b0

/-- Device id to data byte (R120). -/
def deviceByte (id : BitVec 2) : Byte := id.setWidth 8

/-- The data byte as a die; other values have no meaning (R73, R120). -/
def Die.ofByte (b : Byte) : Option Die :=
  if b = 0 then some .master else if b = 1 then some .slave1 else if b = 2 then some .slave2 else none

def Die.index : Die → Nat
  | .master => 0
  | .slave1 => 1
  | .slave2 => 2

/-- The effective target of a virtual-register access: register `a` of the selected die (R72). -/
def vregAddr (d : Die) (a : VAddr) : Nat := d.index * 128 + a.toNat

/-- The sign, biased exponent and fraction of a binary32 pattern (R187). -/
def f32Sign (w : Word) : BitVec 1 := w.extractLsb' 31 1
def f32Exponent (w : Word) : BitVec 8 := w.extractLsb' 23 8
def f32Fraction (w : Word) : BitVec 23 := w.extractLsb' 0 23

/-- What a binary32 pattern denotes: a signed `m * 2^e` (so that -0.0 is not +0.0), a signed infinity, or a NaN with its
sign and payload (R187). -/
inductive F32 where
  | finite (negative : Bool) (m : Nat) (e : Int)
  | infinite (negative : Bool)
  | nan (sign : BitVec 1) (payload : BitVec 23)
  deriving DecidableEq, Repr

/-- `bits32_to_f32(w)`: a reinterpretation of the pattern, no arithmetic (R187). -/
def bits32ToF32 (w : Word) : F32 :=
  if f32Exponent w = 0xFF then
    (if f32Fraction w = 0 then .infinite (f32Sign w = 1) else .nan (f32Sign w) (f32Fraction w))
  else if f32Exponent w = 0 then .finite (f32Sign w = 1) (f32Fraction w).toNat (-149)
  else .finite (f32Sign w = 1) (2 ^ 23 + (f32Fraction w).toNat) ((f32Exponent w).toNat - 150)

/-! Bit operations of MEAS (R121). -/

def ledOnValue (p : Params) (saved : Byte) : Byte := saved ||| p.ledDrvEnMask
def ledOffValue (p : Params) (saved : Byte) : Byte := saved &&& ~~~p.ledDrvEnMask
def measStartValue (p : Params) (cs : Byte) : Byte := cs ||| p.measBusyMask

/-! SEQ as the tuple (TOP, PH, VR, PL) of R22. -/

/-- TOP: the command being run. -/
inductive Top where
  | idle
  | wrvr
  | rdvr
  | seldev
  | rdflt
  | rdall
  | meas
  deriving DecidableEq, Repr

/-- PH: the phase of a multi-register sequence. -/
inductive Phase where
  | none
  | b (i : Fin 4)
  | sel (d : BitVec 2)
  | flt (d : BitVec 2) (c : BitVec 3) (i : Fin 4)
  | ledonRd
  | ledonWr
  | measRd
  | measWr
  | measPoll
  | measDly
  | ledoffWr
  deriving DecidableEq, Repr

/-- VR: the step of the virtual-register operation in progress. -/
inductive VrStep where
  | none
  | wA
  | wB
  | wC
  | wD
  | wE
  | rA
  | rB
  | rC
  | rD
  | rE
  deriving DecidableEq, Repr

/-- PL: the position inside a step that makes more than one external call. -/
inductive Place where
  | none
  | pPtr
  | pGet
  | pDly
  | ePtr
  | eGet
  deriving DecidableEq, Repr

def WCtx.top : WCtx → Top
  | .wrvr => .wrvr
  | .seldev => .seldev
  | .sweepSel => .rdall
  | .ledonWr | .measWr | .ledoffWr => .meas

def RCtx.top : RCtx → Top
  | .rdvr => .rdvr
  | .flt _ => .rdflt
  | .sweepFlt _ => .rdall
  | .ledonRd | .measRd | .measPoll => .meas

def EndCtx.top : EndCtx → Top
  | .wrvr => .wrvr
  | .rdvr => .rdvr
  | .seldev => .seldev
  | .rdflt => .rdflt
  | .rdall => .rdall
  | .meas => .meas

def Seq.top : Seq → Top
  | .idle => .idle
  | .writing c _ => c.top
  | .reading c _ => c.top
  | .measDly => .meas
  | .ending c _ => c.top

/-- The opcode of a command (R122); IDLE has none and reads as 0. -/
def Top.opcode : Top → BitVec 3
  | .idle | .wrvr => 0
  | .rdvr => 1
  | .seldev => 2
  | .rdflt => 3
  | .rdall => 4
  | .meas => 5

def WCtx.phase (dev : BitVec 2) : WCtx → Phase
  | .wrvr | .seldev => .none
  | .sweepSel => .sel dev
  | .ledonWr => .ledonWr
  | .measWr => .measWr
  | .ledoffWr => .ledoffWr

def RCtx.phase (dev : BitVec 2) (ch : BitVec 3) : RCtx → Phase
  | .rdvr => .none
  | .flt i => .b i
  | .sweepFlt i => .flt dev ch i
  | .ledonRd => .ledonRd
  | .measRd => .measRd
  | .measPoll => .measPoll

/-- PH; the die and channel of a sweep stand in DEV and CH. -/
def Seq.phase (dev : BitVec 2) (ch : BitVec 3) : Seq → Phase
  | .idle => .none
  | .writing c _ => c.phase dev
  | .reading c _ => c.phase dev ch
  | .measDly => .measDly
  | .ending _ _ => .none

def PollPos.place : PollPos → Place
  | .ptr => .pPtr
  | .get => .pGet
  | .dly => .pDly

def ReadPos.place : ReadPos → Place
  | .ptr => .ePtr
  | .get => .eGet

def Seq.vr : Seq → VrStep
  | .idle | .measDly | .ending _ _ => .none
  | .writing _ (.wA _) => .wA
  | .writing _ .wB => .wB
  | .writing _ (.wC _) => .wC
  | .writing _ .wD => .wD
  | .writing _ (.wE _) => .wE
  | .reading _ (.rA _) => .rA
  | .reading _ .rB => .rB
  | .reading _ (.rC _) => .rC
  | .reading _ (.rD _) => .rD
  | .reading _ (.rE _) => .rE

def Seq.pl : Seq → Place
  | .writing _ (.wA p) | .writing _ (.wC p) | .writing _ (.wE p) => p.place
  | .reading _ (.rA p) | .reading _ (.rC p) | .reading _ (.rD p) => p.place
  | .reading _ (.rE p) => p.place
  | .idle | .measDly | .ending _ _ | .writing _ .wB | .writing _ .wD | .reading _ .rB => .none

/-- The tuple (TOP, PH, VR, PL) of a state. -/
def State.seqTuple (s : State) : Top × Phase × VrStep × Place :=
  (s.seq.top, s.seq.phase s.regs.dev s.regs.ch, s.seq.vr, s.seq.pl)

end Sys2Proof.Machine
end

