-- ==== Sys2Proof/Machine/Flags.lean ====
section
/-! DEFINITION. Every condition the engine tests (R29): the two STATUS bits, the busy bit, BUSY, a counter at its bound;
and the fields of the STATUS byte (R112, R127). -/

namespace Sys2Proof.Machine

/-- TX_VALID of a STATUS byte (R112). -/
def txValid (st : Byte) : Bool := st &&& Config.txValidMask ≠ 0

/-- RX_VALID of a STATUS byte (R112). -/
def rxValid (st : Byte) : Bool := st &&& Config.rxValidMask ≠ 0

/-- BUSY: 1 exactly when TOP is not IDLE (R29). -/
def State.busy (s : State) : Bool := s.seq ≠ .idle

/-- The busy bit of a CONTROL_SETUP byte (R121). -/
def measBusy (p : Params) (cs : Byte) : Bool := cs &&& p.measBusyMask ≠ 0

/-- The two instances of the bounded poll (R148, R149). -/
inductive PollKind where
  | tx
  | rx
  deriving DecidableEq, Repr

def PollKind.mask : PollKind → Byte
  | .tx => Config.txValidMask
  | .rx => Config.rxValidMask

def PollKind.want : PollKind → Byte
  | .tx => 0x00
  | .rx => 0x01

def PollKind.max (p : Params) : PollKind → Count
  | .tx => p.txPollMax
  | .rx => p.rxPollMax

def PollKind.interval : PollKind → Interval
  | .tx => .txPoll
  | .rx => .rxPoll

/-- The condition of a poll attempt: `(STATUS & mask) = want` (R147). -/
def pollHit (mask want st : Byte) : Bool := st &&& mask = want

/-- The two failure kinds of an operation (R240). -/
inductive Failure where
  | timeout
  | busError
  deriving DecidableEq, Repr

/-- The response code of a failure (R105, R240). -/
def Failure.code : Failure → BitVec 2
  | .timeout => 1
  | .busError => 2

/-- The response codes that are not failures (R105). -/
def codeOk : BitVec 2 := 0
def codeRefused : BitVec 2 := 3

/-- `first(e, r)` of R212 on codes: the recorded failure if there is one, else the other. -/
def firstCode (err r : BitVec 2) : BitVec 2 := if err ≠ codeOk then err else r

def TxAnswer.ret : TxAnswer → Ret
  | .ok => .ok
  | .busError => .busError

def RxAnswer.ret : RxAnswer → Ret
  | .byte b => .byte b
  | .busError => .busError

/-- The failure a result carries, if it is one (R13). -/
def Ret.failure : Ret → Option Failure
  | .ok | .byte _ => none
  | .timeout => some .timeout
  | .busError => some .busError

/-- The result that carries a failure (R13). -/
def Failure.ret : Failure → Ret
  | .timeout => .timeout
  | .busError => .busError

/-- The data a response carries beside its status (R106). -/
inductive RspData where
  | nothing
  | byte (b : Byte)
  | word (w : Word)
  | all (res : Vector Word 18) (fail : BitVec 18)
  deriving DecidableEq, Repr

/-- What a completion writes into the response registers: the status, and each data field; a field that is not valid for
the command and the status is a free value (R31), numbered `n`. -/
def RspData.rsp (code : BitVec 2) (n : Nat) (d : RspData) : Rsp where
  status := code
  byte := match d with
    | .byte b => b
    | .nothing | .word _ | .all _ _ => Config.freeByte n
  word := match d with
    | .word w => w
    | .nothing | .byte _ | .all _ _ => Config.freeWord n
  res := match d with
    | .all r _ => r
    | .nothing | .byte _ | .word _ => Config.freeRes n
  fail := match d with
    | .all _ f => f
    | .nothing | .byte _ | .word _ => Config.freeFail n
  pending := true

/-- A response as the CLIENT sees it (R106): the fields that are valid for the command and the status at hand. -/
inductive Response where
  | ok
  | okByte (b : Byte)
  | okWord (w : Word)
  | okAll (res : Vector Word 18) (fail : BitVec 18)
  | timeout
  | busError
  | refused
  deriving DecidableEq, Repr

/-- The response held in the response registers, read by the status and by the opcode of the command, which OP holds until
the next acceptance (R31, R106). -/
def State.response (s : State) : Response :=
  if s.rsp.status = 1 then .timeout
  else if s.rsp.status = 2 then .busError
  else if s.rsp.status = 3 then .refused
  else if s.regs.op = 1 then .okByte s.rsp.byte
  else if s.regs.op = 3 then .okWord s.rsp.word
  else if s.regs.op = 4 then .okAll s.rsp.res s.rsp.fail
  else .ok

end Sys2Proof.Machine
end

