-- ==== Sys2Proof/Machine/Sensor.lean ====
section
/-! DEFINITION. The reference device RD(lt, lr) of R88 with the busy bit of RD+B (file 95), and the sensor side under the
unconstrained oracle. The environment, not the engine: no rule of the engine reads any of it (R80). -/

namespace Sys2Proof.Machine

/-- The STATUS byte: bits 7:2, TX_VALID while a byte is pending, RX_VALID once a result is ready (R40). -/
def Sensor.statusByte (x : Sensor) : Byte :=
  x.statusHi ++ BitVec.ofBool (decide (x.tc ≠ 0)) ++ BitVec.ofBool (x.rdv && decide (x.tc = 0) && decide (x.rc = 0))

/-- The STATUS byte the reference device answers: bits 7:2 are 0, whatever a sensor might hold there (R88). -/
def Sensor.rdStatusByte (x : Sensor) : Byte := Sensor.statusByte { x with statusHi := 0 }

/-- Where the data byte now handed to WRITE would be stored: register `a` of the selected die, if a write command byte
for `a` is pending and `a` is not the selector (R84, R88). -/
def Sensor.storeAddr (x : Sensor) : Option Nat :=
  match x.pend with
  | .none => none
  | .writeTo a => if a = Config.devselVaddr then none else some (vregAddr x.sel a)

/-- The effect of storing a byte into CONTROL_SETUP on the busy counter of RD+B: a byte with the busy bit set starts it. -/
def RefDevice.startCount (rd : RefDevice) (p : Params) (a : VAddr) (b : Byte) (bc : Nat) : Nat :=
  match rd.busy with
  | .times nb => if a = p.controlSetupVaddr ∧ measBusy p b then nb else bc
  | .off | .forever => bc

/-- The data byte of a virtual-register write is taken (R84, R85, R88, RD+B). -/
def Sensor.takeData (p : Params) (rd : RefDevice) (a : VAddr) (b : Byte) (x : Sensor) : Except Fault Sensor :=
  if a = Config.devselVaddr then
    match Die.ofByte b with
    | some d => .ok { x with sel := d, pend := .none }
    | none => .error .rdSelectorOutOfRange
  else .ok { x with vreg := Memory.write x.vreg (vregAddr x.sel a) b, bc := rd.startCount p a b x.bc, pend := .none }

/-- The register file and the busy counter after a virtual-register read of `a`: under RD+B(nb) a busy bit that has been
read `nb` times since the start is cleared in the stored value first (file 95). -/
def Sensor.settleBusy (p : Params) (rd : RefDevice) (a : VAddr) (x : Sensor) : Sensor :=
  match rd.busy with
  | .times _ =>
    if a = p.controlSetupVaddr ∧ measBusy p (Memory.read x.vreg (vregAddr x.sel a)) then
      if x.bc > 0 then { x with bc := x.bc - 1 }
      else { x with vreg := Memory.write x.vreg (vregAddr x.sel a)
                              (Memory.read x.vreg (vregAddr x.sel a) &&& ~~~p.measBusyMask) }
    else x
  | .off | .forever => x

/-- A read command byte for `a` is taken: READ holds the register's value, ready after `lr` STATUS reads (R83, R88). -/
def Sensor.takeRead (p : Params) (rd : RefDevice) (a : VAddr) (x : Sensor) : Sensor :=
  let y := x.settleBusy p rd a
  { y with read := Memory.read y.vreg (vregAddr y.sel a), rdv := true, rc := rd.lr }

/-- A byte is written to WRITE: data if a write command byte is pending, else a command byte (R41, R88). -/
def Sensor.takeByte (p : Params) (rd : RefDevice) (b : Byte) (x : Sensor) : Except Fault Sensor :=
  match x.pend with
  | .writeTo a => x.takeData p rd a b
  | .none =>
    if b &&& Config.vwriteFlag ≠ 0 then .ok { x with pend := .writeTo (b.extractLsb' 0 7) }
    else .ok (x.takeRead p rd (b.extractLsb' 0 7))

/-- `transmit` on the reference device (R88); WRITE written while TX_VALID is 1 has no defined outcome (R86, U2). -/
def Sensor.transmit (p : Params) (rd : RefDevice) (bytes : List Byte) (x : Sensor) : Except Fault Sensor :=
  match bytes with
  | [r] => .ok { x with ptr := r }
  | [r, b] =>
    if r = p.writeReg then
      if x.tc = 0 then Sensor.takeByte p rd b { x with ptr := p.writeReg, tc := rd.lt, write := b }
      else .error .rdWriteWhilePending
    else .error .rdOutsideProtocol
  | _ => .error .rdOutsideProtocol

/-- What a read of STATUS uses up: one pending read, or else one not-ready read (R88). -/
def Sensor.tick (x : Sensor) : Sensor :=
  if x.tc > 0 then { x with tc := x.tc - 1 }
  else if x.rdv && decide (x.rc > 0) then { x with rc := x.rc - 1 }
  else x

/-- A read result is ready: RX_VALID shows 1 (R88). -/
def Sensor.ready (x : Sensor) : Bool := x.rdv && decide (x.tc = 0) && decide (x.rc = 0)

/-- `receive` on the reference device (R88). -/
def Sensor.receive (p : Params) (len : Nat) (x : Sensor) : Except Fault (Byte × Sensor) :=
  if len ≠ 1 then .error .rdOutsideProtocol
  else if x.ptr = p.statusReg then .ok (x.rdStatusByte, x.tick)
  else if x.ptr = p.readReg then
    if x.ready then .ok (x.read, { x with rdv := false }) else .error .rdReadNotReady
  else .error .rdOutsideProtocol

/-- The sensor's side after a call or a delay under the oracle: nothing constrains it (R50, R80, R146, U1). The register
file is brought to its canonical form, which constrains no register's value. -/
def Sensor.unknown (n : Nat) : Sensor :=
  { Config.freeSensor n with vreg := Memory.ofCells (Config.freeSensor n).vreg }

end Sys2Proof.Machine
end

