-- ==== Sys2Proof/Machine/Ops.lean ====
section
/-! DEFINITION. The named operations over the state: the external calls (R12, R143), the register updates, the response
(R31, R104), the ends of a handshake and its abandonment (R246 to R249), the start of each phase, reset (R280). -/

namespace Sys2Proof.Machine

/-- What one step answers. -/
abbrev Out := Host.Outcome State Fault Refusal

/-- A step followed by another. -/
def Out.andThen (o : Out) (k : State → Out) : Out :=
  match o with
  | .next s => k s
  | .fault f => .fault f
  | .refused r => .refused r

/-! The environment. -/

/-- An event put on the trace. -/
def Env.log (e : Env) (ev : Event) : Env := { e with trace := ev :: e.trace }

/-- The answer to the next `transmit` under the oracle: settled, or free (R8, R264). -/
def Env.nextTx (e : Env) : TxAnswer :=
  match e.txAnswers with
  | [] => Config.freeTx e.fresh
  | a :: _ => a

/-- The answer to the next `receive` under the oracle: settled, or free (R8, R264). -/
def Env.nextRx (e : Env) : RxAnswer :=
  match e.rxAnswers with
  | [] => Config.freeRx e.fresh
  | a :: _ => a

/-- RD+F: the next transport call is one that fails and that the device does not see (file 95). -/
def Env.nextFails (e : Env) (rd : RefDevice) : Bool := rd.failAt.contains (e.calls + 1)

/-- `transmit` (R262): the answer and the environment after it. -/
def Env.transmit (p : Params) (bytes : List Byte) (e : Env) : Except Fault (TxAnswer × Env) :=
  match e.bus with
  | .oracle =>
    .ok (e.nextTx,
      ({ e with txAnswers := e.txAnswers.tail, sensor := Sensor.unknown e.fresh, calls := e.calls + 1,
                fresh := e.fresh + 1 }).log (.transmit Config.devAddr7 bytes p.xferTimeout e.nextTx))
  | .reference rd =>
    if e.nextFails rd then
      .ok (.busError, ({ e with calls := e.calls + 1 }).log (.transmit Config.devAddr7 bytes p.xferTimeout .busError))
    else
      match e.sensor.transmit p rd bytes with
      | .error f => .error f
      | .ok x =>
        .ok (.ok, ({ e with sensor := x, calls := e.calls + 1 }).log
          (.transmit Config.devAddr7 bytes p.xferTimeout .ok))

/-- `receive` (R262): the answer and the environment after it. -/
def Env.receive (p : Params) (len : Nat) (e : Env) : Except Fault (RxAnswer × Env) :=
  match e.bus with
  | .oracle =>
    .ok (e.nextRx,
      ({ e with rxAnswers := e.rxAnswers.tail, sensor := Sensor.unknown e.fresh, calls := e.calls + 1,
                fresh := e.fresh + 1 }).log (.receive Config.devAddr7 len p.xferTimeout e.nextRx))
  | .reference rd =>
    if e.nextFails rd then
      .ok (.busError, ({ e with calls := e.calls + 1 }).log (.receive Config.devAddr7 len p.xferTimeout .busError))
    else
      match e.sensor.receive p len with
      | .error f => .error f
      | .ok (b, x) =>
        .ok (.byte b, ({ e with sensor := x, calls := e.calls + 1 }).log
          (.receive Config.devAddr7 len p.xferTimeout (.byte b)))

/-- `delay` (R146): an event, after which the oracle's sensor may have done anything. -/
def Env.delay (p : Params) (t : Interval) (e : Env) : Env :=
  match e.bus with
  | .oracle => ({ e with sensor := Sensor.unknown e.fresh, fresh := e.fresh + 1 }).log (.delay t (p.duration t))
  | .reference _ => e.log (.delay t (p.duration t))

/-- A piece of the spec's pseudocode run to its end: its result (R13) and the state, or a situation the reference device
gives no meaning. -/
abbrev Run := Except Fault (Ret × State)

/-- `try X` (R12): a failure ends the enclosing operation with the same result. -/
def Run.tryThen (x : Run) (k : Ret → State → Run) : Run :=
  match x with
  | .error f => .error f
  | .ok (r, s) => if r.failure.isSome then .ok (r, s) else k r s

/-! External calls of the engine. -/

/-- `xfer_tx(bytes)` (R12). -/
def State.xferTx (bytes : List Byte) (s : State) : Run :=
  match s.env.transmit s.par bytes with
  | .error f => .error f
  | .ok (a, e) => .ok (a.ret, { s with env := e })

/-- `xfer_rx(n)` (R12). -/
def State.xferRx (len : Nat) (s : State) : Run :=
  match s.env.receive s.par len with
  | .error f => .error f
  | .ok (a, e) => .ok (a.ret, { s with env := e })

/-- `delay(t)` (R12, R146). -/
def State.doDelay (t : Interval) (s : State) : State := { s with env := s.env.delay s.par t }

/-! Register updates. -/

/-- `E.ST <- b` (R140). -/
def State.latchStatus (b : Byte) (s : State) : State := { s with regs := { s.regs with st := b } }

/-- `E.RX <- b` (R142). -/
def State.latchRead (b : Byte) (s : State) : State := { s with regs := { s.regs with rx := b } }

/-- `E.CNT <- 0`, at the start of every poll (R25, R147). -/
def State.clearCount (s : State) : State := { s with regs := { s.regs with cnt := 0 } }

/-- `E.CNT <- E.CNT + 1` (R147). -/
def State.countAttempt (s : State) : State := { s with regs := { s.regs with cnt := s.regs.cnt + 1 } }

/-- `ret <- r`: the result handed on (R13). -/
def State.withRet (r : Ret) (s : State) : State := { s with ret := r }

/-- The outcome of an instruction whose run is given: its result stands in `ret` (R13). -/
def Run.finish (x : Run) : Out :=
  match x with
  | .error f => .fault f
  | .ok (r, s) => .next (s.withRet r)

/-- SEQ <- q. -/
def State.goto (q : Seq) (s : State) : State := { s with seq := q }

/-- `E.A <- a ; E.D <- d`, the operands of a write. -/
def State.loadWrite (a : VAddr) (d : Byte) (s : State) : State := { s with regs := { s.regs with a := a, d := d } }

/-- `E.A <- a`, the operand of a read. -/
def State.loadRead (a : VAddr) (s : State) : State := { s with regs := { s.regs with a := a } }

/-- A virtual-register write begins at step (a): its operands, and a fresh poll (R150, R160). -/
def State.beginWrite (c : WCtx) (a : VAddr) (d : Byte) (s : State) : State :=
  ((s.loadWrite a d).clearCount).goto (.writing c (.wA .ptr))

/-- A virtual-register read begins at step (a): its operand, and a fresh poll (R150, R165). -/
def State.beginRead (c : RCtx) (a : VAddr) (s : State) : State :=
  ((s.loadRead a).clearCount).goto (.reading c (.rA .ptr))

/-- `RES[i] <- w ; FAIL[i] <- f` at `i = DEV*6 + CH` (R195). -/
def State.setChannel (w : Word) (f : Bool) (s : State) : State :=
  let i := flatIndex s.regs.dev s.regs.ch
  { s with regs := { s.regs with
      res := s.regs.res.setIfInBounds i w
      fail := if f then s.regs.fail ||| (1#18 <<< i) else s.regs.fail &&& ~~~(1#18 <<< i) } }

/-! The command port. -/

/-- The engine takes the word at the port (R100 `accept`). -/
def State.takeWord (w : CmdWord) (rest : List CmdWord) (s : State) : State :=
  { s with cmds := rest, env := s.env.log (.accept w) }

/-- A word presented while a command runs waits behind those already waiting (R102). -/
def State.wait (w : CmdWord) (s : State) : State := { s with cmds := s.cmds ++ [w] }

/-- Acceptance up to the operands: `E.OP <- op`, and no response is pending any more (R103). -/
def State.latchOp (op : BitVec 3) (s : State) : State :=
  { s with regs := { s.regs with op := op }, rsp := { s.rsp with pending := false }, ret := .ok }

/-- The one response of a command: SEQ to IDLE, and all response registers written together (R23 (d), R31, R104). -/
def State.respond (code : BitVec 2) (data : RspData) (s : State) : State :=
  { s with
    seq := .idle
    rsp := data.rsp code s.env.fresh
    env := ({ s.env with fresh := s.env.fresh + 1 }).log (.done code) }

/-- The last call of an accepted command has returned: its status is settled, its response comes with the next step. -/
def State.endWith (c : EndCtx) (code : BitVec 2) (s : State) : State := s.goto (.ending c code)

/-- The data a command that ended Ok answers with: RX of an RDVR, ACC of an RDFLT, RES and FAIL of an RDALL (R31, R106,
R188). -/
def EndCtx.data (r : Regs) : EndCtx → RspData
  | .rdvr => .byte r.rx
  | .rdflt => .word r.acc
  | .rdall => .all r.res r.fail
  | .wrvr | .seldev | .meas => .nothing

/-- The completion of an accepted command: SEQ to IDLE and the response (R23 (d), R104). -/
def State.complete (c : EndCtx) (code : BitVec 2) (s : State) : State :=
  s.respond code (if code = codeOk then c.data s.regs else .nothing)

/-- The whole effect of a refused command (R125). -/
def State.refuse (s : State) : State := s.respond codeRefused .nothing

/-- A command word presented: accepted when the engine is idle, else it waits (R102, R103). -/
def State.present (w : CmdWord) (start : State → State) (s : State) : State :=
  if s.busy then s.wait w else start s

/-! The sweep of RDALL (R195). -/

/-- The select of die DEV begins. -/
def State.startDie (d : BitVec 2) (s : State) : State :=
  ({ s with regs := { s.regs with dev := d } }).beginWrite .sweepSel Config.devselVaddr (deviceByte d)

/-- The float read of channel CH begins at its first byte. -/
def State.startChannel (c : BitVec 3) (s : State) : State :=
  ({ s with regs := { s.regs with ch := c, base := channelBase c } }).beginRead (.sweepFlt 0) (floatByteAddr (channelBase c) 0)

/-- The sweep goes on with the next die, or ends OK with all 18 values (R195, R200). -/
def State.nextDie (s : State) : State :=
  if s.regs.dev.toNat < 2 then s.startDie (s.regs.dev + 1) else s.endWith .rdall codeOk

/-- The sweep goes on with the next channel of the die, or with the next die. -/
def State.nextChannel (s : State) : State :=
  if s.regs.ch.toNat < 5 then s.startChannel (s.regs.ch + 1) else s.nextDie

/-- The channel CH is substituted by 0.0 and flagged (R197). -/
def State.substitute (s : State) : State := s.setChannel Config.zeroSubst true

/-- The six channels of a die whose select failed are substituted without any access (R198). -/
def State.substituteDie (s : State) : State :=
  [0, 1, 2, 3, 4, 5].foldl (fun t c => State.substitute { t with regs := { t.regs with ch := c } }) s

/-! The measurement sequence (R212). -/

/-- LedOff begins: the write of the saved value with the driver-enable bit cleared (R217). -/
def State.startLedOff (s : State) : State :=
  s.beginWrite .ledoffWr s.par.ledControlVaddr (ledOffValue s.par s.regs.ledsave)

/-- A failure after LedOn is recorded and LedOff begins (R249). -/
def State.recordError (f : Failure) (s : State) : State :=
  (State.startLedOff { s with regs := { s.regs with err := f.code } })

/-! Abandoning a handshake: the ONE place where a failure of a virtual-register operation is handled (R246 to R249). -/

/-- A failure of a virtual-register write under its context. -/
def State.failWrite (c : WCtx) (f : Failure) (s : State) : State :=
  match c with
  | .wrvr => s.endWith .wrvr f.code
  | .seldev => s.endWith .seldev f.code
  | .sweepSel => s.substituteDie.nextDie
  | .ledonWr => s.recordError f
  | .measWr => s.recordError f
  | .ledoffWr => s.endWith .meas (firstCode s.regs.err f.code)

/-- A failure of a virtual-register read under its context. -/
def State.failRead (c : RCtx) (f : Failure) (s : State) : State :=
  match c with
  | .rdvr => s.endWith .rdvr f.code
  | .flt _ => s.endWith .rdflt f.code
  | .sweepFlt _ => s.substitute.nextChannel
  | .ledonRd => s.endWith .meas f.code
  | .measRd => s.recordError f
  | .measPoll => s.recordError f

/-! Going on from a handshake that ended Ok. -/

/-- A virtual-register write ended Ok under its context (R161, R195, R213). -/
def State.doneWrite (c : WCtx) (s : State) : State :=
  match c with
  | .wrvr => s.endWith .wrvr codeOk
  | .seldev => s.endWith .seldev codeOk
  | .sweepSel => s.startChannel 0
  | .ledonWr => s.beginRead .measRd s.par.controlSetupVaddr
  | .measWr =>
    State.beginRead .measPoll s.par.controlSetupVaddr { s with regs := { s.regs with cnt2 := 0 } }
  | .ledoffWr => s.endWith .meas s.regs.err

/-- ACC takes byte `i` of the float from RX (R185, R186). -/
def State.mergeRead (i : Fin 4) (s : State) : State :=
  { s with regs := { s.regs with acc := mergeByte s.par.byteOrder i s.regs.acc s.regs.rx } }

/-- A virtual-register read ended Ok under its context, its byte in RX (R166, R186, R195, R213). -/
def State.doneRead (c : RCtx) (s : State) : State :=
  match c with
  | .rdvr => s.endWith .rdvr codeOk
  | .flt i =>
    if i = 3 then (s.mergeRead i).endWith .rdflt codeOk
    else (s.mergeRead i).beginRead (.flt (i + 1)) (floatByteAddr s.regs.base (i + 1))
  | .sweepFlt i =>
    if i = 3 then ((s.mergeRead i).setChannel (s.mergeRead i).regs.acc false).nextChannel
    else (s.mergeRead i).beginRead (.sweepFlt (i + 1)) (floatByteAddr s.regs.base (i + 1))
  | .ledonRd =>
    State.beginWrite .ledonWr s.par.ledControlVaddr (ledOnValue s.par s.regs.rx)
      { s with regs := { s.regs with ledsave := s.regs.rx, err := codeOk } }
  | .measRd =>
    State.beginWrite .measWr s.par.controlSetupVaddr (measStartValue s.par s.regs.rx)
      { s with regs := { s.regs with cs := s.regs.rx } }
  | .measPoll =>
    let t := { s with regs := { s.regs with cs := s.regs.rx, cnt2 := s.regs.cnt2 + 1 } }
    if measBusy s.par s.regs.rx then t.goto .measDly else t.startLedOff

/-- The delay of the busy poll has returned (R213, R216). -/
def State.doneMeasDelay (s : State) : State :=
  if s.regs.cnt2 = s.par.measPollMax then s.recordError .timeout
  else s.beginRead .measPoll s.par.controlSetupVaddr

/-! Reset. -/

/-- A reset of the engine: SEQ to IDLE, its registers to their reset values, no response; the sensor, the transport and
the CLIENT's waiting words are not touched (R280, R281, R282). -/
def State.engineReset (s : State) : State :=
  { s with seq := .idle, regs := Regs.reset, rsp := Rsp.reset, ret := .ok, resetReq := false, env := s.env.log .reset }

end Sys2Proof.Machine
end

