-- ==== Sys2Proof/Machine/Commands.lean ====
section
/-! DEFINITION. The meanings of the command words: acceptance (R103), refusal (R124 to R126), waiting while a command
runs (R102). What an accepted command then does, one external call a step, is Machine/Sequencer.lean. -/

namespace Sys2Proof.Machine

/-- WRVR addr, data: accepted into (WRVR, -, W_A, P_PTR) (R103, R160). -/
def execWrvr (addr : VAddr) (data : Byte) (s : State) : Out :=
  .next (s.present (cmdWord 0 addr data) fun t => (t.latchOp 0).beginWrite .wrvr addr data)

/-- RDVR addr: accepted into (RDVR, -, R_A, P_PTR) (R103, R165). -/
def execRdvr (addr : VAddr) (s : State) : Out :=
  .next (s.present (cmdWord 1 addr 0) fun t => (t.latchOp 1).beginRead .rdvr addr)

/-- SELDEV id: accepted as the write of `id` to 0x4F (R103, R131, R180); id 3 is refused (R126, R182). -/
def execSeldev (id : BitVec 2) (s : State) : Out :=
  .next (s.present (cmdWord 2 0 (deviceByte id)) fun t =>
    if id = 3 then t.refuse else (t.latchOp 2).beginWrite .seldev Config.devselVaddr (deviceByte id))

/-- RDFLT base: accepted into (RDFLT, B0, R_A, P_PTR) (R103, R185); a base above 0x7C is refused (R126). -/
def execRdflt (base : VAddr) (s : State) : Out :=
  .next (s.present (cmdWord 3 base 0) fun t =>
    if base.toNat ≤ 0x7C then
      State.beginRead (.flt 0) (floatByteAddr base 0)
        { t.latchOp 3 with regs := { (t.latchOp 3).regs with base := base } }
    else t.refuse)

/-- RDALL: accepted into (RDALL, SEL(0), W_A, P_PTR), FAIL cleared (R103, R195). -/
def execRdall (s : State) : Out :=
  .next (s.present (cmdWord 4 0 0) fun t =>
    State.startDie 0 { t.latchOp 4 with regs := { (t.latchOp 4).regs with fail := 0 } })

/-- MEAS: accepted into (MEAS, LEDON_RD, R_A, P_PTR) (R103, R212). -/
def execMeas (s : State) : Out :=
  .next (s.present (cmdWord 5 0 0) fun t => (t.latchOp 5).beginRead .ledonRd t.par.ledControlVaddr)

/-- Opcode 6: refused, whatever its operand bits are (R124, R125). -/
def execReserved6 (rest : BitVec 15) (s : State) : Out := .next (s.present (6#3 ++ rest : BitVec 18) State.refuse)

/-- Opcode 7: refused, whatever its operand bits are (R124, R125). -/
def execReserved7 (rest : BitVec 15) (s : State) : Out := .next (s.present (7#3 ++ rest : BitVec 18) State.refuse)

end Sys2Proof.Machine
end

