-- ==== Sys2Proof/Machine/Bus.lean ====
section
/-! DEFINITION. The meanings of the bus frames (R113) and of the bytes on the wire (R110 to R112). -/

namespace Sys2Proof.Machine

/-- The pointer frame of STATUS: `transmit(0x49, [STATUS_REG])` (R113, R140). -/
def State.callPtrStatus (s : State) : Run := s.xferTx [s.par.statusReg]

/-- The pointer frame of READ: `transmit(0x49, [READ_REG])` (R113, R142). -/
def State.callPtrRead (s : State) : Run := s.xferTx [s.par.readReg]

/-- The frame that hands `b` to WRITE: `transmit(0x49, [WRITE_REG, b])` (R113, R141). -/
def State.callWrWrite (b : Byte) (s : State) : Run := s.xferTx [s.par.writeReg, b]

/-- The receive of one byte: `receive(0x49, 1)` (R113, R114). -/
def State.callGet1 (s : State) : Run := s.xferRx 1

/-- PTR_STATUS (R113). -/
def execPtrStatus (s : State) : Out := s.callPtrStatus.finish

/-- PTR_READ (R113). -/
def execPtrRead (s : State) : Out := s.callPtrRead.finish

/-- WR_WRITE(b) (R113). -/
def execWrWrite (b : Byte) (s : State) : Out := (s.callWrWrite b).finish

/-- GET1 (R113): the byte received is the result. -/
def execGet1 (s : State) : Out := s.callGet1.finish

/-- VWRA: the write command byte is sent, step (b) of a write (R110, R115, R160). -/
def execVwra (a : VAddr) (s : State) : Out := (s.callWrWrite (vwraByte a)).finish

/-- VRDA: the read command byte is sent, step (b) of a read (R110, R116, R165). -/
def execVrda (a : VAddr) (s : State) : Out := (s.callWrWrite (vrdaByte a)).finish

/-- VDATA: the data byte is sent as it is, step (d) of a write (R111, R160). -/
def execVdata (d : Byte) (s : State) : Out := (s.callWrWrite d).finish

/-- STATUS: the byte received by a read of STATUS goes to ST, all eight bits, and is the result (R112, R140). -/
def execStatus (b : Byte) (s : State) : Out := .next ((s.latchStatus b).withRet (.byte b))

end Sys2Proof.Machine
end

