-- ==== Sys2Proof/Machine/Micro.lean ====
section
/-! DEFINITION. The seven micro-operations (R123, R140 to R149), each run to its end as its pseudocode says. -/

namespace Sys2Proof.Machine

/-- The pseudocode of RDSTATUS (R140): no receive after a failed transmit. -/
def State.rdstatus (s : State) : Run :=
  s.callPtrStatus.tryThen fun _ t =>
    t.callGet1.tryThen fun r u =>
      match r with
      | .byte b => .ok (.byte b, u.latchStatus b)
      | .ok | .timeout | .busError => .ok (r, u)

/-- The pseudocode of RDREAD (R142). -/
def State.rdread (s : State) : Run :=
  s.callPtrRead.tryThen fun _ t =>
    t.callGet1.tryThen fun r u =>
      match r with
      | .byte b => .ok (.byte b, u.latchRead b)
      | .ok | .timeout | .busError => .ok (r, u)

/-- The loop of POLL with `left` attempts still allowed (R147): a STATUS read, the count, the test, and after a failed
attempt the delay. -/
def pollLoop (mask want : Byte) (t : Interval) : Nat → State → Run
  | 0, s => .ok (.timeout, s)
  | left + 1, s =>
    s.rdstatus.tryThen fun _ u =>
      if pollHit mask want u.countAttempt.regs.st then .ok (.ok, u.countAttempt)
      else pollLoop mask want t left (u.countAttempt.doDelay t)

/-- POLL(mask, want, max, t) (R147). -/
def State.poll (mask want : Byte) (max : Count) (t : Interval) (s : State) : Run :=
  pollLoop mask want t max.toNat s.clearCount

/-- WAITTX and WAITRX as the two instances of POLL (R148, R149). -/
def State.waitReady (k : PollKind) (s : State) : Run := s.poll k.mask k.want (k.max s.par) k.interval

/-- POLL as an instruction; a bound of 0 is no operand of it (R147). -/
def State.finishPoll (mask want : Byte) (max : Count) (t : Interval) (s : State) : Out :=
  if max = 0 then .refused .pollBoundZero else (s.poll mask want max t).finish

/-- RDSTATUS (R140). -/
def execRdstatus (s : State) : Out := s.rdstatus.finish

/-- WRWRITE(b) (R141). -/
def execWrwrite (b : Byte) (s : State) : Out := (s.callWrWrite b).finish

/-- RDREAD (R142). -/
def execRdread (s : State) : Out := s.rdread.finish

/-- DELAY(t) (R146). -/
def execDelay (t : Interval) (s : State) : Out := .next ((s.doDelay t).withRet .ok)

/-- POLL(mask, want, max, t) (R147). -/
def execPoll (mask want : Byte) (max : Count) (t : Interval) (s : State) : Out := s.finishPoll mask want max t

/-- WAITTX = POLL(0x02, 0x00, TX_POLL_MAX, TX_POLL_INTERVAL) (R148). -/
def execWaittx (s : State) : Out := s.finishPoll PollKind.tx.mask PollKind.tx.want (PollKind.tx.max s.par) PollKind.tx.interval

/-- WAITRX = POLL(0x01, 0x01, RX_POLL_MAX, RX_POLL_INTERVAL) (R149). -/
def execWaitrx (s : State) : Out := s.finishPoll PollKind.rx.mask PollKind.rx.want (PollKind.rx.max s.par) PollKind.rx.interval

end Sys2Proof.Machine
end

