-- ==== Sys2Proof/Machine/Sequencer.lean ====
section
/-! DEFINITION. The sequencer (R21 to R23): which call the engine makes next, and where SEQ goes on the call's answer, by
the small-step tables R150, R161, R166, R186 and R213. -/

namespace Sys2Proof.Machine

/-! Which call comes next. -/

/-- The call at a poll position (R150). -/
def PollPos.issue (k : PollKind) : PollPos → Instr
  | .ptr => .ptrStatus
  | .get => .get1
  | .dly => .delay k.interval

/-- The call at a step of a write (R161). -/
def WStep.issue (r : Regs) : WStep → Instr
  | .wA p => p.issue .tx
  | .wB => .vwra r.a
  | .wC p => p.issue .tx
  | .wD => .vdata r.d
  | .wE p => p.issue .tx

/-- The call at a step of a read (R166). -/
def RStep.issue (r : Regs) : RStep → Instr
  | .rA p => p.issue .tx
  | .rB => .vrda r.a
  | .rC p => p.issue .tx
  | .rD p => p.issue .rx
  | .rE .ptr => .ptrRead
  | .rE .get => .get1

/-- The call the engine makes next; none when it is idle or its command's last call has returned (R22). -/
def State.issue (s : State) : Option Instr :=
  match s.seq with
  | .idle => none
  | .ending _ _ => none
  | .writing _ w => some (w.issue s.regs)
  | .reading _ r => some (r.issue s.regs)
  | .measDly => some (.delay .measPoll)

/-! Where SEQ goes on the answer. -/

/-- What a poll position hands on: another position of the same poll, or an exit (R150). -/
inductive PollMove where
  | stay (p : PollPos)
  | hit
  | fail (f : Failure)
  deriving DecidableEq, Repr

/-- One row of R150: the answer is in `ret`. -/
def State.pollMove (k : PollKind) (p : PollPos) (s : State) : PollMove × State :=
  match p, s.ret with
  | .ptr, .ok => (.stay .get, s)
  | .ptr, _ => (.fail .busError, s)
  | .get, .byte b =>
    if pollHit k.mask k.want b then (.hit, (s.latchStatus b).countAttempt)
    else (.stay .dly, (s.latchStatus b).countAttempt)
  | .get, _ => (.fail .busError, s)
  | .dly, _ => if s.regs.cnt = k.max s.par then (.fail .timeout, s) else (.stay .ptr, s)

/-- The rows of R161: from a step of a write on its answer. -/
def State.advanceWrite (c : WCtx) (w : WStep) (s : State) : State :=
  match w with
  | .wA p =>
    match s.pollMove .tx p with
    | (.stay q, t) => t.goto (.writing c (.wA q))
    | (.hit, t) => t.goto (.writing c .wB)
    | (.fail f, t) => t.failWrite c f
  | .wB =>
    match s.ret with
    | .ok => s.clearCount.goto (.writing c (.wC .ptr))
    | _ => s.failWrite c .busError
  | .wC p =>
    match s.pollMove .tx p with
    | (.stay q, t) => t.goto (.writing c (.wC q))
    | (.hit, t) => t.goto (.writing c .wD)
    | (.fail f, t) => t.failWrite c f
  | .wD =>
    match s.ret with
    | .ok => s.clearCount.goto (.writing c (.wE .ptr))
    | _ => s.failWrite c .busError
  | .wE p =>
    match s.pollMove .tx p with
    | (.stay q, t) => t.goto (.writing c (.wE q))
    | (.hit, t) => t.doneWrite c
    | (.fail f, t) => t.failWrite c f

/-- The rows of R166: from a step of a read on its answer. -/
def State.advanceRead (c : RCtx) (r : RStep) (s : State) : State :=
  match r with
  | .rA p =>
    match s.pollMove .tx p with
    | (.stay q, t) => t.goto (.reading c (.rA q))
    | (.hit, t) => t.goto (.reading c .rB)
    | (.fail f, t) => t.failRead c f
  | .rB =>
    match s.ret with
    | .ok => s.clearCount.goto (.reading c (.rC .ptr))
    | _ => s.failRead c .busError
  | .rC p =>
    match s.pollMove .tx p with
    | (.stay q, t) => t.goto (.reading c (.rC q))
    | (.hit, t) => t.clearCount.goto (.reading c (.rD .ptr))
    | (.fail f, t) => t.failRead c f
  | .rD p =>
    match s.pollMove .rx p with
    | (.stay q, t) => t.goto (.reading c (.rD q))
    | (.hit, t) => t.goto (.reading c (.rE .ptr))
    | (.fail f, t) => t.failRead c f
  | .rE .ptr =>
    match s.ret with
    | .ok => s.goto (.reading c (.rE .get))
    | _ => s.failRead c .busError
  | .rE .get =>
    match s.ret with
    | .byte b => (s.latchRead b).doneRead c
    | _ => s.failRead c .busError

/-- The sequencer takes the answer of the call just made (R23 (b) to (d)); the result register is empty again after it. -/
def State.advance (s : State) : State :=
  State.withRet .ok
    (match s.seq with
    | .idle | .ending _ _ => s
    | .writing c w => s.advanceWrite c w
    | .reading c r => s.advanceRead c r
    | .measDly => s.doneMeasDelay)

end Sys2Proof.Machine
end

