-- ==== Sys2Proof/Machine/Pseudocode.lean ====
section
/-! DEFINITION. The spec's pseudocode of the six commands (R160, R165, R180, R185, R195, R212), each run to its end in one
piece. The machine steps call by call; these are what its steps amount to, and statements compare the two. -/

namespace Sys2Proof.Machine

/-- WRVR(addr, data) (R160). -/
def State.pseudoWrvr (addr : VAddr) (data : Byte) (s : State) : Run :=
  ((s.loadWrite addr data).waitReady .tx).tryThen fun _ s =>
  (s.callWrWrite (vwraByte s.regs.a)).tryThen fun _ s =>
  (s.waitReady .tx).tryThen fun _ s =>
  (s.callWrWrite s.regs.d).tryThen fun _ s =>
  s.waitReady .tx

/-- RDVR(addr) (R165): the byte is the result and stands in RX. -/
def State.pseudoRdvr (addr : VAddr) (s : State) : Run :=
  ((s.loadRead addr).waitReady .tx).tryThen fun _ s =>
  (s.callWrWrite (vrdaByte s.regs.a)).tryThen fun _ s =>
  (s.waitReady .tx).tryThen fun _ s =>
  (s.waitReady .rx).tryThen fun _ s =>
  s.rdread

/-- SELDEV(id) (R180). -/
def State.pseudoSeldev (id : BitVec 2) (s : State) : Run := s.pseudoWrvr Config.devselVaddr (deviceByte id)

/-- RDFLT(base) (R185): the word is in ACC when the result is Ok. -/
def State.pseudoRdflt (base : VAddr) (s : State) : Run :=
  (State.pseudoRdvr (floatByteAddr base 0) { s with regs := { s.regs with base := base } }).tryThen fun _ s =>
  ((s.mergeRead 0).pseudoRdvr (floatByteAddr s.regs.base 1)).tryThen fun _ s =>
  ((s.mergeRead 1).pseudoRdvr (floatByteAddr s.regs.base 2)).tryThen fun _ s =>
  ((s.mergeRead 2).pseudoRdvr (floatByteAddr s.regs.base 3)).tryThen fun _ s =>
  .ok (.ok, s.mergeRead 3)

/-- The inner loop of RDALL over the channels of the die DEV; `sel` is the result of its select (R195). -/
def pseudoChannels (sel : Ret) : List (BitVec 3) → State → Except Fault State
  | [], s => .ok s
  | c :: rest, s =>
    let s := { s with regs := { s.regs with ch := c } }
    if sel.failure.isSome then pseudoChannels sel rest s.substitute
    else
      match s.pseudoRdflt (channelBase c) with
      | .error f => .error f
      | .ok (r, t) =>
        if r.failure.isSome then pseudoChannels sel rest t.substitute
        else pseudoChannels sel rest (t.setChannel t.regs.acc false)

/-- The outer loop of RDALL over the dies (R195). -/
def pseudoDies : List (BitVec 2) → State → Except Fault State
  | [], s => .ok s
  | d :: rest, s =>
    match State.pseudoSeldev d { s with regs := { s.regs with dev := d } } with
    | .error f => .error f
    | .ok (r, t) =>
      match pseudoChannels r [0, 1, 2, 3, 4, 5] t with
      | .error f => .error f
      | .ok u => pseudoDies rest u

/-- RDALL (R195). -/
def State.pseudoRdall (s : State) : Except Fault State :=
  pseudoDies [0, 1, 2] { s with regs := { s.regs with fail := 0 } }

/-- The busy poll of MEAS with `left` attempts still allowed (R212, R216). -/
def pseudoBusyPoll : Nat → State → Run
  | 0, s => .ok (.timeout, s)
  | left + 1, s =>
    (s.pseudoRdvr s.par.controlSetupVaddr).tryThen fun _ s =>
      let s := { s with regs := { s.regs with cs := s.regs.rx, cnt2 := s.regs.cnt2 + 1 } }
      if measBusy s.par s.regs.cs then pseudoBusyPoll left (s.doDelay .measPoll) else .ok (.ok, s)

/-- LEDON_WR and Measuring, from the write that turns the LED on to the outcome that LedOff follows (R212). -/
def State.pseudoMeasuring (s : State) : Run :=
  (s.pseudoWrvr s.par.ledControlVaddr (ledOnValue s.par s.regs.ledsave)).tryThen fun _ s =>
  (s.pseudoRdvr s.par.controlSetupVaddr).tryThen fun _ s =>
  let s := { s with regs := { s.regs with cs := s.regs.rx } }
  (s.pseudoWrvr s.par.controlSetupVaddr (measStartValue s.par s.regs.cs)).tryThen fun _ s =>
  pseudoBusyPoll s.par.measPollMax.toNat { s with regs := { s.regs with cnt2 := 0 } }

/-- The response code of a result (R105). -/
def Ret.code (r : Ret) : BitVec 2 :=
  match r.failure with
  | some f => f.code
  | none => codeOk

/-- LedOff, whatever came before, and the response code of MEAS (R212, R217, R218). -/
def State.pseudoLedOff (s : State) : Except Fault State :=
  match s.pseudoWrvr s.par.ledControlVaddr (ledOffValue s.par s.regs.ledsave) with
  | .error f => .error f
  | .ok (r, t) => .ok (t.respond (firstCode t.regs.err r.code) .nothing)

/-- MEAS (R212). -/
def State.pseudoMeas (s : State) : Except Fault State :=
  match s.pseudoRdvr s.par.ledControlVaddr with
  | .error f => .error f
  | .ok (r, t) =>
    if r.failure.isSome then .ok (t.respond r.code .nothing)
    else
      match State.pseudoMeasuring { t with regs := { t.regs with ledsave := t.regs.rx, err := codeOk } } with
      | .error f => .error f
      | .ok (r, u) =>
        State.pseudoLedOff (if r.failure.isSome then { u with regs := { u.regs with err := r.code } } else u)

/-- The end of a command that answers with a status alone (R106). -/
def Run.respond (x : Run) : Except Fault State :=
  match x with
  | .error f => .error f
  | .ok (r, s) => .ok (s.respond r.code .nothing)

/-- A command from acceptance to response, run in one piece from an idle state (R103, R104, R106); none for an
instruction that is no command. -/
def State.pseudoCommand (i : Instr) (s : State) : Option (Except Fault State) :=
  match i with
  | .wrvr a d => some ((s.latchOp 0).pseudoWrvr a d).respond
  | .rdvr a => some
    (match (s.latchOp 1).pseudoRdvr a with
    | .error f => .error f
    | .ok (r, t) => .ok (if r.failure.isSome then t.respond r.code .nothing else t.respond codeOk (.byte t.regs.rx)))
  | .seldev id => some (if id = 3 then .ok s.refuse else ((s.latchOp 2).pseudoSeldev id).respond)
  | .rdflt base => some
    (if base.toNat ≤ 0x7C then
      match (s.latchOp 3).pseudoRdflt base with
      | .error f => .error f
      | .ok (r, t) => .ok (if r.failure.isSome then t.respond r.code .nothing else t.respond codeOk (.word t.regs.acc))
    else .ok s.refuse)
  | .rdall => some
    (match (s.latchOp 4).pseudoRdall with
    | .error f => .error f
    | .ok t => .ok (t.respond codeOk (.all t.regs.res t.regs.fail)))
  | .meas => some (s.latchOp 5).pseudoMeas
  | .reserved6 _ => some (.ok s.refuse)
  | .reserved7 _ => some (.ok s.refuse)
  | .vwra _ | .vrda _ | .vdata _ | .status _ | .ptrStatus | .ptrRead | .wrWrite _ | .get1
  | .rdstatus | .wrwrite _ | .rdread | .delay _ | .poll _ _ _ _ | .waittx | .waitrx => none

end Sys2Proof.Machine
end

