-- ==== Sys2Proof/Machine/Dispatch.lean ====
section
/-! DEFINITION. One arm for each instruction: the meaning of every row of the opcode table. -/

namespace Sys2Proof.Machine

def exec (i : Instr) (s : State) : Host.Outcome State Fault Refusal :=
  match i with
  | .wrvr addr data => Sys2Proof.Machine.execWrvr addr data s
  | .rdvr addr => Sys2Proof.Machine.execRdvr addr s
  | .seldev id => Sys2Proof.Machine.execSeldev id s
  | .rdflt base => Sys2Proof.Machine.execRdflt base s
  | .rdall => Sys2Proof.Machine.execRdall s
  | .meas => Sys2Proof.Machine.execMeas s
  | .reserved6 rest => Sys2Proof.Machine.execReserved6 rest s
  | .reserved7 rest => Sys2Proof.Machine.execReserved7 rest s
  | .vwra addr => Sys2Proof.Machine.execVwra addr s
  | .vrda addr => Sys2Proof.Machine.execVrda addr s
  | .vdata data => Sys2Proof.Machine.execVdata data s
  | .status b => Sys2Proof.Machine.execStatus b s
  | .ptrStatus => Sys2Proof.Machine.execPtrStatus s
  | .ptrRead => Sys2Proof.Machine.execPtrRead s
  | .wrWrite b => Sys2Proof.Machine.execWrWrite b s
  | .get1 => Sys2Proof.Machine.execGet1 s
  | .rdstatus => Sys2Proof.Machine.execRdstatus s
  | .wrwrite b => Sys2Proof.Machine.execWrwrite b s
  | .rdread => Sys2Proof.Machine.execRdread s
  | .delay t => Sys2Proof.Machine.execDelay t s
  | .poll mask want max t => Sys2Proof.Machine.execPoll mask want max t s
  | .waittx => Sys2Proof.Machine.execWaittx s
  | .waitrx => Sys2Proof.Machine.execWaitrx s

end Sys2Proof.Machine
end

