-- ==== Sys2Proof/Machine/Fetch.lean ====
section
/-! DEFINITION. What a step takes up: a call of the running command, or the word at the command port (R7, R102, R103). -/

namespace Sys2Proof.Machine

/-- The engine runs the command's next call and takes its answer. -/
def State.runCall (i : Instr) (s : State) : Out :=
  Out.andThen (exec i s) fun t => .next t.advance

/-- The engine takes the word at the port: it runs the instruction the word spells, and refuses a word that spells none
(R103, R124 to R126). -/
def State.runWord (w : CmdWord) (rest : List CmdWord) (s : State) : Out :=
  match decodeCmd w with
  | .ok i => exec i (s.takeWord w rest)
  | .error _ => .next (s.takeWord w rest).refuse

/-- What a step does that makes no call: the completion of the command that has ended, or the word at the port of an idle
engine, or nothing (R7, R23 (d), R102). -/
def State.runPort (s : State) : Out :=
  match s.seq with
  | .ending c code => .next (s.complete c code)
  | .idle | .writing _ _ | .reading _ _ | .measDly =>
    match s.cmds with
    | [] => .next s
    | w :: rest => s.runWord w rest

/-- The state in which the next step runs the instruction that `decodeTableWord nbits w` reads: a command word stands at
the port of an idle engine; a wire byte or a WRITE frame is the one a handshake sends next. -/
def State.placeWord (s : State) (nbits w : Nat) : State :=
  let idle := { s with resetReq := false }
  if nbits ≤ 16 then
    match decodeTableWord nbits w with
    | some (.vwra a) => { idle with seq := .writing .wrvr .wB, regs := { idle.regs with a := a } }
    | some (.vrda a) => { idle with seq := .reading .rdvr .rB, regs := { idle.regs with a := a } }
    | some (.wrWrite b) => { idle with seq := .writing .wrvr .wD, regs := { idle.regs with d := b } }
    | _ => idle
  else { idle with seq := .idle, cmds := BitVec.ofNat 18 w :: s.cmds }

end Sys2Proof.Machine
end

