-- ==== Sys2Proof/Machine/Step.lean ====
section
/-! DEFINITION. One step of the machine at transaction level (R7): a reset the environment has applied; one external call
of the running command; its completion; the acceptance or refusal of the word at the port; or, idle with no word, nothing. -/

namespace Sys2Proof.Machine

def step (s : State) : Host.Outcome State Fault Refusal :=
  if s.resetReq then .next s.engineReset
  else
    match s.issue with
    | some i => s.runCall i
    | none => s.runPort

/-- The instruction of a row's bits placed where the next step takes it up; log entry 13. -/
def State.withFetchWord (s : State) (nbits w : Nat) : State := s.placeWord nbits w

end Sys2Proof.Machine
end

