-- ==== Sys2Proof/Safety.lean ====
section
/-! DEFINITION. What a safe run is, in the terms the statements use: the invariant of the engine's registers, the
discipline of the trace (R77, R171), the frames of the operations, the cost of a run, and agreement between two runs. -/

namespace Sys2Proof.Machine

/-! Frames. -/

/-- Nothing of the engine differs but the result just handed on: parameters, SEQ, every register, the response, the
command port and the reset line are the same. -/
def SameEngine (s t : State) : Prop :=
  t.par = s.par ∧ t.seq = s.seq ∧ t.regs = s.regs ∧ t.rsp = s.rsp ∧ t.cmds = s.cmds ∧ t.resetReq = s.resetReq

/-- As `SameEngine`, but ST and CNT may differ: what a poll may write (R147). -/
def SameButPoll (s t : State) : Prop :=
  t.par = s.par ∧ t.seq = s.seq ∧ t.rsp = s.rsp ∧ t.cmds = s.cmds ∧ t.resetReq = s.resetReq ∧
  t.regs = { s.regs with st := t.regs.st, cnt := t.regs.cnt }

/-- Every virtual register of every die reads the same. -/
def SameVReg (s t : State) : Prop :=
  ∀ a, Memory.read t.env.sensor.vreg a = Memory.read s.env.sensor.vreg a

/-! Costs (R152, R164, R170). -/

def Event.isCall : Event → Bool
  | .transmit _ _ _ _ | .receive _ _ _ _ => true
  | .delay _ _ | .accept _ | .done _ | .reset => false

def Event.isDelay : Event → Bool
  | .delay _ _ => true
  | .transmit _ _ _ _ | .receive _ _ _ _ | .accept _ | .done _ | .reset => false

/-- The response of a command is produced. -/
def Event.isDone : Event → Bool
  | .done _ => true
  | .transmit _ _ _ _ | .receive _ _ _ _ | .delay _ _ | .accept _ | .reset => false

/-- The word at the port is taken. -/
def Event.isAccept : Event → Bool
  | .accept _ => true
  | .transmit _ _ _ _ | .receive _ _ _ _ | .delay _ _ | .done _ | .reset => false

/-- How many transport calls and how many delays a piece of the trace holds. -/
def callsIn (evs : List Event) : Nat := evs.countP Event.isCall
def delaysIn (evs : List Event) : Nat := evs.countP Event.isDelay

/-- The trace grew by the events `evs`. -/
def Grew (s t : State) (evs : List Event) : Prop := t.env.trace = evs ++ s.env.trace

/-! The discipline of the trace. -/

/-- The calls the engine may make: to address 0x49, with XFER_TIMEOUT, one of the four frames of R113. -/
def Event.legal (p : Params) : Event → Bool
  | .transmit dev bytes timeout _ =>
    decide (dev = Config.devAddr7) && decide (timeout = p.xferTimeout) &&
      (match bytes with
      | [r] => decide (r = p.statusReg) || decide (r = p.readReg)
      | [r, _] => decide (r = p.writeReg)
      | _ => false)
  | .receive dev len timeout _ => decide (dev = Config.devAddr7) && decide (timeout = p.xferTimeout) && decide (len = 1)
  | .delay t d => decide (d = p.duration t)
  | .accept _ | .done _ | .reset => true

/-- The newest two events are a read of STATUS that returned a byte `good` accepts. -/
def statusRead (p : Params) (good : Byte → Bool) : List Event → Bool
  | .receive _ _ _ (.byte b) :: .transmit _ [r] _ .ok :: _ => decide (r = p.statusReg) && good b
  | _ => false

/-- The newest event is a pointer frame of the register `r` that returned Ok. -/
def pointedAt (r : Byte) : List Event → Bool
  | .transmit _ [q] _ .ok :: _ => decide (q = r)
  | _ => false

/-- The event hands a byte to WRITE. -/
def Event.isWrite (p : Params) : Event → Bool
  | .transmit _ [r, _] _ _ => decide (r = p.writeReg)
  | _ => false

/-- The event begins an access to READ. -/
def Event.isReadAccess (p : Params) : Event → Bool
  | .transmit _ [r] _ _ => decide (r = p.readReg)
  | _ => false

/-- Every byte handed to WRITE comes right after a STATUS read with TX_VALID = 0, and every access to READ right after
one with RX_VALID = 1 (R77 (a), (b); R171 (P1), (P2)). The trace is newest first. -/
def polledTrace (p : Params) : List Event → Bool
  | [] => true
  | e :: rest =>
    (!e.isWrite p || statusRead p (fun b => !txValid b) rest) &&
    (!e.isReadAccess p || statusRead p rxValid rest) && polledTrace p rest

/-- What the newest events must be at each place of a handshake, and after a write that ended Ok (R77 (c)). -/
def Seq.traceReady (p : Params) (tr : List Event) : Seq → Bool
  | .idle | .measDly => true
  | .ending .wrvr k | .ending .seldev k | .ending .meas k => decide (k ≠ codeOk) || statusRead p (fun b => !txValid b) tr
  | .ending .rdvr _ | .ending .rdflt _ | .ending .rdall _ => true
  | .writing _ (.wA .get) | .writing _ (.wC .get) | .writing _ (.wE .get) => pointedAt p.statusReg tr
  | .reading _ (.rA .get) | .reading _ (.rC .get) | .reading _ (.rD .get) => pointedAt p.statusReg tr
  | .writing _ .wB | .writing _ .wD | .reading _ .rB => statusRead p (fun b => !txValid b) tr
  | .reading _ (.rE .ptr) => statusRead p rxValid tr
  | .reading _ (.rE .get) => pointedAt p.readReg tr
  | .writing _ (.wA _) | .writing _ (.wC _) | .writing _ (.wE _) => true
  | .reading _ (.rA _) | .reading _ (.rC _) | .reading _ (.rD _) => true

/-- The discipline of a state: legal calls only, every poll made, and the sequencer where its trace allows it to be. -/
structure Disciplined (s : State) : Prop where
  wf : s.par.wf = true
  legal : ∀ e ∈ s.env.trace, e.legal s.par = true
  polled : polledTrace s.par s.env.trace = true
  ready : s.seq.traceReady s.par s.env.trace = true

/-! The invariant of the registers. -/

/-- A poll's counter is below its bound while attempts are left, and between 1 and the bound in a delay (R25, R150). -/
def PollPos.countOk (max cnt : Count) : PollPos → Bool
  | .ptr | .get => decide (cnt.toNat < max.toNat)
  | .dly => decide (1 ≤ cnt.toNat) && decide (cnt.toNat ≤ max.toNat)

def WStep.countOk (p : Params) (r : Regs) : WStep → Bool
  | .wA q | .wC q | .wE q => q.countOk p.txPollMax r.cnt
  | .wB | .wD => true

def RStep.countOk (p : Params) (r : Regs) : RStep → Bool
  | .rA q | .rC q => q.countOk p.txPollMax r.cnt
  | .rD q => q.countOk p.rxPollMax r.cnt
  | .rB | .rE _ => true

/-- What A and D hold in a write, by its context (R103, R120, R121). -/
def WCtx.operandsOk (p : Params) (r : Regs) : WCtx → Bool
  | .wrvr => true
  | .seldev => decide (r.a = Config.devselVaddr) && decide (r.d.toNat ≤ 2)
  | .sweepSel => decide (r.a = Config.devselVaddr) && decide (r.d = deviceByte r.dev) && decide (r.dev.toNat ≤ 2)
  | .ledonWr =>
    decide (r.a = p.ledControlVaddr) && decide (r.d = ledOnValue p r.ledsave) && decide (r.err = codeOk)
  | .measWr => decide (r.a = p.controlSetupVaddr) && decide (r.d = measStartValue p r.cs) && decide (r.err = codeOk)
  | .ledoffWr =>
    decide (r.a = p.ledControlVaddr) && decide (r.d = ledOffValue p r.ledsave) && decide (r.err ≠ codeRefused)

/-- What A, BASE and the sweep's registers hold in a read, by its context (R117, R118). -/
def RCtx.operandsOk (p : Params) (r : Regs) : RCtx → Bool
  | .rdvr => true
  | .flt i => decide (r.base.toNat ≤ 0x7C) && decide (r.a = floatByteAddr r.base i)
  | .sweepFlt i =>
    decide (r.dev.toNat ≤ 2) && decide (r.ch.toNat ≤ 5) && decide (r.base = channelBase r.ch) &&
    decide (r.a = floatByteAddr r.base i)
  | .ledonRd => decide (r.a = p.ledControlVaddr)
  | .measRd => decide (r.a = p.controlSetupVaddr) && decide (r.err = codeOk)
  | .measPoll =>
    decide (r.a = p.controlSetupVaddr) && decide (r.err = codeOk) && decide (r.cnt2.toNat < p.measPollMax.toNat)

def Seq.regsOk (p : Params) (r : Regs) : Seq → Bool
  | .idle => true
  | .ending .rdall k => decide (k = codeOk)
  | .ending .wrvr k | .ending .rdvr k | .ending .seldev k | .ending .rdflt k | .ending .meas k => decide (k ≠ codeRefused)
  | .writing c w => c.operandsOk p r && w.countOk p r
  | .reading c w => c.operandsOk p r && w.countOk p r
  | .measDly => decide (r.err = codeOk) && decide (1 ≤ r.cnt2.toNat) && decide (r.cnt2.toNat ≤ p.measPollMax.toNat)

/-- The invariant: legal parameters, OP the running command's opcode, every register what SEQ needs it to be, the
sensor's register file in canonical form. -/
structure EngineInv (s : State) : Prop where
  wf : s.par.wf = true
  opcode : s.seq ≠ .idle → s.regs.op = s.seq.top.opcode
  regsOk : s.seq.regsOk s.par s.regs = true
  vreg : Memory.wf s.env.sensor.vreg = true

/-! What the coming step meets. -/

/-- The poll the sequencer is in, and its position (R150). -/
def Seq.pollAt : Seq → Option (PollKind × PollPos)
  | .writing _ (.wA p) | .writing _ (.wC p) | .writing _ (.wE p) => some (.tx, p)
  | .reading _ (.rA p) | .reading _ (.rC p) => some (.tx, p)
  | .reading _ (.rD p) => some (.rx, p)
  | .idle | .measDly | .ending _ _ | .writing _ .wB | .writing _ .wD | .reading _ .rB | .reading _ (.rE _) => none

/-- The same poll at another position; a place outside a poll stays. -/
def Seq.movePoll (q : PollPos) : Seq → Seq
  | .writing c (.wA _) => .writing c (.wA q)
  | .writing c (.wC _) => .writing c (.wC q)
  | .writing c (.wE _) => .writing c (.wE q)
  | .reading c (.rA _) => .reading c (.rA q)
  | .reading c (.rC _) => .reading c (.rC q)
  | .reading c (.rD _) => .reading c (.rD q)
  | .idle => .idle
  | .measDly => .measDly
  | .ending c k => .ending c k
  | .writing c .wB => .writing c .wB
  | .writing c .wD => .writing c .wD
  | .reading c .rB => .reading c .rB
  | .reading c (.rE p) => .reading c (.rE p)

/-- BusError from the coming `transmit` under the oracle. -/
def Env.txFailure (e : Env) : Option Failure := if e.nextTx = .busError then some .busError else none

/-- BusError from the coming `receive` under the oracle. -/
def Env.rxFailure (e : Env) : Option Failure := if e.nextRx = .busError then some .busError else none

/-- The failure the coming call of a busy engine meets under the oracle, if it meets one: BusError from a transport call
(R242), Timeout after the delay that follows the last attempt of a poll (R241). -/
def State.coming (s : State) : Option Failure :=
  match s.seq.pollAt with
  | some (_, .ptr) => s.env.txFailure
  | some (_, .get) => s.env.rxFailure
  | some (k, .dly) => if s.regs.cnt = k.max s.par then some .timeout else none
  | none =>
    match s.seq with
    | .writing _ _ => s.env.txFailure
    | .reading _ (.rE .get) => s.env.rxFailure
    | .reading _ _ => s.env.txFailure
    | .measDly => if s.regs.cnt2 = s.par.measPollMax then some .timeout else none
    | .idle | .ending _ _ => none

/-- The completion that follows a command's last call: the next step makes no call, brings SEQ to IDLE and answers `code`,
and changes no register (R23 (d), R104; a step of its own by R7, log entry 4). -/
def EndsWith (t u : State) (code : BitVec 2) : Prop :=
  step t = .next u ∧ u.seq = .idle ∧ u.rsp.status = code ∧ u.rsp.pending = true ∧ u.regs = t.regs ∧ Grew t u [.done code]

/-- The words R124 and R126 refuse, by the fields of R101. -/
def refusedWord (w : CmdWord) : Prop :=
  cmdOp w = 6 ∨ cmdOp w = 7 ∨
  ((cmdOp w = 1 ∨ cmdOp w = 3) ∧ cmdData w ≠ 0) ∨
  (cmdOp w = 2 ∧ (cmdAddr w ≠ 0 ∨ (cmdData w).extractLsb' 2 6 ≠ 0)) ∨
  ((cmdOp w = 4 ∨ cmdOp w = 5) ∧ (cmdAddr w ≠ 0 ∨ cmdData w ≠ 0)) ∨
  (cmdOp w = 3 ∧ (cmdAddr w).toNat > 0x7C) ∨ (cmdOp w = 2 ∧ cmdData w = 3)

/-- The environment after a transport call under the oracle, but for the answer lists: the sensor may have done anything,
one call more is counted, the event is on the trace. -/
def Env.called (ev : Event) (e : Env) : Env :=
  { e with sensor := Sensor.unknown e.fresh, calls := e.calls + 1, fresh := e.fresh + 1, trace := ev :: e.trace }

/-! Runs and agreement. -/

/-- The machine's run of `n` steps. -/
def runs (n : Nat) (s : State) : Out := Host.Core.run Sys2Proof.core n s

/-- What an outcome of the pseudocode is as an outcome of a run. -/
def ofPseudo (x : Except Fault State) : Out :=
  match x with
  | .error f => .fault f
  | .ok t => .next t

/-- The most steps a command takes after its acceptance (R164, R170, R190, R202, R221): three steps for each attempt of a
poll, one for each other call, and one for the completion of an accepted command (log entry 4). -/
def writeSteps (p : Params) : Nat := 9 * p.txPollMax.toNat + 2
def readSteps (p : Params) : Nat := 6 * p.txPollMax.toNat + 3 * p.rxPollMax.toNat + 3

def stepBound (p : Params) : Instr → Nat
  | .wrvr _ _ | .seldev _ => writeSteps p + 1
  | .rdvr _ => readSteps p + 1
  | .rdflt _ => 4 * readSteps p + 1
  | .rdall => 3 * writeSteps p + 72 * readSteps p + 1
  | .meas => (2 + p.measPollMax.toNat) * readSteps p + 3 * writeSteps p + p.measPollMax.toNat + 1
  | .reserved6 _ | .reserved7 _ => 0
  | .vwra _ | .vrda _ | .vdata _ | .status _ | .ptrStatus | .ptrRead | .wrWrite _ | .get1
  | .rdstatus | .wrwrite _ | .rdread | .delay _ | .poll _ _ _ _ | .waittx | .waitrx => 0

/-- Two idle states that differ in nothing but the engine's registers, the response registers and the result register. -/
def SameOutside (s t : State) : Prop :=
  t.par = s.par ∧ t.env = s.env ∧ t.cmds = s.cmds ∧ t.resetReq = s.resetReq ∧ s.seq = .idle ∧ t.seq = .idle

end Sys2Proof.Machine
end

