-- ==== Sys2Proof/Certificates/Slice0/Obligations.lean ====
section
/-! DEFINITION. The statements for the provers. Each docstring names the rules of spec/ it rests on. The trace is newest
first; `Grew s t evs` says that it grew by `evs`. -/

open Sys2Proof Sys2Proof.Machine

/-! Encodings. -/

/-- Decoding the code of a well-formed instruction gives the instruction back, every operand at every value (R101, R110 to
R116, R122). -/
def Obligations.EncodeThenDecode : Prop :=
  ∀ (p : Params) (i : Instr) (c : Code), p.wf = true → i.wf = true → encode p i = some c → decode p c = .ok i

/-- What a code decodes to is well formed and encodes to that very code: no bit is dropped, no code has two readings. -/
def Obligations.DecodeThenEncode : Prop :=
  ∀ (p : Params) (i : Instr) (c : Code), decode p c = .ok i → i.wf = true ∧ encode p i = some c

/-- The rows of the command words by match and mask over the 18 bits, with the two value checks (R122). -/
def Obligations.CommandRowsMatchMask : Prop :=
  ∀ w : CmdWord,
    ((∃ a d, decodeCmd w = .ok (.wrvr a d)) ↔ w &&& 0x38000 = 0x00000) ∧
    ((∃ a, decodeCmd w = .ok (.rdvr a)) ↔ w &&& 0x380FF = 0x08000) ∧
    ((∃ id, decodeCmd w = .ok (.seldev id)) ↔ w &&& 0x3FFFC = 0x10000 ∧ cmdData w ≠ 3) ∧
    ((∃ b, decodeCmd w = .ok (.rdflt b)) ↔ w &&& 0x380FF = 0x18000 ∧ (cmdAddr w).toNat ≤ 0x7C) ∧
    (decodeCmd w = .ok .rdall ↔ w &&& 0x3FFFF = 0x20000) ∧
    (decodeCmd w = .ok .meas ↔ w &&& 0x3FFFF = 0x28000) ∧
    ((∃ r, decodeCmd w = .ok (.reserved6 r)) ↔ w &&& 0x38000 = 0x30000) ∧
    ((∃ r, decodeCmd w = .ok (.reserved7 r)) ↔ w &&& 0x38000 = 0x38000)

/-- An idle engine answers the word at its port with the refusal exactly when R124 (spelling) or R126 (value) says so. -/
def Obligations.WordsRefusedExactly : Prop :=
  ∀ (s : State) (w : CmdWord) (rest : List CmdWord), s.seq = .idle → s.resetReq = false → s.cmds = w :: rest →
    (step s = .next (s.takeWord w rest).refuse ↔ refusedWord w)

/-- A refused word sets RSP_STATUS to REFUSED and is done: no call, no delay, no other register, nothing of the sensor
(R125). That the response's data fields hold no value then is R31. -/
def Obligations.RefusedWordHasNoOtherEffect : Prop :=
  ∀ (s : State) (w : CmdWord) (rest : List CmdWord), s.seq = .idle → s.resetReq = false → s.cmds = w :: rest →
    refusedWord w →
    ∃ t, step s = .next t ∧ t.rsp.status = 3 ∧ t.rsp.pending = true ∧ t.response = .refused ∧ t.seq = .idle ∧
      t.regs = s.regs ∧ t.par = s.par ∧ t.cmds = rest ∧ t.env.sensor = s.env.sensor ∧ t.env.calls = s.env.calls ∧
      t.env.bus = s.env.bus ∧ t.env.txAnswers = s.env.txAnswers ∧ t.env.rxAnswers = s.env.rxAnswers ∧
      Grew s t [.done 3, .accept w]

/-- A few codes written out bit by bit from R101, R110, R113 and R122. -/
def Obligations.SampleCodesDecode : Prop :=
  decodeCmd (0b000_1001111_00000001 : BitVec 18) = .ok (.wrvr 0x4F 0x01) ∧
  decodeCmd (0b001_0010100_00000000 : BitVec 18) = .ok (.rdvr 0x14) ∧
  decodeCmd (0b010_0000000_00000010 : BitVec 18) = .ok (.seldev 2) ∧
  decodeCmd (0b011_1111100_00000000 : BitVec 18) = .ok (.rdflt 0x7C) ∧
  decodeCmd (0b100_0000000_00000000 : BitVec 18) = .ok .rdall ∧
  decodeCmd (0b101_0000000_00000000 : BitVec 18) = .ok .meas ∧
  decodeWire .command (0b1_1001111 : BitVec 8) = .vwra 0x4F ∧
  decodeWire .command (0b0_0010100 : BitVec 8) = .vrda 0x14 ∧
  decodeWire .data (0b10010100 : BitVec 8) = .vdata 0x94 ∧
  decodeWire .status (0b11111110 : BitVec 8) = .status 0xFE

/-- The two command bytes of an address (R115, R116, R110). That executing VWRA or VRDA hands its byte to WRITE by the frame
of R113 is the model's choice of what the row does (log entry 19). -/
def Obligations.CommandBytesAssemble : Prop :=
  (∀ (a : VAddr) (s : State), exec (.vwra a) s = exec (.wrWrite (0x80 ||| a.setWidth 8)) s ∧
    exec (.vrda a) s = exec (.wrWrite (a.setWidth 8 &&& 0x7F)) s ∧ (a.setWidth 8 &&& 0x7F : Byte) = a.setWidth 8) ∧
  vwraByte 0x4F = 0xCF ∧ vwraByte 0x00 = 0x80 ∧ vwraByte 0x7F = 0xFF ∧ vrdaByte 0x14 = 0x14

/-- The engine takes bit 1 and bit 0 of a STATUS byte and nothing else of it (R112, R127). That executing STATUS(b) writes
ST and hands b on is the model's choice of what the row does, taken from RDSTATUS (log entry 19, R140). -/
def Obligations.StatusByteFields : Prop :=
  (∀ b : Byte, txValid b = b.getLsbD 1 ∧ rxValid b = b.getLsbD 0) ∧
  (∀ (k : PollKind) (b b' : Byte), b &&& 0x03 = b' &&& 0x03 → pollHit k.mask k.want b = pollHit k.mask k.want b') ∧
  (∀ b : Byte, pollHit PollKind.tx.mask PollKind.tx.want b = !txValid b ∧
    pollHit PollKind.rx.mask PollKind.rx.want b = rxValid b) ∧
  (∀ (b : Byte) (s : State), exec (.status b) s = .next { s with regs := { s.regs with st := b }, ret := .byte b })

/-- The four bytes of a float merged one after another into ACC are the word of R119, under either byte order (R64, R65,
R185). -/
def Obligations.FloatAssembles : Prop :=
  ∀ (acc : Word) (b0 b1 b2 b3 : Byte),
    mergeByte .be 3 (mergeByte .be 2 (mergeByte .be 1 (mergeByte .be 0 acc b0) b1) b2) b3 =
      (b0.setWidth 32 <<< 24) ||| (b1.setWidth 32 <<< 16) ||| (b2.setWidth 32 <<< 8) ||| b3.setWidth 32 ∧
    mergeByte .le 3 (mergeByte .le 2 (mergeByte .le 1 (mergeByte .le 0 acc b0) b1) b2) b3 =
      (b3.setWidth 32 <<< 24) ||| (b2.setWidth 32 <<< 16) ||| (b1.setWidth 32 <<< 8) ||| b0.setWidth 32 ∧
    mergeByte .be 3 (mergeByte .be 2 (mergeByte .be 1 (mergeByte .be 0 acc b0) b1) b2) b3 = assembleWord .be b0 b1 b2 b3 ∧
    mergeByte .le 3 (mergeByte .le 2 (mergeByte .le 1 (mergeByte .le 0 acc b0) b1) b2) b3 = assembleWord .le b0 b1 b2 b3

/-- The fields of a binary32 pattern are the pattern, the reinterpretation loses nothing (-0.0, infinities, subnormals, the
sign and payload of a NaN), and the document's example is 12.5 (R187, R191). -/
def Obligations.WordsReinterpret : Prop :=
  (∀ w : Word, (f32Sign w ++ f32Exponent w ++ f32Fraction w : Word) = w) ∧
  (∀ w v : Word, bits32ToF32 w = bits32ToF32 v ↔ w = v) ∧
  (∃ (m : Nat) (e : Int), bits32ToF32 0x41480000 = .finite false m e ∧ 2 * m = 25 * 2 ^ 20 ∧ e = -20) ∧
  bits32ToF32 0x80000000 = .finite true 0 (-149) ∧ bits32ToF32 0x00000000 = .finite false 0 (-149)

/-- The addresses of a float's bytes do not wrap for a base up to 0x7C; the six channel bases and the 18 flat indices are
those of R118 (R117). -/
def Obligations.SweepAddresses : Prop :=
  (∀ (b : VAddr) (i : Fin 4), b.toNat ≤ 0x7C → (floatByteAddr b i).toNat = b.toNat + i.val) ∧
  (∀ c : BitVec 3, c.toNat ≤ 5 → (channelBase c).toNat = 0x14 + 4 * c.toNat) ∧
  (∀ (d d' : BitVec 2) (c c' : BitVec 3), d.toNat ≤ 2 → d'.toNat ≤ 2 → c.toNat ≤ 5 → c'.toNat ≤ 5 →
    flatIndex d c = d.toNat * 6 + c.toNat ∧ flatIndex d c < 18 ∧ (flatIndex d c = flatIndex d' c' → d = d' ∧ c = c'))

/-! The step and the command port. -/

/-- A step runs the instruction the spec puts next: a busy engine its next call, whose answer the sequencer then takes, or
the completion of a command whose last call has returned (log entry 4); an idle engine the word at its port; an idle
engine with no word does nothing (R7, R23, R102, R103, R104). `withFetchWord` places an instruction there (log entry
13). -/
def Obligations.StepRunsTheInstruction : Prop :=
  ∀ s : State, s.resetReq = false →
    (∀ i, s.issue = some i → step s = Out.andThen (exec i s) fun t => .next t.advance) ∧
    (∀ c k, s.seq = .ending c k → step s = .next (s.complete c k)) ∧
    (s.seq = .idle → ∀ w rest i, s.cmds = w :: rest → decodeCmd w = .ok i → step s = exec i (s.takeWord w rest)) ∧
    (s.seq = .idle → s.cmds = [] → step s = .next s) ∧
    (∀ w i, decodeTableWord 18 w = some i →
      step (s.withFetchWord 18 w) = exec i (State.takeWord (BitVec.ofNat 18 w) s.cmds { s with seq := .idle })) ∧
    (∀ w a, decodeTableWord 8 w = some (.vwra a) → step (s.withFetchWord 8 w) =
      Out.andThen (exec (.vwra a) { s with seq := .writing .wrvr .wB, regs := { s.regs with a := a } }) fun t =>
        .next t.advance) ∧
    (∀ w a, decodeTableWord 8 w = some (.vrda a) → step (s.withFetchWord 8 w) =
      Out.andThen (exec (.vrda a) { s with seq := .reading .rdvr .rB, regs := { s.regs with a := a } }) fun t =>
        .next t.advance) ∧
    (∀ w b, decodeTableWord 16 w = some (.wrWrite b) → step (s.withFetchWord 16 w) =
      Out.andThen (exec (.wrWrite b) { s with seq := .writing .wrvr .wD, regs := { s.regs with d := b } }) fun t =>
        .next t.advance)

/-- Acceptance in an idle engine: OP, the operands, SEQ at the first step with its poll begun (R103); the reserved opcodes
are refused (R125). The model's own, beside the rules: that acceptance makes `rsp.pending` false (log entry 10); that CNT
is cleared, and that RDALL clears FAIL and loads DEV, A and D and MEAS and RDFLT load A, in the accepting step (log entry
20); that SELDEV 3 and a base above 0x7C executed directly are refused (log entry 16); that the response fields of a
refusal are free values (log entry 5). -/
def Obligations.CommandsAccepted : Prop :=
  ∀ s : State, s.seq = .idle →
    (∀ a d, exec (.wrvr a d) s = .next { s with
      seq := .writing .wrvr (.wA .ptr), regs := { s.regs with op := 0, a := a, d := d, cnt := 0 },
      rsp := { s.rsp with pending := false }, ret := .ok }) ∧
    (∀ a, exec (.rdvr a) s = .next { s with
      seq := .reading .rdvr (.rA .ptr), regs := { s.regs with op := 1, a := a, cnt := 0 },
      rsp := { s.rsp with pending := false }, ret := .ok }) ∧
    (∀ id, id ≠ 3 → exec (.seldev id) s = .next { s with
      seq := .writing .seldev (.wA .ptr), regs := { s.regs with op := 2, a := 0x4F, d := id.setWidth 8, cnt := 0 },
      rsp := { s.rsp with pending := false }, ret := .ok }) ∧
    (∀ b : VAddr, b.toNat ≤ 0x7C → exec (.rdflt b) s = .next { s with
      seq := .reading (.flt 0) (.rA .ptr), regs := { s.regs with op := 3, base := b, a := b, cnt := 0 },
      rsp := { s.rsp with pending := false }, ret := .ok }) ∧
    exec .rdall s = .next { s with
      seq := .writing .sweepSel (.wA .ptr),
      regs := { s.regs with op := 4, fail := 0, dev := 0, a := 0x4F, d := 0, cnt := 0 },
      rsp := { s.rsp with pending := false }, ret := .ok } ∧
    exec .meas s = .next { s with
      seq := .reading .ledonRd (.rA .ptr), regs := { s.regs with op := 5, a := s.par.ledControlVaddr, cnt := 0 },
      rsp := { s.rsp with pending := false }, ret := .ok } ∧
    (∀ i, (i = .seldev 3 ∨ (∃ b : VAddr, i = .rdflt b ∧ b.toNat > 0x7C) ∨ (∃ r, i = .reserved6 r) ∨ (∃ r, i = .reserved7 r)) →
      exec i s = .next { s with
        rsp := { status := 3, byte := Config.freeByte s.env.fresh, word := Config.freeWord s.env.fresh,
                 res := Config.freeRes s.env.fresh, fail := Config.freeFail s.env.fresh, pending := true },
        env := { s.env with fresh := s.env.fresh + 1, trace := .done 3 :: s.env.trace } })

/-- A command word presented while a command runs waits and is not lost, reordered or merged; no step of a running command
takes a waiting word (R102, R75). That a command executed while the engine is busy appends its word to a list of the
CLIENT's waiting words is the model's choice (log entry 6). -/
def Obligations.BusyCommandWaits : Prop :=
  ∀ s : State, s.seq ≠ .idle →
    (∀ i w, encode s.par i = some (.command w) → exec i s = .next { s with cmds := s.cmds ++ [w] }) ∧
    (∀ t, s.resetReq = false → step s = .next t → t.cmds = s.cmds)

/-- A step makes one external call when the running command has one to make and none otherwise; it accepts one word when
idle with a word waiting; it produces one response exactly when it ends a command with SEQ at IDLE, as its last event,
with the status of RSP_STATUS; a step that makes a call produces none (R7, R74, R104; a refused word is answered at once,
R103). That an accepted command's completion is its own step is R7's; the position of SEQ before it is log entry 4, and
`rsp.pending` is log entry 10. -/
def Obligations.OneCallAndOneResponse : Prop :=
  ∀ s t : State, s.resetReq = false → step s = .next t → ∃ evs, Grew s t evs ∧
    callsIn evs + delaysIn evs = (if s.issue.isSome then 1 else 0) ∧
    (s.issue.isSome = true → evs.countP Event.isDone = 0) ∧
    evs.countP Event.isAccept = (if s.seq = .idle ∧ s.cmds ≠ [] then 1 else 0) ∧
    evs.countP Event.isDone = (if t.seq = .idle ∧ (s.seq ≠ .idle ∨ s.cmds ≠ []) then 1 else 0) ∧
    (evs.countP Event.isDone = 1 → evs.head? = some (.done t.rsp.status) ∧ t.rsp.pending = true)

/-! Calls. -/

/-- Every instruction that is one `transmit` completes under the oracle: the frame of R113 to 0x49 with XFER_TIMEOUT, the
answer in the result, nothing else of the engine changed (R113, R141, R143, R262). That VWRA, VRDA and VDATA executed
directly make the call WR_WRITE of their byte is the model's choice of what these rows do (log entry 19). -/
def Obligations.SendFramesComplete : Prop :=
  ∀ (s : State) (a : VAddr) (b : Byte), s.env.bus = .oracle →
    ∀ x : Instr × List Byte, x ∈ [(.ptrStatus, [s.par.statusReg]), (.ptrRead, [s.par.readReg]),
        (.wrWrite b, [s.par.writeReg, b]), (.wrwrite b, [s.par.writeReg, b]), (.vdata b, [s.par.writeReg, b]),
        (.vwra a, [s.par.writeReg, 0x80 ||| a.setWidth 8]), (.vrda a, [s.par.writeReg, a.setWidth 8])] →
      exec x.1 s = .next { s with
        ret := s.env.nextTx.ret,
        env := ({ s.env with txAnswers := s.env.txAnswers.tail }).called
          (.transmit 0x49 x.2 s.par.xferTimeout s.env.nextTx) }

/-- GET1 completes under the oracle: one byte from 0x49, the byte or BusError in the result, no register changed (R113,
R114, R262). -/
def Obligations.ReceiveCompletes : Prop :=
  ∀ s : State, s.env.bus = .oracle →
    exec .get1 s = .next { s with
      ret := s.env.nextRx.ret,
      env := ({ s.env with rxAnswers := s.env.rxAnswers.tail }).called (.receive 0x49 1 s.par.xferTimeout s.env.nextRx) }

/-- Frames, whoever answers: a call or a delay changes no register; RDSTATUS and STATUS change ST, RDREAD changes RX, a
poll changes ST and CNT (R140 to R149). That VWRA, VRDA and VDATA executed directly act as calls, and that executing
STATUS(b) writes b to ST, is the model's choice of what these rows do (log entry 19). -/
def Obligations.MicroOperationFrames : Prop :=
  ∀ (s t : State) (a : VAddr) (b mask want : Byte) (max : Count) (iv : Interval),
    (∀ i ∈ [Instr.ptrStatus, .ptrRead, .wrWrite b, .get1, .vwra a, .vrda a, .vdata b, .wrwrite b, .delay iv],
      exec i s = .next t → SameEngine s t ∧ t.env.bus = s.env.bus) ∧
    (exec (.status b) s = .next t → SameEngine { s with regs := { s.regs with st := b } } t ∧ t.env = s.env) ∧
    (exec .rdstatus s = .next t → SameEngine { s with regs := { s.regs with st := t.regs.st } } t ∧ t.env.bus = s.env.bus) ∧
    (exec .rdread s = .next t → SameEngine { s with regs := { s.regs with rx := t.regs.rx } } t ∧ t.env.bus = s.env.bus) ∧
    (∀ i ∈ [Instr.poll mask want max iv, .waittx, .waitrx],
      exec i s = .next t → SameButPoll s t ∧ t.env.bus = s.env.bus)

/-- RDSTATUS under the oracle: no receive after a failed transmit; a byte goes to ST and is the result (R140). -/
def Obligations.RdstatusReads : Prop :=
  ∀ s : State, s.env.bus = .oracle →
    let tx := Event.transmit 0x49 [s.par.statusReg] s.par.xferTimeout
    let rx := Event.receive 0x49 1 s.par.xferTimeout
    let next := ({ s.env with fresh := s.env.fresh + 1 }).nextRx
    (s.env.nextTx = .busError →
      ∃ t, exec .rdstatus s = .next t ∧ t.ret = .busError ∧ SameEngine s t ∧ Grew s t [tx .busError]) ∧
    (s.env.nextTx = .ok → next = .busError →
      ∃ t, exec .rdstatus s = .next t ∧ t.ret = .busError ∧ SameEngine s t ∧ Grew s t [rx .busError, tx .ok]) ∧
    (∀ b, s.env.nextTx = .ok → next = .byte b →
      ∃ t, exec .rdstatus s = .next t ∧ t.ret = .byte b ∧ SameEngine { s with regs := { s.regs with st := b } } t ∧
        Grew s t [rx (.byte b), tx .ok])

/-- RDREAD under the oracle: no receive after a failed transmit; a byte goes to RX and is the result (R142). -/
def Obligations.RdreadReads : Prop :=
  ∀ s : State, s.env.bus = .oracle →
    let tx := Event.transmit 0x49 [s.par.readReg] s.par.xferTimeout
    let rx := Event.receive 0x49 1 s.par.xferTimeout
    let next := ({ s.env with fresh := s.env.fresh + 1 }).nextRx
    (s.env.nextTx = .busError →
      ∃ t, exec .rdread s = .next t ∧ t.ret = .busError ∧ SameEngine s t ∧ Grew s t [tx .busError]) ∧
    (s.env.nextTx = .ok → next = .busError →
      ∃ t, exec .rdread s = .next t ∧ t.ret = .busError ∧ SameEngine s t ∧ Grew s t [rx .busError, tx .ok]) ∧
    (∀ b, s.env.nextTx = .ok → next = .byte b →
      ∃ t, exec .rdread s = .next t ∧ t.ret = .byte b ∧ SameEngine { s with regs := { s.regs with rx := b } } t ∧
        Grew s t [rx (.byte b), tx .ok])

/-- DELAY always returns: an event with its nominal duration, no register written; under the oracle the sensor may have
done anything (R146). That the reference device does nothing in a delay is the model's choice: R88 gives it no
behaviour there (log entry 9). -/
def Obligations.DelayCompletes : Prop :=
  ∀ (s : State) (iv : Interval),
    (s.env.bus = .oracle → exec (.delay iv) s = .next { s with
      ret := .ok,
      env := { s.env with sensor := Sensor.unknown s.env.fresh, fresh := s.env.fresh + 1,
                          trace := .delay iv (s.par.duration iv) :: s.env.trace } }) ∧
    (∀ rd, s.env.bus = .reference rd → exec (.delay iv) s = .next { s with
      ret := .ok, env := { s.env with trace := .delay iv (s.par.duration iv) :: s.env.trace } })

/-! Polls. -/

/-- The cost and the end of a POLL by the attempt that decides it, attempt `k + 1` after `k` misses: 2k transport calls for
k attempts, k - 1 delays, and the failures of R152. -/
def Obligations.PollCosts : Prop :=
  ∀ (s : State) (mask want : Byte) (max : Count) (iv : Interval) (misses : List Byte) (ta : List TxAnswer)
    (ra : List RxAnswer), s.env.bus = .oracle → (∀ m ∈ misses, pollHit mask want m = false) →
    let k := misses.length
    (∀ hit, pollHit mask want hit = true → k < max.toNat →
      s.env.txAnswers = List.replicate (k + 1) .ok ++ ta → s.env.rxAnswers = misses.map .byte ++ .byte hit :: ra →
      ∃ t evs, exec (.poll mask want max iv) s = .next t ∧ t.ret = .ok ∧ SameButPoll s t ∧ t.regs.st = hit ∧
        t.regs.cnt.toNat = k + 1 ∧ Grew s t evs ∧ callsIn evs = 2 * (k + 1) ∧ delaysIn evs = k) ∧
    (k = max.toNat → max ≠ 0 → s.env.txAnswers = List.replicate k .ok ++ ta → s.env.rxAnswers = misses.map .byte ++ ra →
      ∃ t evs, exec (.poll mask want max iv) s = .next t ∧ t.ret = .timeout ∧ SameButPoll s t ∧ t.regs.cnt = max ∧
        Grew s t evs ∧ callsIn evs = 2 * max.toNat ∧ delaysIn evs = max.toNat) ∧
    (k < max.toNat →
      s.env.txAnswers = List.replicate k .ok ++ .busError :: ta → s.env.rxAnswers = misses.map .byte ++ ra →
      ∃ t evs, exec (.poll mask want max iv) s = .next t ∧ t.ret = .busError ∧ SameButPoll s t ∧
        t.regs.cnt.toNat = k ∧ Grew s t evs ∧ callsIn evs = 2 * (k + 1) - 1 ∧ delaysIn evs = k) ∧
    (k < max.toNat →
      s.env.txAnswers = List.replicate (k + 1) .ok ++ ta → s.env.rxAnswers = misses.map .byte ++ .busError :: ra →
      ∃ t evs, exec (.poll mask want max iv) s = .next t ∧ t.ret = .busError ∧ SameButPoll s t ∧
        t.regs.cnt.toNat = k ∧ Grew s t evs ∧ callsIn evs = 2 * (k + 1) ∧ delaysIn evs = k)

/-- POLL ends whatever the oracle answers, within its bound, and its result says what was seen; WAITTX and WAITRX are its
two instances (R147, R148, R149, R151). -/
def Obligations.PollAlwaysEnds : Prop :=
  (∀ (s : State) (mask want : Byte) (max : Count) (iv : Interval), s.env.bus = .oracle → max ≠ 0 →
    ∃ t evs, exec (.poll mask want max iv) s = .next t ∧ SameButPoll s t ∧ Grew s t evs ∧
      callsIn evs ≤ 2 * max.toNat ∧ delaysIn evs ≤ max.toNat ∧ t.regs.cnt.toNat ≤ max.toNat ∧
      ((t.ret = .ok ∧ t.regs.st &&& mask = want ∧ 1 ≤ t.regs.cnt.toNat) ∨
       (t.ret = .timeout ∧ t.regs.st &&& mask ≠ want ∧ t.regs.cnt = max) ∨
       (t.ret = .busError ∧ t.regs.cnt.toNat < max.toNat))) ∧
  (∀ s : State, exec .waittx s = exec (.poll 0x02 0x00 s.par.txPollMax .txPoll) s ∧
    exec .waitrx s = exec (.poll 0x01 0x01 s.par.rxPollMax .rxPoll) s)

/-- WAITTX and WAITRX complete under the oracle for every legal parameter record, with the STATUS bit they waited for when
they answer Ok (R148, R149). -/
def Obligations.WaitsComplete : Prop :=
  ∀ s : State, s.env.bus = .oracle → s.par.wf = true →
    (∃ t, exec .waittx s = .next t ∧ SameButPoll s t ∧ (t.ret = .ok ∨ t.ret = .timeout ∨ t.ret = .busError) ∧
      (t.ret = .ok → txValid t.regs.st = false) ∧ (t.ret = .timeout → txValid t.regs.st = true ∧ t.regs.cnt = s.par.txPollMax)) ∧
    (∃ t, exec .waitrx s = .next t ∧ SameButPoll s t ∧ (t.ret = .ok ∨ t.ret = .timeout ∨ t.ret = .busError) ∧
      (t.ret = .ok → rxValid t.regs.st = true) ∧ (t.ret = .timeout → rxValid t.regs.st = false ∧ t.regs.cnt = s.par.rxPollMax))

/-- A bound of 0 is no operand of POLL (R147: `max` in 1..65535): the model refuses it by name (log entry 12). -/
def Obligations.ZeroBoundPollStops : Prop :=
  ∀ (s : State) (mask want : Byte) (iv : Interval), exec (.poll mask want 0 iv) s = .refused .pollBoundZero

/-! The small-step tables, under the oracle. Where a command is over, `EndsWith` states the completion step that follows:
that it is a step of its own is R7's, where SEQ stands before it is the model's choice (log entry 4). -/

/-- The rows of R150 that stay in the poll: pointer Ok, a miss, a delay with attempts left. The exits are in the tables of
the enclosing steps and in the statements about failures. -/
def Obligations.PollRows : Prop :=
  ∀ (s : State) (k : PollKind) (b : Byte), s.resetReq = false → s.env.bus = .oracle →
    (s.seq.pollAt = some (k, .ptr) → s.env.nextTx = .ok →
      ∃ t, step s = .next t ∧ t.seq = s.seq.movePoll .get ∧ t.regs = s.regs) ∧
    (s.seq.pollAt = some (k, .get) → s.env.nextRx = .byte b → pollHit k.mask k.want b = false →
      ∃ t, step s = .next t ∧ t.seq = s.seq.movePoll .dly ∧ t.regs = { s.regs with st := b, cnt := s.regs.cnt + 1 }) ∧
    (s.seq.pollAt = some (k, .dly) → s.regs.cnt ≠ k.max s.par →
      ∃ t, step s = .next t ∧ t.seq = s.seq.movePoll .ptr ∧ t.regs = s.regs ∧
        Grew s t [.delay k.interval (s.par.duration k.interval)])

/-- The rows of R161: WRVR from step to step on Ok, and its end. -/
def Obligations.WriteRows : Prop :=
  ∀ (s : State) (c : WCtx) (b : Byte), s.resetReq = false → s.env.bus = .oracle →
    (s.seq = .writing c (.wA .get) → s.env.nextRx = .byte b → txValid b = false →
      ∃ t, step s = .next t ∧ t.seq = .writing c .wB ∧ t.regs = { s.regs with st := b, cnt := s.regs.cnt + 1 }) ∧
    (s.seq = .writing c .wB → s.env.nextTx = .ok →
      ∃ t, step s = .next t ∧ t.seq = .writing c (.wC .ptr) ∧ t.regs = { s.regs with cnt := 0 } ∧
        Grew s t [.transmit 0x49 [s.par.writeReg, 0x80 ||| s.regs.a.setWidth 8] s.par.xferTimeout .ok]) ∧
    (s.seq = .writing c (.wC .get) → s.env.nextRx = .byte b → txValid b = false →
      ∃ t, step s = .next t ∧ t.seq = .writing c .wD ∧ t.regs = { s.regs with st := b, cnt := s.regs.cnt + 1 }) ∧
    (s.seq = .writing c .wD → s.env.nextTx = .ok →
      ∃ t, step s = .next t ∧ t.seq = .writing c (.wE .ptr) ∧ t.regs = { s.regs with cnt := 0 } ∧
        Grew s t [.transmit 0x49 [s.par.writeReg, s.regs.d] s.par.xferTimeout .ok]) ∧
    (s.seq = .writing c (.wE .get) → c = .wrvr ∨ c = .seldev → s.env.nextRx = .byte b → txValid b = false →
      ∃ t u, step s = .next t ∧ t.seq.top = c.top ∧ t.regs = { s.regs with st := b, cnt := s.regs.cnt + 1 } ∧
        t.rsp = s.rsp ∧ EndsWith t u 0)

/-- The rows of R166: RDVR from step to step on Ok, and its end with the byte. -/
def Obligations.ReadRows : Prop :=
  ∀ (s : State) (c : RCtx) (b : Byte), s.resetReq = false → s.env.bus = .oracle →
    (s.seq = .reading c (.rA .get) → s.env.nextRx = .byte b → txValid b = false →
      ∃ t, step s = .next t ∧ t.seq = .reading c .rB ∧ t.regs = { s.regs with st := b, cnt := s.regs.cnt + 1 }) ∧
    (s.seq = .reading c .rB → s.env.nextTx = .ok →
      ∃ t, step s = .next t ∧ t.seq = .reading c (.rC .ptr) ∧ t.regs = { s.regs with cnt := 0 } ∧
        Grew s t [.transmit 0x49 [s.par.writeReg, s.regs.a.setWidth 8] s.par.xferTimeout .ok]) ∧
    (s.seq = .reading c (.rC .get) → s.env.nextRx = .byte b → txValid b = false →
      ∃ t, step s = .next t ∧ t.seq = .reading c (.rD .ptr) ∧ t.regs = { s.regs with st := b, cnt := 0 }) ∧
    (s.seq = .reading c (.rD .get) → s.env.nextRx = .byte b → rxValid b = true →
      ∃ t, step s = .next t ∧ t.seq = .reading c (.rE .ptr) ∧ t.regs = { s.regs with st := b, cnt := s.regs.cnt + 1 }) ∧
    (s.seq = .reading c (.rE .ptr) → s.env.nextTx = .ok →
      ∃ t, step s = .next t ∧ t.seq = .reading c (.rE .get) ∧ t.regs = s.regs ∧
        Grew s t [.transmit 0x49 [s.par.readReg] s.par.xferTimeout .ok]) ∧
    (s.seq = .reading .rdvr (.rE .get) → s.env.nextRx = .byte b →
      ∃ t u, step s = .next t ∧ t.seq.top = .rdvr ∧ t.regs = { s.regs with rx := b } ∧ t.rsp = s.rsp ∧
        EndsWith t u 0 ∧ u.rsp.byte = b)

/-- The rows of R186 and of R195's loops on Ok: a byte merged and the next read begun; the word, the entry of RES with its
FAIL bit clear; the next channel, the next die, the end. -/
def Obligations.FloatAndSweepRows : Prop :=
  ∀ (s : State) (i : Fin 4) (b : Byte), s.resetReq = false → s.env.bus = .oracle →
    s.env.nextRx = .byte b →
    (s.seq = .reading (.flt i) (.rE .get) → i ≠ 3 →
      ∃ t, step s = .next t ∧ t.seq = .reading (.flt (i + 1)) (.rA .ptr) ∧
        t.regs = { s.regs with rx := b, acc := mergeByte s.par.byteOrder i s.regs.acc b,
                               a := floatByteAddr s.regs.base (i + 1), cnt := 0 }) ∧
    (s.seq = .reading (.flt 3) (.rE .get) →
      ∃ t u, step s = .next t ∧ t.seq.top = .rdflt ∧
        t.regs = { s.regs with rx := b, acc := mergeByte s.par.byteOrder 3 s.regs.acc b } ∧ t.rsp = s.rsp ∧
        EndsWith t u 0 ∧ u.rsp.word = mergeByte s.par.byteOrder 3 s.regs.acc b) ∧
    (s.seq = .writing .sweepSel (.wE .get) → txValid b = false →
      ∃ t, step s = .next t ∧ t.seq = .reading (.sweepFlt 0) (.rA .ptr) ∧
        t.regs = { s.regs with st := b, ch := 0, base := 0x14, a := 0x14, cnt := 0 }) ∧
    (s.seq = .reading (.sweepFlt i) (.rE .get) → i ≠ 3 →
      ∃ t, step s = .next t ∧ t.seq = .reading (.sweepFlt (i + 1)) (.rA .ptr) ∧
        t.regs = { s.regs with rx := b, acc := mergeByte s.par.byteOrder i s.regs.acc b,
                               a := floatByteAddr s.regs.base (i + 1), cnt := 0 }) ∧
    (s.seq = .reading (.sweepFlt 3) (.rE .get) → s.regs.dev.toNat ≤ 2 → s.regs.ch.toNat ≤ 5 →
      ∃ t, step s = .next t ∧
        (∀ (j : Nat) (h : j < 18), t.regs.res[j] =
          if j = flatIndex s.regs.dev s.regs.ch then mergeByte s.par.byteOrder 3 s.regs.acc b else s.regs.res[j]) ∧
        (∀ j < 18, t.regs.fail.getLsbD j =
          if j = flatIndex s.regs.dev s.regs.ch then false else s.regs.fail.getLsbD j) ∧
        (s.regs.ch.toNat < 5 → t.seq = .reading (.sweepFlt 0) (.rA .ptr) ∧ t.regs.ch = s.regs.ch + 1 ∧
          t.regs.dev = s.regs.dev ∧ t.regs.base = channelBase (s.regs.ch + 1) ∧ t.regs.a = channelBase (s.regs.ch + 1)) ∧
        (s.regs.ch.toNat = 5 → s.regs.dev.toNat < 2 → t.seq = .writing .sweepSel (.wA .ptr) ∧
          t.regs.dev = s.regs.dev + 1 ∧ t.regs.a = 0x4F ∧ t.regs.d = (s.regs.dev + 1).setWidth 8) ∧
        (s.regs.ch.toNat = 5 → s.regs.dev.toNat = 2 → t.seq.top = .rdall ∧ t.rsp = s.rsp ∧ ∃ u, EndsWith t u 0))

/-- The rows of R213 on Ok, each with every register it writes. -/
def Obligations.MeasRows : Prop :=
  ∀ (s : State) (b : Byte), s.resetReq = false → s.env.bus = .oracle →
    (s.seq = .reading .ledonRd (.rE .get) → s.env.nextRx = .byte b →
      ∃ t, step s = .next t ∧ t.seq = .writing .ledonWr (.wA .ptr) ∧
        t.regs = { s.regs with rx := b, ledsave := b, err := 0, a := s.par.ledControlVaddr,
                               d := b ||| s.par.ledDrvEnMask, cnt := 0 }) ∧
    (s.seq = .writing .ledonWr (.wE .get) → s.env.nextRx = .byte b → txValid b = false →
      ∃ t, step s = .next t ∧ t.seq = .reading .measRd (.rA .ptr) ∧
        t.regs = { s.regs with st := b, a := s.par.controlSetupVaddr, cnt := 0 }) ∧
    (s.seq = .reading .measRd (.rE .get) → s.env.nextRx = .byte b →
      ∃ t, step s = .next t ∧ t.seq = .writing .measWr (.wA .ptr) ∧
        t.regs = { s.regs with rx := b, cs := b, a := s.par.controlSetupVaddr, d := b ||| s.par.measBusyMask, cnt := 0 }) ∧
    (s.seq = .writing .measWr (.wE .get) → s.env.nextRx = .byte b → txValid b = false →
      ∃ t, step s = .next t ∧ t.seq = .reading .measPoll (.rA .ptr) ∧
        t.regs = { s.regs with st := b, cnt2 := 0, a := s.par.controlSetupVaddr, cnt := 0 }) ∧
    (s.seq = .reading .measPoll (.rE .get) → s.env.nextRx = .byte b → b &&& s.par.measBusyMask = 0 →
      ∃ t, step s = .next t ∧ t.seq = .writing .ledoffWr (.wA .ptr) ∧
        t.regs = { s.regs with rx := b, cs := b, cnt2 := s.regs.cnt2 + 1, a := s.par.ledControlVaddr,
                               d := s.regs.ledsave &&& ~~~s.par.ledDrvEnMask, cnt := 0 }) ∧
    (s.seq = .reading .measPoll (.rE .get) → s.env.nextRx = .byte b → b &&& s.par.measBusyMask ≠ 0 →
      ∃ t, step s = .next t ∧ t.seq = .measDly ∧
        t.regs = { s.regs with rx := b, cs := b, cnt2 := s.regs.cnt2 + 1 }) ∧
    (s.seq = .measDly → s.regs.cnt2 ≠ s.par.measPollMax →
      ∃ t, step s = .next t ∧ t.seq = .reading .measPoll (.rA .ptr) ∧
        t.regs = { s.regs with a := s.par.controlSetupVaddr, cnt := 0 } ∧
        Grew s t [.delay .measPoll s.par.measPollInterval])

/-! Failures, under the oracle. `State.coming` is the failure the coming call meets; `EndsWith` as above (log entry 4). -/

/-- A failure of WRVR or RDVR as the command, or under SELDEV or RDFLT, ends the operation with that status (R246, R247),
and so does one of MEAS's first read (R213, R214); no register changes. The end is the completion step of R7; that SEQ
keeps its TOP until then is the model's choice (log entry 4). -/
def Obligations.FailureEndsOperation : Prop :=
  ∀ (s : State) (f : Failure), s.resetReq = false → s.env.bus = .oracle → s.coming = some f →
    ((∃ w, s.seq = .writing .wrvr w) ∨ (∃ w, s.seq = .writing .seldev w) ∨ (∃ r, s.seq = .reading .rdvr r) ∨
      (∃ i r, s.seq = .reading (.flt i) r) ∨ (∃ r, s.seq = .reading .ledonRd r)) →
    ∃ t u, step s = .next t ∧ t.seq.top = s.seq.top ∧ t.regs = s.regs ∧ t.rsp = s.rsp ∧ EndsWith t u f.code ∧
      u.response = (match f with | .timeout => .timeout | .busError => .busError)

/-- MEAS defers a failure met after LEDON_RD: it records it in ERR and begins the LedOff write with the value saved before
LedOn; that write ends MEAS with the recorded failure, or with its own when none is recorded (R249, R213, R217, R218).
The end is the completion step of R7; that SEQ's TOP is MEAS until then is the model's choice (log entry 4). -/
def Obligations.MeasDefersFailure : Prop :=
  ∀ s : State, s.resetReq = false → s.env.bus = .oracle →
    (∀ f, s.coming = some f →
      ((∃ w, s.seq = .writing .ledonWr w) ∨ (∃ r, s.seq = .reading .measRd r) ∨ (∃ w, s.seq = .writing .measWr w) ∨
        (∃ r, s.seq = .reading .measPoll r) ∨ s.seq = .measDly) →
      ∃ t, step s = .next t ∧ t.seq = .writing .ledoffWr (.wA .ptr) ∧
        t.regs = { s.regs with err := f.code, a := s.par.ledControlVaddr,
                               d := s.regs.ledsave &&& ~~~s.par.ledDrvEnMask, cnt := 0 }) ∧
    (∀ f w, s.coming = some f → s.seq = .writing .ledoffWr w →
      ∃ t u, step s = .next t ∧ t.seq.top = .meas ∧ t.regs = s.regs ∧ t.rsp = s.rsp ∧
        EndsWith t u (if s.regs.err ≠ 0 then s.regs.err else f.code)) ∧
    (∀ b, s.seq = .writing .ledoffWr (.wE .get) → s.env.nextRx = .byte b → txValid b = false →
      ∃ t u, step s = .next t ∧ t.seq.top = .meas ∧ t.regs = { s.regs with st := b, cnt := s.regs.cnt + 1 } ∧
        t.rsp = s.rsp ∧ EndsWith t u s.regs.err)

/-- A failed SELDEV of the sweep: the six channels of that die are substituted and flagged without an access, every other
entry stays, and the sweep goes on with a fresh SELDEV of the next die (R198, R248) or ends OK (R195, R200). The end is
the completion step of R7; that SEQ's TOP is RDALL until then is the model's choice (log entry 4). -/
def Obligations.SelectFailureSubstitutesDie : Prop :=
  ∀ (s : State) (f : Failure) (w : WStep), s.resetReq = false → s.env.bus = .oracle → s.coming = some f →
    s.seq = .writing .sweepSel w → s.regs.dev.toNat ≤ 2 →
    ∃ t, step s = .next t ∧
      (∀ (j : Nat) (h : j < 18), t.regs.res[j] =
        if s.regs.dev.toNat * 6 ≤ j ∧ j < s.regs.dev.toNat * 6 + 6 then 0x00000000 else s.regs.res[j]) ∧
      (∀ j < 18, t.regs.fail.getLsbD j =
        if s.regs.dev.toNat * 6 ≤ j ∧ j < s.regs.dev.toNat * 6 + 6 then true else s.regs.fail.getLsbD j) ∧
      (s.regs.dev.toNat < 2 → t.seq = .writing .sweepSel (.wA .ptr) ∧ t.regs.dev = s.regs.dev + 1 ∧
        t.regs.a = 0x4F ∧ t.regs.d = (s.regs.dev + 1).setWidth 8 ∧ t.rsp = s.rsp) ∧
      (s.regs.dev.toNat = 2 → t.seq.top = .rdall ∧ t.rsp = s.rsp ∧ ∃ u, EndsWith t u 0)

/-- A failed RDFLT of the sweep, at whichever of its reads: RES[i] is 0x00000000, FAIL[i] is 1, every other entry stays,
and the sweep goes on with the next channel (R197, R248). -/
def Obligations.ChannelFailureSubstitutes : Prop :=
  ∀ (s : State) (f : Failure) (i : Fin 4) (r : RStep), s.resetReq = false → s.env.bus = .oracle → s.coming = some f →
    s.seq = .reading (.sweepFlt i) r → s.regs.dev.toNat ≤ 2 → s.regs.ch.toNat ≤ 5 →
    ∃ t, step s = .next t ∧
      (∀ (j : Nat) (h : j < 18), t.regs.res[j] =
        if j = flatIndex s.regs.dev s.regs.ch then 0x00000000 else s.regs.res[j]) ∧
      (∀ j < 18, t.regs.fail.getLsbD j =
        if j = flatIndex s.regs.dev s.regs.ch then true else s.regs.fail.getLsbD j) ∧
      (s.regs.ch.toNat < 5 → t.seq = .reading (.sweepFlt 0) (.rA .ptr) ∧ t.regs.ch = s.regs.ch + 1 ∧
        t.regs.dev = s.regs.dev ∧ t.regs.base = channelBase (s.regs.ch + 1) ∧ t.regs.a = channelBase (s.regs.ch + 1)) ∧
      (s.regs.ch.toNat = 5 → s.regs.dev.toNat < 2 → t.seq = .writing .sweepSel (.wA .ptr) ∧
        t.regs.dev = s.regs.dev + 1 ∧ t.regs.a = 0x4F ∧ t.regs.d = (s.regs.dev + 1).setWidth 8) ∧
      (s.regs.ch.toNat = 5 → s.regs.dev.toNat = 2 → t.seq.top = .rdall ∧ t.rsp = s.rsp ∧ ∃ u, EndsWith t u 0)

/-- Once MEAS has passed its first read it stays in MEAS until LedOff: no step but a step of the LedOff write, or a reset,
brings it to its end (R217, R213). -/
def Obligations.MeasLeavesThroughLedOff : Prop :=
  ∀ s t : State, s.resetReq = false → step s = .next t → s.seq.top = .meas →
    (∀ r, s.seq ≠ .reading .ledonRd r) → (∀ w, s.seq ≠ .writing .ledoffWr w) → (∀ k, s.seq ≠ .ending .meas k) →
    t.seq.top = .meas ∧ ∀ k, t.seq ≠ .ending .meas k

/-! Whole commands. -/

/-- The machine, stepped call by call from acceptance, comes to exactly the state the pseudocode of the command gives,
within `stepBound` steps, whoever answers (R160, R165, R180, R185, R195, R212, R125). The count of steps takes the
completion as one (R7, log entry 4). -/
def Obligations.CommandRefinesPseudocode : Prop :=
  ∀ (i : Instr) (s s1 : State) (x : Except Fault State), s.seq = .idle → s.resetReq = false → s.par.wf = true →
    s.pseudoCommand i = some x → exec i s = .next s1 →
    ∃ n ≤ stepBound s.par i, runs n s1 = ofPseudo x

/-- Every command ends with a response within `stepBound` steps, whatever the oracle answers (R258, R104). R258 bounds the
external calls; the count of steps takes each call as one and the completion as one (R7, log entry 4). -/
def Obligations.EveryCommandEnds : Prop :=
  ∀ (i : Instr) (s : State), s.seq = .idle → s.resetReq = false → s.par.wf = true → s.env.bus = .oracle →
    i.isCommand = true →
    ∃ s1, exec i s = .next s1 ∧ ∃ n ≤ stepBound s.par i, ∃ t, runs n s1 = .next t ∧ t.seq = .idle ∧ t.rsp.pending = true

/-- RDALL answers OK with all 18 values whatever the oracle answers; a flagged value is 0.0 (R200, R106, R197). -/
def Obligations.SweepAlwaysAnswersOk : Prop :=
  ∀ s : State, s.seq = .idle → s.resetReq = false → s.par.wf = true → s.env.bus = .oracle →
    ∃ s1, exec .rdall s = .next s1 ∧ ∃ n ≤ stepBound s.par .rdall, ∃ t, runs n s1 = .next t ∧ t.seq = .idle ∧
      t.rsp.pending = true ∧ t.rsp.status = 0 ∧ t.response = .okAll t.regs.res t.regs.fail ∧
      ∀ (j : Nat) (h : j < 18), t.regs.fail.getLsbD j = true → t.regs.res[j] = 0x00000000

/-- On a bus where every call fails the sweep makes three calls and answers OK, every value 0.0 and flagged (R200). -/
def Obligations.DeadBusSweep : Prop :=
  ∀ (s : State) (ta : List TxAnswer), s.seq = .idle → s.resetReq = false → s.env.bus = .oracle →
    s.env.txAnswers = .busError :: .busError :: .busError :: ta →
    ∃ s1 t evs, exec .rdall s = .next s1 ∧ runs 4 s1 = .next t ∧ Grew s1 t evs ∧ callsIn evs = 3 ∧ delaysIn evs = 0 ∧
      t.response = .okAll (Vector.replicate 18 0x00000000) 0x3FFFF

/-- WRVR in external calls, and what it hands to WRITE: at most 6 TX_POLL_MAX + 2 calls and 3 TX_POLL_MAX delays, at least
8 calls when it ends Ok; at most two bytes written, READ never touched, an Ok preceded by a STATUS read with TX_VALID
clear (R164, R171 (P3), (P5)). -/
def Obligations.WriteTraffic : Prop :=
  ∀ (s s1 : State) (a : VAddr) (d : Byte), s.seq = .idle → s.resetReq = false → s.par.wf = true → s.env.bus = .oracle →
    exec (.wrvr a d) s = .next s1 →
    ∃ n t evs, runs n s1 = .next t ∧ t.seq = .idle ∧ Grew s1 t (.done t.rsp.status :: evs) ∧
      callsIn evs ≤ 6 * s.par.txPollMax.toNat + 2 ∧ delaysIn evs ≤ 3 * s.par.txPollMax.toNat ∧
      evs.countP (Event.isWrite s.par) ≤ 2 ∧ evs.countP (Event.isReadAccess s.par) = 0 ∧
      (t.rsp.status = 0 → 8 ≤ callsIn evs ∧ statusRead s.par (fun b => !txValid b) evs = true)

/-- RDVR in external calls, and its accesses: at most 4 TX_POLL_MAX + 2 RX_POLL_MAX + 3 calls and 2 TX_POLL_MAX +
RX_POLL_MAX delays, at least 9 calls when it ends Ok; at most one byte written to WRITE, READ read at most once (R170,
R171 (P3), (P4)). -/
def Obligations.ReadTraffic : Prop :=
  ∀ (s s1 : State) (a : VAddr), s.seq = .idle → s.resetReq = false → s.par.wf = true → s.env.bus = .oracle →
    exec (.rdvr a) s = .next s1 →
    ∃ n t evs, runs n s1 = .next t ∧ t.seq = .idle ∧ Grew s1 t (.done t.rsp.status :: evs) ∧
      callsIn evs ≤ 4 * s.par.txPollMax.toNat + 2 * s.par.rxPollMax.toNat + 3 ∧
      delaysIn evs ≤ 2 * s.par.txPollMax.toNat + s.par.rxPollMax.toNat ∧
      evs.countP (Event.isWrite s.par) ≤ 1 ∧ evs.countP (Event.isReadAccess s.par) ≤ 1 ∧
      (t.rsp.status = 0 → 9 ≤ callsIn evs ∧ t.response = .okByte t.regs.rx)

/-! Invariants and whole-machine rules. -/

/-- Every step, reset included, keeps the discipline of the trace: only the frames of R113, every byte to WRITE right after
a STATUS read with TX_VALID clear, every access to READ right after one with RX_VALID set (R77, R171 (P1), (P2)). -/
def Obligations.StepKeepsDiscipline : Prop :=
  ∀ s t : State, Disciplined s → step s = .next t → Disciplined t

/-- The machine after reset meets the discipline. -/
def Obligations.ResetIsDisciplined : Prop := Disciplined State.reset

/-- Every step, reset included, keeps the invariant of the registers: OP is the running command's opcode, A, D, BASE, DEV
and CH are what the phase needs, CNT and CNT2 stay within their bounds, the register file stays canonical (R24, R25,
R103, R117, R118, R120, R121). -/
def Obligations.StepKeepsEngineInvariant : Prop :=
  ∀ s t : State, EngineInv s → step s = .next t → EngineInv t

/-- The machine after reset meets the invariant. -/
def Obligations.ResetMeetsEngineInvariant : Prop := EngineInv State.reset

/-- No register carries information from one command to the next: two idle machines that differ only in the engine's,
response and result registers make the same calls and give the same responses for ever (R28, R27). So no statement rests
on the reset values of log entry 1. -/
def Obligations.OldRegistersDoNotMatter : Prop :=
  ∀ (s t s1 u : State) (i : Instr) (n : Nat), SameOutside s t → i.isCommand = true → exec i s = .next s1 →
    runs n s1 = .next u →
    ∃ t1 v, exec i t = .next t1 ∧ runs n t1 = .next v ∧ v.env = u.env ∧ v.seq = u.seq ∧ v.cmds = u.cmds ∧
      (u.seq = .idle → v.response = u.response)

/-- No step writes a parameter, and none changes who answers (R20, R65). -/
def Obligations.ParametersNeverChange : Prop :=
  ∀ s t : State, step s = .next t → t.par = s.par ∧ t.env.bus = s.env.bus

/-- The engine has no fatal state: whatever the oracle answers, every step has a next state (R255, R258). -/
def Obligations.NoFatalState : Prop := ∀ s : State, s.env.bus = .oracle → ∃ t, step s = .next t

/-! Reset. -/

/-- After reset SEQ is IDLE, BUSY is 0 and no response is pending (R55, R29). The last four clauses are the model's own
initial values and follow from no rule: no word waiting (log entries 6, 13), no reset applied (log entry 8), an empty
trace (log entry 10), a register file in canonical form (log entries 7, 14). The other registers
hold no value by the spec; that they are zero is the model's choice (log entry 1) and not stated here. -/
def Obligations.ResetState : Prop :=
  State.reset.seq = .idle ∧ State.reset.seqTuple = (.idle, .none, .none, .none) ∧ State.reset.busy = false ∧
  State.reset.rsp.pending = false ∧ State.reset.cmds = [] ∧ State.reset.resetReq = false ∧ State.reset.env.trace = [] ∧
  Memory.wf State.reset.env.sensor.vreg = true

/-- A reset at any moment, a command whose last call is made and whose response is not included: SEQ to IDLE, no response,
no external call, the command abandoned; the sensor and the transport are not touched (R280, R281, R282). That a reset is
a flag and an event on the trace, and that the CLIENT's waiting words stay, is the model's choice (log entry 8). -/
def Obligations.ResetAbandonsCommand : Prop :=
  ∀ s : State, s.resetReq = true →
    ∃ t, step s = .next t ∧ t.seq = .idle ∧ t.rsp.pending = false ∧ t.resetReq = false ∧ t.par = s.par ∧ t.cmds = s.cmds ∧
      t.env.sensor = s.env.sensor ∧ t.env.bus = s.env.bus ∧ t.env.calls = s.env.calls ∧
      t.env.txAnswers = s.env.txAnswers ∧ t.env.rxAnswers = s.env.rxAnswers ∧ Grew s t [.reset]

/-! The register file and the reference device of R88. -/

/-- A write to the register file is read back, every other register reads as before, and the canonical form is kept. -/
def Obligations.RegisterFileReadAfterWrite : Prop :=
  ∀ (m : Memory) (a : Nat) (b : Byte), Memory.wf m = true → a < Memory.size →
    Memory.wf (Memory.write m a b) = true ∧ Memory.read (Memory.write m a b) a = b ∧
    ∀ k, k ≠ a → Memory.read (Memory.write m a b) k = Memory.read m k

/-- A byte handed to WRITE on the reference device: a failing call reaches nothing; a byte handed over while TX_VALID is 1
is outside the device (R86, U2; log entry 9); the data byte of a write is stored at register `a` of the selected die and
nowhere else; the data byte of a write to 0x4F selects a die, or is outside the device; a write command byte waits for
its data; a read command byte puts the register's value in READ (R84, R85, R83, R72, R88). Under RD+B(nb) of file 95 a
write of the busy bit to CONTROL_SETUP starts the count of its reads, and a read of CONTROL_SETUP that finds the bit set
counts down, or clears it in that one register when the count is used up. That VDATA, VWRA and VRDA executed directly hand
their byte to WRITE is the model's choice of what these rows do (log entry 19). -/
def Obligations.ReferenceTakesByte : Prop :=
  ∀ (s : State) (rd : RefDevice) (i : Instr) (b : Byte), s.env.bus = .reference rd →
    (i = .wrWrite b ∨ i = .wrwrite b ∨ i = .vdata b ∨ (∃ a, i = .vwra a ∧ b = vwraByte a) ∨ (∃ a, i = .vrda a ∧ b = vrdaByte a)) →
    let x := s.env.sensor
    let tx := Event.transmit 0x49 [s.par.writeReg, b] s.par.xferTimeout
    (s.env.nextFails rd = true → ∃ t, exec i s = .next t ∧ t.ret = .busError ∧ t.env.sensor = x ∧ Grew s t [tx .busError]) ∧
    (s.env.nextFails rd = false → x.tc ≠ 0 → exec i s = .fault .rdWriteWhilePending) ∧
    (s.env.nextFails rd = false → x.tc = 0 → ∀ a, x.pend = .writeTo a → a ≠ 0x4F →
      ∃ t, exec i s = .next t ∧ t.ret = .ok ∧ t.env.sensor.pend = .none ∧ t.env.sensor.sel = x.sel ∧
        t.env.sensor.tc = rd.lt ∧ Grew s t [tx .ok] ∧
        (Memory.wf x.vreg = true → Memory.read t.env.sensor.vreg (vregAddr x.sel a) = b) ∧
        (∀ k, k ≠ vregAddr x.sel a → Memory.read t.env.sensor.vreg k = Memory.read x.vreg k) ∧
        ∀ nb, rd.busy = .times nb → a = s.par.controlSetupVaddr → b &&& s.par.measBusyMask ≠ 0 →
          t.env.sensor.bc = nb) ∧
    (s.env.nextFails rd = false → x.tc = 0 → x.pend = .writeTo 0x4F →
      (∀ d, Die.ofByte b = some d → ∃ t, exec i s = .next t ∧ t.ret = .ok ∧ t.env.sensor.sel = d ∧
        t.env.sensor.pend = .none ∧ SameVReg s t ∧ Grew s t [tx .ok]) ∧
      (Die.ofByte b = none → exec i s = .fault .rdSelectorOutOfRange)) ∧
    (s.env.nextFails rd = false → x.tc = 0 → x.pend = .none → b.getLsbD 7 = true →
      ∃ t, exec i s = .next t ∧ t.ret = .ok ∧ t.env.sensor.pend = .writeTo (b.extractLsb' 0 7) ∧
        t.env.sensor.sel = x.sel ∧ SameVReg s t ∧ Grew s t [tx .ok]) ∧
    (s.env.nextFails rd = false → x.tc = 0 → x.pend = .none → b.getLsbD 7 = false →
      ∃ t, exec i s = .next t ∧ t.ret = .ok ∧ t.env.sensor.pend = .none ∧ t.env.sensor.sel = x.sel ∧
        t.env.sensor.rdv = true ∧ t.env.sensor.rc = rd.lr ∧ Grew s t [tx .ok] ∧
        t.env.sensor.read = Memory.read t.env.sensor.vreg (vregAddr x.sel (b.extractLsb' 0 7)) ∧
        (∀ k, k ≠ vregAddr x.sel (b.extractLsb' 0 7) → Memory.read t.env.sensor.vreg k = Memory.read x.vreg k) ∧
        ((∀ nb, rd.busy = .times nb → b.extractLsb' 0 7 ≠ s.par.controlSetupVaddr) → SameVReg s t) ∧
        ∀ nb, rd.busy = .times nb → b.extractLsb' 0 7 = s.par.controlSetupVaddr →
          let v := Memory.read x.vreg (vregAddr x.sel s.par.controlSetupVaddr)
          (v &&& s.par.measBusyMask = 0 → SameVReg s t) ∧
          (v &&& s.par.measBusyMask ≠ 0 → x.bc ≠ 0 → SameVReg s t ∧ t.env.sensor.bc = x.bc - 1) ∧
          (v &&& s.par.measBusyMask ≠ 0 → x.bc = 0 → Memory.wf x.vreg = true →
            Memory.read t.env.sensor.vreg (vregAddr x.sel s.par.controlSetupVaddr) = v &&& ~~~s.par.measBusyMask))

/-- A pointer frame on the reference device sets the pointer and nothing else; a receive with the pointer at STATUS gives
the STATUS byte, bits 7:2 zero, and changes nothing but how long the bits still stand (S1, R81); one with the pointer at
READ takes a ready result, and is outside the device when none is ready (R86); no receive stores a register (R88). -/
def Obligations.ReferenceAnswersReads : Prop :=
  ∀ (s : State) (rd : RefDevice), s.env.bus = .reference rd → s.par.wf = true →
    let x := s.env.sensor
    (∀ y ∈ [(Instr.ptrStatus, s.par.statusReg), (Instr.ptrRead, s.par.readReg)],
      (s.env.nextFails rd = false → ∃ t, exec y.1 s = .next t ∧ t.ret = .ok ∧ t.env.sensor = { x with ptr := y.2 }) ∧
      (s.env.nextFails rd = true → ∃ t, exec y.1 s = .next t ∧ t.ret = .busError ∧ t.env.sensor = x)) ∧
    (s.env.nextFails rd = true → ∃ t, exec .get1 s = .next t ∧ t.ret = .busError ∧ t.env.sensor = x) ∧
    (s.env.nextFails rd = false → x.ptr = s.par.statusReg →
      ∃ t, exec .get1 s = .next t ∧ t.ret = .byte x.rdStatusByte ∧ x.rdStatusByte &&& 0xFC = 0 ∧
        txValid x.rdStatusByte = decide (x.tc ≠ 0) ∧ rxValid x.rdStatusByte = x.ready ∧
        t.env.sensor = { x with tc := t.env.sensor.tc, rc := t.env.sensor.rc }) ∧
    (s.env.nextFails rd = false → x.ptr = s.par.readReg →
      (x.ready = true → ∃ t, exec .get1 s = .next t ∧ t.ret = .byte x.read ∧ t.env.sensor = { x with rdv := false }) ∧
      (x.ready = false → exec .get1 s = .fault .rdReadNotReady))

/-- SELDEV on a reference device that is fast enough and between transactions answers OK and selects its die (R181, R85). -/
def Obligations.SeldevSelectsDie : Prop :=
  ∀ (s : State) (rd : RefDevice) (id : BitVec 2) (d : Die), s.seq = .idle → s.resetReq = false → s.par.wf = true →
    s.env.bus = .reference rd → rd.failAt = [] → rd.lt < s.par.txPollMax.toNat →
    s.env.sensor.pend = .none → s.env.sensor.tc < s.par.txPollMax.toNat → Die.ofByte (id.setWidth 8) = some d →
    ∃ s1 n t, exec (.seldev id) s = .next s1 ∧ runs n s1 = .next t ∧ t.seq = .idle ∧ t.response = .ok ∧
      t.env.sensor.sel = d ∧ t.env.sensor.pend = .none ∧ SameVReg s t

/-- Round trip on a reference device that is fast enough and between transactions: a byte written by WRVR is what RDVR of
the same address returns, for every address but the selector and, under RD+B(nb), CONTROL_SETUP, whose bytes do not
simply echo (R172). -/
def Obligations.WriteThenReadRoundTrip : Prop :=
  ∀ (s : State) (rd : RefDevice) (a : VAddr) (d : Byte), s.seq = .idle → s.resetReq = false → s.par.wf = true →
    s.env.bus = .reference rd → rd.failAt = [] → rd.lt < s.par.txPollMax.toNat → rd.lr ≤ s.par.rxPollMax.toNat →
    s.env.sensor.pend = .none → s.env.sensor.tc < s.par.txPollMax.toNat → Memory.wf s.env.sensor.vreg = true →
    a ≠ 0x4F → (∀ nb, rd.busy = .times nb → a ≠ s.par.controlSetupVaddr) →
    ∃ s1 n s2 s3 m t, exec (.wrvr a d) s = .next s1 ∧ runs n s1 = .next s2 ∧ s2.seq = .idle ∧ s2.response = .ok ∧
      exec (.rdvr a) s2 = .next s3 ∧ runs m s3 = .next t ∧ t.seq = .idle ∧ t.response = .okByte d

/-! Completion. -/

/-- The completion of an accepted command is a step of its own after its last call (R7, R23 (d), R104): SEQ to IDLE, the
status, the byte of an RDVR, the word of an RDFLT or the 18 values and FAIL bits of an RDALL that ended Ok (R31, R106), no
call, no register of R24, nothing of the sensor. A reset that arrives before it abandons the command without the response
(R281). The position of SEQ before the completion is the model's choice (log entry 4), and so are `rsp.pending` (log
entry 10) and the response's own copy of RES and FAIL (log entry 21). -/
def Obligations.CompletionResponds : Prop :=
  ∀ (s : State) (c : EndCtx) (k : BitVec 2), s.seq = .ending c k →
    (s.resetReq = false → ∃ t, EndsWith s t k ∧ t.ret = s.ret ∧ t.par = s.par ∧ t.cmds = s.cmds ∧
      t.env.sensor = s.env.sensor ∧ t.env.calls = s.env.calls ∧ t.env.txAnswers = s.env.txAnswers ∧
      t.env.rxAnswers = s.env.rxAnswers ∧
      (c = .rdvr → k = 0 → t.rsp.byte = s.regs.rx) ∧ (c = .rdflt → k = 0 → t.rsp.word = s.regs.acc) ∧
      (c = .rdall → k = 0 → t.rsp.res = s.regs.res ∧ t.rsp.fail = s.regs.fail)) ∧
    (s.resetReq = true → ∃ t, step s = .next t ∧ t.seq = .idle ∧ t.rsp.pending = false ∧ Grew s t [.reset])

/-- The response registers are written together when a command ends (the data of R106 on an Ok, a free value in every field
that holds none, log entry 5) and hold their values until the next one ends: every
other step, the acceptance of the next command and the calls of a running sweep among them, leaves all five as they are
(R31, R28). A step that makes a call never writes them. That RES and FAIL of the response are registers apart from those
the sweep fills is the model's choice (log entry 21); `rsp.pending` is log entry 10. -/
def Obligations.ResponseRegistersHeld : Prop :=
  ∀ s t : State, s.resetReq = false → step s = .next t →
    (s.issue.isSome = true → t.rsp = s.rsp) ∧
    (t.seq ≠ .idle ∨ (s.seq = .idle ∧ s.cmds = []) → t.rsp = { s.rsp with pending := t.rsp.pending }) ∧
    (t.seq = .idle ∧ (s.seq ≠ .idle ∨ s.cmds ≠ []) →
      ∃ d : RspData, t.rsp = d.rsp t.rsp.status s.env.fresh ∧
        (t.rsp.status = 0 → ∀ c k, s.seq = .ending c k → d = c.data s.regs) ∧ (t.rsp.status ≠ 0 → d = .nothing))
end

