-- ==== Sys2Proof/Laws/Bus.lean ====
section
/-! SUPPORT. The three outcomes of a transport call whatever answers it, and the frames of the micro-operations. -/

namespace Sys2Proof.Machine

theorem xferTx_cases (b : List Byte) (s : State) : (∃ f, ∀ q, (s.goto q).xferTx b = .error f) ∨
   (∃ e, ∀ q, (s.goto q).xferTx b = .ok (.ok, { s.goto q with env := e })) ∨ (∃ e, ∀ q, (s.goto q).xferTx b = .ok (.busError, { s.goto q with env := e })) := by
  cases h : s.env.transmit s.par b with
  | error f => exact .inl ⟨f, fun _ => by simp [State.xferTx, State.goto, h]⟩
  | ok p =>
    obtain ⟨a, e⟩ := p
    cases a
    · exact .inr (.inl ⟨e, fun _ => by simp [State.xferTx, State.goto, h, TxAnswer.ret]⟩)
    · exact .inr (.inr ⟨e, fun _ => by simp [State.xferTx, State.goto, h, TxAnswer.ret]⟩)
theorem xferRx_cases (b : Nat) (s : State) : (∃ f, ∀ q, (s.goto q).xferRx b = .error f) ∨
   (∃ e v, ∀ q, (s.goto q).xferRx b = .ok (.byte v, { s.goto q with env := e })) ∨ (∃ e, ∀ q, (s.goto q).xferRx b = .ok (.busError, { s.goto q with env := e })) := by
  cases h : s.env.receive s.par b with
  | error f => exact .inl ⟨f, fun _ => by simp [State.xferRx, State.goto, h]⟩
  | ok p =>
    obtain ⟨a, e⟩ := p
    cases a
    · exact .inr (.inl ⟨e, _, fun _ => by simp [State.xferRx, State.goto, h, RxAnswer.ret]; rfl⟩)
    · exact .inr (.inr ⟨e, fun _ => by simp [State.xferRx, State.goto, h, RxAnswer.ret]⟩)

theorem goto_self (s : State) : s.goto s.seq = s := rfl

/-- What a run may change: the environment, ST, CNT (a poll). -/
structure PollFrame (s t : State) : Prop where
  par : t.par = s.par
  seq : t.seq = s.seq
  rsp : t.rsp = s.rsp
  ret : t.ret = s.ret
  cmds : t.cmds = s.cmds
  rst : t.resetReq = s.resetReq
  regs : t.regs = { s.regs with st := t.regs.st, cnt := t.regs.cnt }

theorem PollFrame.refl (s : State) : PollFrame s s := ⟨rfl, rfl, rfl, rfl, rfl, rfl, rfl⟩
theorem PollFrame.trans {s t u} (h : PollFrame s t) (g : PollFrame t u) : PollFrame s u :=
  ⟨g.par.trans h.par, g.seq.trans h.seq, g.rsp.trans h.rsp, g.ret.trans h.ret, g.cmds.trans h.cmds, g.rst.trans h.rst, by
    rw [g.regs, h.regs]⟩
theorem PollFrame.env {s : State} {e} : PollFrame s {s with env := e} := ⟨rfl, rfl, rfl, rfl, rfl, rfl, rfl⟩

theorem xferTx_pollFrame {b s r t} (h : State.xferTx b s = .ok (r, t)) : PollFrame s t := by
  rcases xferTx_cases b s with ⟨f, g⟩ | ⟨e, g⟩ | ⟨e, g⟩ <;> have g := g s.seq <;> rw [goto_self] at g <;> rw [g] at h
  · cases h
  · cases h; exact .env
  · cases h; exact .env
theorem xferRx_pollFrame {b s r t} (h : State.xferRx b s = .ok (r, t)) : PollFrame s t := by
  rcases xferRx_cases b s with ⟨f, g⟩ | ⟨e, v, g⟩ | ⟨e, g⟩ <;> have g := g s.seq <;> rw [goto_self] at g <;> rw [g] at h
  · cases h
  · cases h; exact .env
  · cases h; exact .env

theorem tryThen_ok {x : Run} {k r t} (h : x.tryThen k = .ok (r, t)) :
    ∃ r' t', x = .ok (r', t') ∧ ((r'.failure.isSome = true ∧ r = r' ∧ t = t') ∨ (r'.failure = none ∧ k r' t' = .ok (r, t))) := by
  cases x with
  | error f => cases h
  | ok p =>
    obtain ⟨r', t'⟩ := p
    refine ⟨r', t', rfl, ?_⟩
    simp only [Run.tryThen] at h
    cases hf : r'.failure with
    | none => rw [hf] at h; exact .inr ⟨rfl, by simpa using h⟩
    | some f => rw [hf] at h; simp at h; exact .inl ⟨rfl, h.1.symm, h.2.symm⟩

theorem rdstatus_pollFrame {s r t} (h : State.rdstatus s = .ok (r, t)) : PollFrame s t := by
  obtain ⟨r1, t1, h1, ⟨-, rfl, rfl⟩ | ⟨-, h⟩⟩ := tryThen_ok h
  · exact xferTx_pollFrame h1
  · obtain ⟨r2, t2, h2, ⟨-, rfl, rfl⟩ | ⟨-, h⟩⟩ := tryThen_ok h
    · exact (xferTx_pollFrame h1).trans (xferRx_pollFrame h2)
    · refine ((xferTx_pollFrame h1).trans (xferRx_pollFrame h2)).trans ?_
      cases r2 <;> cases h <;> exact ⟨rfl, rfl, rfl, rfl, rfl, rfl, rfl⟩

theorem pollLoop_pollFrame {m w iv} : ∀ {n s r t}, pollLoop m w iv n s = .ok (r, t) → PollFrame s t := by
  intro n
  induction n with
  | zero => intro s r t h; cases h; exact .refl s
  | succ n ih =>
    intro s r t h
    unfold pollLoop at h
    obtain ⟨r1, t1, h1, ⟨-, rfl, rfl⟩ | ⟨-, h⟩⟩ := tryThen_ok h
    · exact rdstatus_pollFrame h1
    · refine (rdstatus_pollFrame h1).trans ?_
      have ha : PollFrame t1 t1.countAttempt := ⟨rfl, rfl, rfl, rfl, rfl, rfl, rfl⟩
      split at h
      · cases h; exact ha
      · refine (ha.trans ?_).trans (ih h); exact ⟨rfl, rfl, rfl, rfl, rfl, rfl, rfl⟩

theorem waitReady_pollFrame {k s r t} (h : State.waitReady k s = .ok (r, t)) : PollFrame s t := 
  PollFrame.trans (t := s.clearCount) ⟨rfl, rfl, rfl, rfl, rfl, rfl, rfl⟩ (pollLoop_pollFrame (s := s.clearCount) h)

theorem pollLoop_ret {m w iv} : ∀ {n s r t}, pollLoop m w iv n s = .ok (r, t) → r.failure = none → r = .ok := by
  intro n
  induction n with
  | zero => intro s r t h hr; cases h; cases hr
  | succ n ih =>
    intro s r t h hr
    unfold pollLoop at h
    obtain ⟨r1, t1, h1, ⟨hf, rfl, rfl⟩ | ⟨-, h⟩⟩ := tryThen_ok h
    · rw [hr] at hf; cases hf
    · split at h
      · cases h; rfl
      · exact ih h hr

end Sys2Proof.Machine
end

