-- ==== Sys2Proof/Laws/Run.lean ====
section
/-! SUPPORT. Runs of the machine cut and joined, and what a bounded run reaches. -/

namespace Sys2Proof.Machine

/-- The machine reaches the outcome `x` within `k` steps. -/
def Reaches (k : Nat) (s : State) (x : Except Fault State) : Prop := ∃ n, n ≤ k ∧ runs n s = ofPseudo x

theorem runs_zero (s : State) : runs 0 s = .next s := rfl
theorem runs_succ (n : Nat) (s : State) : runs (n+1) s = Out.andThen (step s) (runs n) := by
  unfold runs Out.andThen
  cases h : step s <;> simp only [Host.Core.run, show Sys2Proof.core.step s = _ from h] <;> rfl

theorem runs_add (m n : Nat) (s : State) : runs (m+n) s = Out.andThen (runs m s) (runs n) := by
  induction m generalizing s with
  | zero => rw [Nat.zero_add]; rfl
  | succ m ih =>
    rw [Nat.succ_add, runs_succ, runs_succ]
    cases step s with
    | next t => simp [Out.andThen, ih]
    | fault f => rfl
    | refused r => rfl

theorem reaches_zero {s : State} : Reaches 0 s (.ok s) := ⟨0, le_rfl, rfl⟩
theorem reaches_eq {s t : State} (h : s = t) : Reaches 0 s (.ok t) := h ▸ reaches_zero
theorem reaches_mono {k k' s x} (h : Reaches k s x) (hk : k ≤ k') : Reaches k' s x := by
  obtain ⟨n, hn, h⟩ := h; exact ⟨n, hn.trans hk, h⟩
theorem reaches_step {k : Nat} {s t : State} {x} (h : step s = .next t) (hr : Reaches k t x) : Reaches (k+1) s x := by
  obtain ⟨n, hn, h'⟩ := hr
  exact ⟨n+1, by omega, by rw [runs_succ, h]; exact h'⟩
theorem reaches_trans {k l : Nat} {s t : State} {x} (h : Reaches k s (.ok t)) (hr : Reaches l t x) : Reaches (k+l) s x := by
  obtain ⟨n, hn, h⟩ := h
  obtain ⟨m, hm, h'⟩ := hr
  exact ⟨n+m, by omega, by rw [runs_add, h]; exact h'⟩
theorem reaches_fault {s : State} {f} (h : step s = .fault f) : Reaches 1 s (.error f) :=
  ⟨1, le_rfl, by rw [runs_succ, h]; rfl⟩

end Sys2Proof.Machine
end

