-- ==== Sys2Proof/Laws/Poll.lean ====
section
/-! SUPPORT. A poll stepped call by call amounts to the loop of POLL (R147, R150), at any place of the sequencer. -/

namespace Sys2Proof.Machine

/-- A place of the sequencer where a poll runs: its kind, its positions, and what follows each exit. -/
structure PollSite where
  kind : PollKind
  at_ : PollPos → Seq
  hit : State → State
  fail : Failure → State → State
  issue : ∀ s p, State.issue (State.goto (at_ p) s) = some (p.issue kind)
  adv : ∀ (s : State) p, State.advance (s.goto (at_ p)) = State.withRet .ok
     (match State.pollMove kind p (s.goto (at_ p)) with
      | (.stay q, t) => t.goto (at_ q) | (.hit, t) => hit t | (.fail f, t) => fail f t)
  hit_goto : ∀ q s, hit (State.goto q s) = hit s
  fail_goto : ∀ q f s, fail f (State.goto q s) = fail f s
  hit_ret : ∀ r s, State.withRet .ok (hit (State.withRet r s)) = State.withRet .ok (hit s)
  fail_ret : ∀ r f s, State.withRet .ok (fail f (State.withRet r s)) = State.withRet .ok (fail f s)

def PollSite.after (S : PollSite) (x : Run) : Except Fault State :=
  match x with
  | .error f => .error f
  | .ok (r, t) => .ok (State.withRet .ok (match r.failure with | none => S.hit t | some f => S.fail f t))

theorem step_call {s : State} {i} (hr : s.resetReq = false) (hi : s.issue = some i) : step s = s.runCall i := by
  unfold step; simp [hr, hi]

theorem PollSite.step (S : PollSite) (s : State) (p : PollPos) (hr : s.resetReq = false) :
   Machine.step (s.goto (S.at_ p)) = (s.goto (S.at_ p)).runCall (p.issue S.kind) :=
  step_call (show (s.goto (S.at_ p)).resetReq = false from hr) (S.issue s p)

theorem hit_fwd (S : PollSite) {q r a b} (h : a = State.goto q (State.withRet r b)) :
  State.withRet .ok (S.hit a) = State.withRet .ok (S.hit b) := by
  subst h; rw [S.hit_goto, S.hit_ret]
theorem fail_fwd (S : PollSite) {q r a b f} (h : a = State.goto q (State.withRet r b)) :
  State.withRet .ok (S.fail f a) = State.withRet .ok (S.fail f b) := by
  subst h; rw [S.fail_goto, S.fail_ret]

theorem withRet_self {s : State} (h : s.ret = .ok) : State.withRet .ok s = s := by
  cases s; simp only at h; subst h; rfl

theorem poll_site (S : PollSite) (s : State) (left : Nat) (hr : s.resetReq = false) (hret : s.ret = .ok)
    (hl : left ≠ 0) (hc : s.regs.cnt.toNat + left = (S.kind.max s.par).toNat) :
    Reaches (3 * left) (s.goto (S.at_ .ptr)) (S.after (pollLoop S.kind.mask S.kind.want S.kind.interval left s)) := by
  induction left generalizing s with
  | zero => exact absurd rfl hl
  | succ n ih =>
    have hmax := (S.kind.max s.par).isLt
    unfold pollLoop State.rdstatus State.callPtrStatus
    rcases xferTx_cases [s.par.statusReg] s with ⟨f, h1⟩ | ⟨e1, h1⟩ | ⟨e1, h1⟩
    · refine reaches_mono (k := 1) ?_ (by omega)
      have h1' : s.xferTx [s.par.statusReg] = .error f := h1 s.seq
      rw [h1']; refine reaches_fault ?_
      rw [S.step s _ hr]
      have h := h1 (S.at_ .ptr)
      simp [State.runCall, PollPos.issue, exec, execPtrStatus, State.callPtrStatus, Run.finish, Out.andThen]
      rw [show (State.goto (S.at_ .ptr) s).par = s.par from rfl, h]
    · have h1' : s.xferTx [s.par.statusReg] = .ok (.ok, {s with env := e1}) := h1 s.seq
      rw [h1']
      have st1 : step (s.goto (S.at_ .ptr)) = .next (State.goto (S.at_ .get) {s with env := e1}) := by
        rw [S.step s _ hr]
        have h := h1 (S.at_ .ptr)
        simp only [State.runCall, PollPos.issue, exec, execPtrStatus, State.callPtrStatus, Out.andThen]
        rw [show (State.goto (S.at_ .ptr) s).par = s.par from rfl, h]
        simp only [Run.finish]
        rw [show State.withRet .ok { s.goto (S.at_ .ptr) with env := e1 } = State.goto (S.at_ .ptr) (State.withRet .ok {s with env := e1}) from rfl, S.adv]
        simp only [State.pollMove]
        rw [show (State.goto (S.at_ .ptr) (State.withRet .ok {s with env := e1})).ret = .ok from rfl]
        simp only
        cases s; simp only at hret; subst hret; rfl
      simp only [Run.tryThen, Ret.failure, Option.isSome, Bool.false_eq_true, if_false]
      unfold State.callGet1
      refine reaches_mono (k := (3 * n + 2) + 1) (reaches_step st1 ?_) (by omega)
      have iss := S.issue {s with env := e1} .get
      have run1 : step (State.goto (S.at_ .get) {s with env := e1}) =
         Out.andThen (Run.finish ((State.goto (S.at_ .get) {s with env := e1}).xferRx 1)) (fun t => .next t.advance) := by
        rw [S.step {s with env := e1} .get hr]; rfl
      rcases xferRx_cases 1 {s with env := e1} with ⟨f, h2⟩ | ⟨e2, v, h2⟩ | ⟨e2, h2⟩
      · refine reaches_mono (k := 1) ?_ (by omega)
        have h2' := h2 s.seq
        rw [show State.xferRx 1 {s with env := e1} = .error f from h2']; refine reaches_fault ?_
        rw [run1, h2]; rfl
      · rw [show State.xferRx 1 {s with env := e1} = .ok (.byte v, {s with env := e2}) from h2 s.seq]
        have st2 : step (State.goto (S.at_ .get) {s with env := e1}) = .next (State.advance (State.goto (S.at_ .get) (State.withRet (.byte v) {s with env := e2}))) := by
          rw [run1, h2]; rfl
        rw [S.adv] at st2
        simp only [State.pollMove] at st2
        rw [show (State.goto (S.at_ .get) (State.withRet (.byte v) {s with env := e2})).ret = .byte v from rfl] at st2
        simp only at st2
        simp only [Ret.failure, Option.isSome, Bool.false_eq_true, if_false]
        have hst : ((State.latchStatus v { s with env := e2 }).countAttempt).regs.st = v := rfl
        rw [hst]
        by_cases hh : pollHit S.kind.mask S.kind.want v = true
        · rw [if_pos hh]; rw [if_pos hh] at st2
          refine reaches_mono (k := 0+1) (reaches_step st2 ?_) (by omega)
          simp only [PollSite.after, Ret.failure]
          exact reaches_eq (hit_fwd S (q := S.at_ .get) (r := .byte v) (b := State.countAttempt (State.latchStatus v {s with env := e2})) rfl)
        · rw [if_neg hh]; rw [if_neg hh] at st2
          refine reaches_mono (k := (3 * n + 1) + 1) (reaches_step st2 ?_) (by omega)
          have hgoal : State.withRet .ok (State.goto (S.at_ .dly) (State.countAttempt (State.latchStatus v (State.goto (S.at_ .get) (State.withRet (.byte v) {s with env := e2}))))) = State.goto (S.at_ .dly) (State.countAttempt (State.latchStatus v {s with env := e2})) := by
            cases s; simp only at hret; subst hret; rfl
          simp only
          rw [hgoal]
          generalize hu : State.countAttempt (State.latchStatus v {s with env := e2}) = u
          have hur : u.resetReq = false := by rw [← hu]; exact hr
          have huret : u.ret = .ok := by rw [← hu]; exact hret
          have hup : u.par = s.par := by rw [← hu]; rfl
          have hucnt : u.regs.cnt.toNat = s.regs.cnt.toNat + 1 := by
            rw [← hu]; show (s.regs.cnt + 1).toNat = _
            rw [BitVec.toNat_add]; simp; omega
          have st3 : step (State.goto (S.at_ .dly) u) = .next (State.advance (State.goto (S.at_ .dly) (State.withRet .ok (u.doDelay S.kind.interval)))) := by
            rw [S.step u .dly hur]; rfl
          rw [S.adv] at st3
          simp only [State.pollMove] at st3
          rw [show (State.goto (S.at_ .dly) (State.withRet .ok (u.doDelay S.kind.interval))).regs = u.regs from rfl,
              show (State.goto (S.at_ .dly) (State.withRet .ok (u.doDelay S.kind.interval))).par = s.par from hup] at st3
          by_cases hlast : n = 0
          · subst hlast
            have : u.regs.cnt = S.kind.max s.par := by apply BitVec.eq_of_toNat_eq; omega
            rw [if_pos this] at st3
            refine reaches_mono (k := 0+1) (reaches_step st3 ?_) (by omega)
            simp only [pollLoop, PollSite.after, Ret.failure]
            exact reaches_eq (fail_fwd S (q := S.at_ .dly) (r := .ok) (b := u.doDelay S.kind.interval) rfl)
          · have : u.regs.cnt ≠ S.kind.max s.par := by intro h; rw [h] at hucnt; omega
            rw [if_neg this] at st3
            refine reaches_step st3 ?_
            have := ih (u.doDelay S.kind.interval) hur huret hlast (by show u.regs.cnt.toNat + n = (S.kind.max u.par).toNat; rw [hup]; omega)
            simp only
            have e : State.withRet .ok (State.goto (S.at_ .ptr) (State.goto (S.at_ .dly) (State.withRet .ok (u.doDelay S.kind.interval)))) = State.goto (S.at_ .ptr) (u.doDelay S.kind.interval) := by
              cases u; simp only at huret; subst huret; rfl
            rw [e]; exact this
      · rw [show State.xferRx 1 {s with env := e1} = .ok (.busError, {s with env := e2}) from h2 s.seq]
        have st2 : step (State.goto (S.at_ .get) {s with env := e1}) = .next (State.advance (State.goto (S.at_ .get) (State.withRet .busError {s with env := e2}))) := by
          rw [run1, h2]; rfl
        rw [S.adv] at st2
        simp only [State.pollMove] at st2
        refine reaches_mono (k := 0+1) (reaches_step st2 ?_) (by omega)
        simp only [Ret.failure, Option.isSome, if_true, PollSite.after]
        rw [show (State.goto (S.at_ .get) (State.withRet .busError {s with env := e2})).ret = .busError from rfl]
        simp only
        exact reaches_eq (fail_fwd S (q := S.at_ .get) (r := .busError) (b := {s with env := e2}) rfl)
    · rw [show s.xferTx [s.par.statusReg] = .ok (.busError, {s with env := e1}) from h1 s.seq]
      have st1 : step (s.goto (S.at_ .ptr)) = .next (State.advance (State.goto (S.at_ .ptr) (State.withRet .busError {s with env := e1}))) := by
        rw [S.step s _ hr]
        have h := h1 (S.at_ .ptr)
        simp only [State.runCall, PollPos.issue, exec, execPtrStatus, State.callPtrStatus, Out.andThen]
        rw [show (State.goto (S.at_ .ptr) s).par = s.par from rfl, h]
        rfl
      rw [S.adv] at st1
      simp only [State.pollMove] at st1
      refine reaches_mono (k := 0+1) (reaches_step st1 ?_) (by omega)
      simp only [Run.tryThen, Ret.failure, Option.isSome, if_true, PollSite.after]
      rw [show (State.goto (S.at_ .ptr) (State.withRet .busError {s with env := e1})).ret = .busError from rfl]
      simp only
      exact reaches_eq (fail_fwd S (q := S.at_ .ptr) (r := .busError) (b := {s with env := e1}) rfl)

end Sys2Proof.Machine
end

