-- ==== Sys2Proof/Laws/Handshake.lean ====
section
/-! SUPPORT. The steps of a virtual-register write and read amount to their pseudocode (R160, R161, R165, R166). -/

namespace Sys2Proof.Machine

/-- Close a run with what follows it. -/
def close (done : State → State) (fail : Failure → State → State) (x : Run) : Except Fault State :=
  match x with
  | .error f => .error f
  | .ok (r, t) => .ok (State.withRet .ok (match r.failure with | none => done t | some f => fail f t))

theorem reaches_try {x : Run} {k n m s hit fail done} (h : Reaches n s (close hit fail x))
   (h2 : ∀ r t, x = .ok (r,t) → r.failure = none → Reaches m (State.withRet .ok (hit t)) (close done fail (k r t))) :
   Reaches (n+m) s (close done fail (x.tryThen k)) := by
  cases x with
  | error f => exact reaches_mono h (by omega)
  | ok p =>
    obtain ⟨r, t⟩ := p
    have h2 := h2 r t rfl
    cases hf : r.failure with
    | none =>
      simp only [close, hf] at h
      simp only [Run.tryThen, hf, Option.isSome, Bool.false_eq_true, if_false]
      exact reaches_trans h (h2 hf)
    | some f =>
      simp only [close, hf] at h
      simp only [Run.tryThen, hf, Option.isSome, if_true, close]
      exact reaches_mono h (by omega)

theorem setChannel_goto (q w f) (s : State) : (s.goto q).setChannel w f = (s.setChannel w f).goto q := rfl
theorem substituteDie_goto (q) (s : State) : (s.goto q).substituteDie = s.substituteDie.goto q := rfl
theorem substituteDie_ret (q) (s : State) : (s.withRet q).substituteDie = s.substituteDie.withRet q := rfl
theorem nextDie_goto (q) (s : State) : (s.goto q).nextDie = s.nextDie := by
  unfold State.nextDie; rfl
theorem nextDie_ret (r) (s : State) : (s.withRet r).nextDie.withRet .ok = s.nextDie.withRet .ok := by
  unfold State.nextDie
  show (if s.regs.dev.toNat < 2 then _ else _ : State).withRet .ok = _
  split <;> rfl
theorem nextChannel_goto (q) (s : State) : (s.goto q).nextChannel = s.nextChannel := by
  unfold State.nextChannel; rw [nextDie_goto]; rfl
theorem nextChannel_ret (r) (s : State) : (s.withRet r).nextChannel.withRet .ok = s.nextChannel.withRet .ok := by
  unfold State.nextChannel
  show (if s.regs.ch.toNat < 5 then _ else _ : State).withRet .ok = _
  split
  · rfl
  · exact nextDie_ret r s

theorem failWrite_goto (c f q) (s : State) : (s.goto q).failWrite c f = s.failWrite c f := by
  cases c with
  | sweepSel => simp only [State.failWrite]; rw [substituteDie_goto, nextDie_goto]
  | _ => rfl
theorem failWrite_ret (c f r) (s : State) : ((s.withRet r).failWrite c f).withRet .ok = (s.failWrite c f).withRet .ok := by
  cases c with
  | sweepSel => simp only [State.failWrite]; rw [substituteDie_ret, nextDie_ret]
  | _ => rfl
theorem failRead_goto (c f q) (s : State) : (s.goto q).failRead c f = s.failRead c f := by
  cases c with
  | sweepFlt => simp only [State.failRead]; exact nextChannel_goto q s.substitute
  | _ => rfl
theorem failRead_ret (c f r) (s : State) : ((s.withRet r).failRead c f).withRet .ok = (s.failRead c f).withRet .ok := by
  cases c with
  | sweepFlt => simp only [State.failRead]; exact nextChannel_ret r s.substitute
  | _ => rfl
theorem doneWrite_goto (c q) (s : State) : (s.goto q).doneWrite c = s.doneWrite c := by
  cases c <;> rfl
theorem doneWrite_ret (c r) (s : State) : ((s.withRet r).doneWrite c).withRet .ok = (s.doneWrite c).withRet .ok := by
  cases c <;> rfl
theorem doneRead_goto (c q) (s : State) : (s.goto q).doneRead c = s.doneRead c := by
  cases c with
  | flt i => unfold State.doneRead; split <;> rfl
  | sweepFlt i =>
    unfold State.doneRead; simp only; split
    · exact nextChannel_goto q ((s.mergeRead i).setChannel (s.mergeRead i).regs.acc false)
    · rfl
  | measPoll =>
    unfold State.doneRead
    show (if measBusy s.par s.regs.rx = true then _ else _) = (if measBusy s.par s.regs.rx = true then _ else _)
    split <;> rfl
  | _ => rfl
theorem doneRead_ret (c r) (s : State) : ((s.withRet r).doneRead c).withRet .ok = (s.doneRead c).withRet .ok := by
  cases c with
  | flt i => unfold State.doneRead; simp only; split <;> rfl
  | sweepFlt i =>
    unfold State.doneRead; simp only; split
    · exact nextChannel_ret r ((s.mergeRead i).setChannel (s.mergeRead i).regs.acc false)
    · rfl
  | measPoll =>
    unfold State.doneRead
    show State.withRet .ok (if measBusy s.par s.regs.rx = true then _ else _) = State.withRet .ok (if measBusy s.par s.regs.rx = true then _ else _)
    split <;> rfl
  | _ => rfl

theorem step_goto {q s i} (hr : State.resetReq s = false) (hi : (State.goto q s).issue = some i) :
  Machine.step (State.goto q s) = (State.goto q s).runCall i := step_call (show (s.goto q).resetReq = false from hr) hi

def siteWA (c : WCtx) : PollSite where
  kind := .tx
  at_ p := .writing c (.wA p)
  hit := State.goto (.writing c .wB)
  fail f t := t.failWrite c f
  issue _ _ := rfl
  adv s p := rfl
  hit_goto _ _ := rfl
  fail_goto _ _ _ := failWrite_goto _ _ _ _
  hit_ret _ _ := rfl
  fail_ret _ _ _ := failWrite_ret _ _ _ _
def siteWC (c : WCtx) : PollSite where
  kind := .tx
  at_ p := .writing c (.wC p)
  hit := State.goto (.writing c .wD)
  fail f t := t.failWrite c f
  issue _ _ := rfl
  adv s p := rfl
  hit_goto _ _ := rfl
  fail_goto _ _ _ := failWrite_goto _ _ _ _
  hit_ret _ _ := rfl
  fail_ret _ _ _ := failWrite_ret _ _ _ _
def siteWE (c : WCtx) : PollSite where
  kind := .tx
  at_ p := .writing c (.wE p)
  hit := State.doneWrite c
  fail f t := t.failWrite c f
  issue _ _ := rfl
  adv s p := rfl
  hit_goto _ _ := doneWrite_goto _ _ _
  fail_goto _ _ _ := failWrite_goto _ _ _ _
  hit_ret _ _ := doneWrite_ret _ _ _
  fail_ret _ _ _ := failWrite_ret _ _ _ _
def siteRA (c : RCtx) : PollSite where
  kind := .tx
  at_ p := .reading c (.rA p)
  hit := State.goto (.reading c .rB)
  fail f t := t.failRead c f
  issue _ _ := rfl
  adv s p := rfl
  hit_goto _ _ := rfl
  fail_goto _ _ _ := failRead_goto _ _ _ _
  hit_ret _ _ := rfl
  fail_ret _ _ _ := failRead_ret _ _ _ _
def siteRC (c : RCtx) : PollSite where
  kind := .tx
  at_ p := .reading c (.rC p)
  hit t := t.clearCount.goto (.reading c (.rD .ptr))
  fail f t := t.failRead c f
  issue _ _ := rfl
  adv s p := rfl
  hit_goto _ _ := rfl
  fail_goto _ _ _ := failRead_goto _ _ _ _
  hit_ret _ _ := rfl
  fail_ret _ _ _ := failRead_ret _ _ _ _
def siteRD (c : RCtx) : PollSite where
  kind := .rx
  at_ p := .reading c (.rD p)
  hit := State.goto (.reading c (.rE .ptr))
  fail f t := t.failRead c f
  issue _ _ := rfl
  adv s p := rfl
  hit_goto _ _ := rfl
  fail_goto _ _ _ := failRead_goto _ _ _ _
  hit_ret _ _ := rfl
  fail_ret _ _ _ := failRead_ret _ _ _ _

/-- Entering a poll site with a cleared count runs WAIT. -/
theorem wait_site (S : PollSite) (s : State) (hr : s.resetReq = false) (hret : s.ret = .ok)
    (hm : S.kind.max s.par ≠ 0) :
    Reaches (3 * (S.kind.max s.par).toNat) (s.clearCount.goto (S.at_ .ptr)) (close S.hit S.fail (s.waitReady S.kind)) := by
  have h := poll_site S s.clearCount (S.kind.max s.par).toNat hr hret
    (by intro h; exact hm (BitVec.eq_of_toNat_eq (by simpa using h))) (by show (0#16).toNat + _ = _; simp; rfl)
  exact h

/-- The step that hands a byte to WRITE. -/
theorem send_site (q : Seq) (b : Byte) (s : State) (hr : s.resetReq = false) (hret : s.ret = .ok) (hit fail)
    (hq : Machine.step (s.goto q) = Out.andThen (Run.finish ((s.goto q).callWrWrite b)) (fun t => .next t.advance))
    (hadv : ∀ t : State, State.advance ((t.goto q)) = State.withRet .ok (match t.ret with | .ok => hit (t.goto q) | _ => fail .busError (t.goto q)))
    (hh : ∀ q r t, State.withRet .ok (hit (State.goto q (State.withRet r t))) = State.withRet .ok (hit t))
    (hf : ∀ q r f t, State.withRet .ok (fail f (State.goto q (State.withRet r t))) = State.withRet .ok (fail f t)) :
    Reaches 1 (s.goto q) (close hit fail (s.callWrWrite b)) := by
  unfold State.callWrWrite at *
  rcases xferTx_cases [s.par.writeReg, b] s with ⟨f, h⟩ | ⟨e, h⟩ | ⟨e, h⟩
  · rw [show s.xferTx [s.par.writeReg, b] = _ from h s.seq]
    refine reaches_fault ?_
    rw [hq, show (s.goto q).par = s.par from rfl, h]; rfl
  · rw [show s.xferTx [s.par.writeReg, b] = _ from h s.seq]
    refine reaches_step (k := 0) (t := State.advance (State.goto q (State.withRet .ok {s with env := e}))) ?_ ?_
    · rw [hq, show (s.goto q).par = s.par from rfl, h]; rfl
    · rw [hadv]
      exact reaches_eq (hh q .ok {s with env := e})
  · rw [show s.xferTx [s.par.writeReg, b] = _ from h s.seq]
    refine reaches_step (k := 0) (t := State.advance (State.goto q (State.withRet .busError {s with env := e}))) ?_ ?_
    · rw [hq, show (s.goto q).par = s.par from rfl, h]; rfl
    · rw [hadv]
      exact reaches_eq (hf q .busError .busError {s with env := e})

theorem failWrite_close (c q r f) (t : State) : State.withRet .ok (State.failWrite c f (State.goto q (State.withRet r t))) = State.withRet .ok (State.failWrite c f t) := by
  rw [failWrite_goto, failWrite_ret]
theorem failRead_close (c q r f) (t : State) : State.withRet .ok (State.failRead c f (State.goto q (State.withRet r t))) = State.withRet .ok (State.failRead c f t) := by
  rw [failRead_goto, failRead_ret]

theorem send_wB (c) (s : State) (hr : s.resetReq = false) (hret : s.ret = .ok) :
    Reaches 1 (s.goto (.writing c .wB)) (close (fun t => t.clearCount.goto (.writing c (.wC .ptr))) (fun f t => t.failWrite c f) (s.callWrWrite (vwraByte s.regs.a))) :=
  send_site _ _ s hr hret _ _ (by rw [step_goto (i := .vwra s.regs.a) hr rfl]; rfl) (fun _ => rfl) (fun _ _ _ => rfl) (fun _ _ _ _ => failWrite_close _ _ _ _ _)
theorem send_wD (c) (s : State) (hr : s.resetReq = false) (hret : s.ret = .ok) :
    Reaches 1 (s.goto (.writing c .wD)) (close (fun t => t.clearCount.goto (.writing c (.wE .ptr))) (fun f t => t.failWrite c f) (s.callWrWrite s.regs.d)) :=
  send_site _ _ s hr hret _ _ (by rw [step_goto (i := .vdata s.regs.d) hr rfl]; rfl) (fun _ => rfl) (fun _ _ _ => rfl) (fun _ _ _ _ => failWrite_close _ _ _ _ _)
theorem send_rB (c) (s : State) (hr : s.resetReq = false) (hret : s.ret = .ok) :
    Reaches 1 (s.goto (.reading c .rB)) (close (fun t => t.clearCount.goto (.reading c (.rC .ptr))) (fun f t => t.failRead c f) (s.callWrWrite (vrdaByte s.regs.a))) :=
  send_site _ _ s hr hret _ _ (by rw [step_goto (i := .vrda s.regs.a) hr rfl]; rfl) (fun _ => rfl) (fun _ _ _ => rfl) (fun _ _ _ _ => failRead_close _ _ _ _ _)

theorem step_get (c) (s : State) (hr : s.resetReq = false) (hret : s.ret = .ok) :
    Reaches 1 (s.goto (.reading c (.rE .get))) (close (State.doneRead c) (fun f t => t.failRead c f)
      (s.callGet1.tryThen fun r u => match r with | .byte b => .ok (.byte b, u.latchRead b) | .ok | .timeout | .busError => .ok (r, u))) := by
  have hs : Machine.step (s.goto (.reading c (.rE .get))) = Out.andThen (Run.finish ((s.goto (.reading c (.rE .get))).callGet1)) (fun t => .next t.advance) := by
    rw [step_goto (i := .get1) hr rfl]; rfl
  unfold State.callGet1 at *
  rcases xferRx_cases 1 s with ⟨f, h⟩ | ⟨e, v, h⟩ | ⟨e, h⟩
  · rw [show s.xferRx 1 = _ from h s.seq]
    refine reaches_fault ?_
    rw [hs, h]; rfl
  · rw [show s.xferRx 1 = _ from h s.seq]
    refine reaches_step (k := 0) (t := State.advance (State.goto (.reading c (.rE .get)) (State.withRet (.byte v) {s with env := e}))) ?_ ?_
    · rw [hs, h]; rfl
    · show Reaches 0 (State.withRet .ok (State.doneRead c (State.goto (.reading c (.rE .get)) (State.withRet (.byte v) (State.latchRead v {s with env := e}))))) _
      rw [doneRead_goto, doneRead_ret]; exact reaches_zero
  · rw [show s.xferRx 1 = _ from h s.seq]
    refine reaches_step (k := 0) (t := State.advance (State.goto (.reading c (.rE .get)) (State.withRet .busError {s with env := e}))) ?_ ?_
    · rw [hs, h]; rfl
    · exact reaches_eq (failRead_close c (.reading c (.rE .get)) .busError .busError {s with env := e})

theorem step_ptr (c) (s : State) (hr : s.resetReq = false) (hret : s.ret = .ok) :
    Reaches 1 (s.goto (.reading c (.rE .ptr))) (close (State.goto (.reading c (.rE .get))) (fun f t => t.failRead c f) s.callPtrRead) := by
  have hs : Machine.step (s.goto (.reading c (.rE .ptr))) = Out.andThen (Run.finish ((s.goto (.reading c (.rE .ptr))).callPtrRead)) (fun t => .next t.advance) := by
    rw [step_goto (i := .ptrRead) hr rfl]; rfl
  unfold State.callPtrRead at *
  rcases xferTx_cases [s.par.readReg] s with ⟨f, h⟩ | ⟨e, h⟩ | ⟨e, h⟩
  · rw [show s.xferTx [s.par.readReg] = _ from h s.seq]
    refine reaches_fault ?_
    rw [hs, show (s.goto (.reading c (.rE .ptr))).par = s.par from rfl, h]; rfl
  · rw [show s.xferTx [s.par.readReg] = _ from h s.seq]
    refine reaches_step (k := 0) (t := State.advance (State.goto (.reading c (.rE .ptr)) (State.withRet .ok {s with env := e}))) ?_ ?_
    · rw [hs, show (s.goto (.reading c (.rE .ptr))).par = s.par from rfl, h]; rfl
    · exact reaches_zero
  · rw [show s.xferTx [s.par.readReg] = _ from h s.seq]
    refine reaches_step (k := 0) (t := State.advance (State.goto (.reading c (.rE .ptr)) (State.withRet .busError {s with env := e}))) ?_ ?_
    · rw [hs, show (s.goto (.reading c (.rE .ptr))).par = s.par from rfl, h]; rfl
    · exact reaches_eq (failRead_close c (.reading c (.rE .ptr)) .busError .busError {s with env := e})

theorem wf_max {p : Params} (h : p.wf = true) (k : PollKind) : k.max p ≠ 0 := by
  unfold Params.wf at h
  simp only [Bool.and_eq_true, decide_eq_true_eq] at h
  cases k <;> tauto

theorem withRet_fwd {s : State} {f : State → State} (h : s.ret = .ok) (hf : (f s).ret = s.ret) : State.withRet .ok (f s) = f s :=
  withRet_self (hf.trans h)

theorem write_runs (c : WCtx) (a : VAddr) (d : Byte) (s : State) (hr : s.resetReq = false) (hret : s.ret = .ok) (hw : s.par.wf = true) :
    Reaches (writeSteps s.par) (s.beginWrite c a d) (close (State.doneWrite c) (fun f t => t.failWrite c f) (s.pseudoWrvr a d)) := by
  have m := fun p (h : Params.wf p = true) => wf_max h .tx
  unfold State.pseudoWrvr
  refine reaches_mono (k := 3 * s.par.txPollMax.toNat + (1 + (3 * s.par.txPollMax.toNat + (1 + 3 * s.par.txPollMax.toNat)))) ?_ (by unfold writeSteps; omega)
  refine reaches_try (wait_site (siteWA c) (s.loadWrite a d) hr hret (m _ hw)) fun r t h _ => ?_
  have f1 : PollFrame _ t := waitReady_pollFrame h
  have hrt : t.resetReq = false := f1.rst.trans hr
  have hrett : t.ret = .ok := f1.ret.trans hret
  have hp : t.par = s.par := f1.par
  rw [withRet_self (s := (siteWA c).hit t) hrett]
  refine reaches_try (send_wB c t hrt hrett) fun r u h _ => ?_
  have f2 : PollFrame _ u := xferTx_pollFrame h
  rw [withRet_self (s := State.goto (.writing c (.wC .ptr)) u.clearCount) (f2.ret.trans hrett)]
  have := wait_site (siteWC c) u (f2.rst.trans hrt) (f2.ret.trans hrett) (m _ (by rw [f2.par, hp]; exact hw))
  rw [show (siteWC c).kind.max u.par = s.par.txPollMax from by show u.par.txPollMax = _; rw [f2.par, hp]] at this
  refine reaches_try this fun r v h _ => ?_
  have f3 : PollFrame _ v := waitReady_pollFrame h
  have hv := ((f3.ret.trans f2.ret).trans hrett)
  have hvr := ((f3.rst.trans f2.rst).trans hrt)
  rw [withRet_self (s := (siteWC c).hit v) hv]
  refine reaches_try (send_wD c v hvr hv) fun r x h _ => ?_
  have f4 : PollFrame _ x := xferTx_pollFrame h
  rw [withRet_self (s := State.goto (.writing c (.wE .ptr)) x.clearCount) (f4.ret.trans hv)]
  have hpx : x.par = s.par := f4.par.trans (f3.par.trans (f2.par.trans hp))
  have := wait_site (siteWE c) x (f4.rst.trans hvr) (f4.ret.trans hv) (m _ (by rw [hpx]; exact hw))
  rw [show (siteWE c).kind.max x.par = s.par.txPollMax from by show x.par.txPollMax = _; rw [hpx]] at this
  exact this

theorem read_runs (c : RCtx) (a : VAddr) (s : State) (hr : s.resetReq = false) (hret : s.ret = .ok) (hw : s.par.wf = true) :
    Reaches (readSteps s.par) (s.beginRead c a) (close (State.doneRead c) (fun f t => t.failRead c f) (s.pseudoRdvr a)) := by
  unfold State.pseudoRdvr
  refine reaches_mono (k := 3 * s.par.txPollMax.toNat + (1 + (3 * s.par.txPollMax.toNat + (3 * s.par.rxPollMax.toNat + (1 + 1))))) ?_ (by unfold readSteps; omega)
  refine reaches_try (wait_site (siteRA c) (s.loadRead a) hr hret (wf_max hw .tx)) fun r t h _ => ?_
  have f1 : PollFrame _ t := waitReady_pollFrame h
  have hrt : t.resetReq = false := f1.rst.trans hr
  have hrett : t.ret = .ok := f1.ret.trans hret
  have hp : t.par = s.par := f1.par
  rw [withRet_self (s := (siteRA c).hit t) hrett]
  refine reaches_try (send_rB c t hrt hrett) fun r u h _ => ?_
  have f2 : PollFrame _ u := xferTx_pollFrame h
  have hu := f2.ret.trans hrett
  have hur := f2.rst.trans hrt
  have hup := f2.par.trans hp
  rw [withRet_self (s := State.goto (.reading c (.rC .ptr)) u.clearCount) hu]
  have := wait_site (siteRC c) u hur hu (wf_max (by rw [hup]; exact hw) .tx)
  rw [show (siteRC c).kind.max u.par = s.par.txPollMax from by show u.par.txPollMax = _; rw [hup]] at this
  refine reaches_try this fun r v h _ => ?_
  have f3 : PollFrame _ v := waitReady_pollFrame h
  have hv := f3.ret.trans hu
  have hvr := f3.rst.trans hur
  have hvp := f3.par.trans hup
  rw [withRet_self (s := (siteRC c).hit v) hv]
  have := wait_site (siteRD c) v hvr hv (wf_max (by rw [hvp]; exact hw) .rx)
  rw [show (siteRD c).kind.max v.par = s.par.rxPollMax from by show v.par.rxPollMax = _; rw [hvp]] at this
  refine reaches_try this fun r x h _ => ?_
  have f4 : PollFrame _ x := waitReady_pollFrame h
  have hx := f4.ret.trans hv
  have hxr := f4.rst.trans hvr
  rw [withRet_self (s := (siteRD c).hit x) hx]
  unfold State.rdread
  refine reaches_try (step_ptr c x hxr hx) fun r y h _ => ?_
  have f5 : PollFrame _ y := xferTx_pollFrame h
  rw [withRet_self (s := State.goto (.reading c (.rE .get)) y) (f5.ret.trans hx)]
  exact step_get c y (f5.rst.trans hxr) (f5.ret.trans hx)

end Sys2Proof.Machine
end

