-- ==== Sys2Proof/Laws/Memory.lean ====
section
/-! SUPPORT. The register file: its canonical form is kept by every operation, and reads see writes. -/

namespace Sys2Proof.Machine

/-- A bound below every address may be lowered. -/
theorem Memory.wfAbove_mono {lo lo' : Nat} {m : Memory} (h : Memory.wfAbove lo m = true) (hl : lo' ≤ lo) :
    Memory.wfAbove lo' m = true := by
  cases m with
  | nil => rfl
  | cons c rest =>
    obtain ⟨k, v⟩ := c
    simp only [Memory.wfAbove, Bool.and_eq_true, decide_eq_true_eq] at h ⊢
    exact ⟨⟨⟨by omega, h.1.1.2⟩, h.1.2⟩, h.2⟩

/-- Below the first address every register reads as the background. -/
theorem Memory.read_below {lo a : Nat} {m : Memory} (h : Memory.wfAbove lo m = true) (ha : a < lo) :
    Memory.read m a = Memory.background := by
  induction m generalizing lo with
  | nil => rfl
  | cons c rest ih =>
    obtain ⟨k, v⟩ := c
    simp only [Memory.wfAbove, Bool.and_eq_true, decide_eq_true_eq] at h
    rw [Memory.read, if_neg (by omega)]
    exact ih h.2 (by omega)

/-- A write at an address that exists keeps the canonical form above any bound not above that address. -/
theorem Memory.wfAbove_write {lo a : Nat} {b : Byte} {m : Memory} (h : Memory.wfAbove lo m = true) (hl : lo ≤ a)
    (ha : a < Memory.size) : Memory.wfAbove lo (Memory.write m a b) = true := by
  induction m generalizing lo with
  | nil =>
    unfold Memory.write
    split
    · rfl
    · simp [Memory.wfAbove, *]
  | cons c rest ih =>
    obtain ⟨k, v⟩ := c
    have hs := h
    simp only [Memory.wfAbove, Bool.and_eq_true, decide_eq_true_eq] at h
    obtain ⟨⟨⟨h1, h2⟩, h3⟩, h4⟩ := h
    unfold Memory.write
    split
    · split
      · exact hs
      · simp only [Memory.wfAbove, Bool.and_eq_true, decide_eq_true_eq]
        exact ⟨⟨⟨hl, ha⟩, by assumption⟩, ⟨⟨by omega, h2⟩, h3⟩, h4⟩
    · split
      · split
        · exact Memory.wfAbove_mono h4 (by omega)
        · simp only [Memory.wfAbove, Bool.and_eq_true, decide_eq_true_eq]
          exact ⟨⟨⟨hl, ha⟩, by assumption⟩, by subst_vars; exact h4⟩
      · simp only [Memory.wfAbove, Bool.and_eq_true, decide_eq_true_eq]
        exact ⟨⟨⟨h1, h2⟩, h3⟩, ih h4 (by omega)⟩

/-- A write keeps the canonical form. -/
theorem Memory.wf_write {a : Nat} {b : Byte} {m : Memory} (h : Memory.wf m = true) (ha : a < Memory.size) :
    Memory.wf (Memory.write m a b) = true := Memory.wfAbove_write h (Nat.zero_le a) ha

/-- A read of the address just written gives the byte written. -/
theorem Memory.read_write_above {lo a : Nat} {b : Byte} {m : Memory} (h : Memory.wfAbove lo m = true) :
    Memory.read (Memory.write m a b) a = b := by
  induction m generalizing lo with
  | nil =>
    unfold Memory.write
    split
    · simp_all [Memory.read]
    · simp [Memory.read]
  | cons c rest ih =>
    obtain ⟨k, v⟩ := c
    have hs := h
    simp only [Memory.wfAbove, Bool.and_eq_true, decide_eq_true_eq] at h
    unfold Memory.write
    split
    · split
      · rw [Memory.read, if_neg (by omega), Memory.read_below h.2 (by omega)]; simp_all
      · simp [Memory.read]
    · split
      · split
        · rw [Memory.read_below h.2 (by omega)]; simp_all
        · simp [Memory.read]
      · rw [Memory.read, if_neg (by omega)]; exact ih h.2

/-- The same, of a file in canonical form. -/
theorem Memory.read_write_same {a : Nat} {b : Byte} {m : Memory} (h : Memory.wf m = true) :
    Memory.read (Memory.write m a b) a = b := Memory.read_write_above h

/-- A write leaves every other address alone, whatever the form. -/
theorem Memory.read_write_other {a a' : Nat} {b : Byte} {m : Memory} (ha : a' ≠ a) :
    Memory.read (Memory.write m a b) a' = Memory.read m a' := by
  induction m with
  | nil => unfold Memory.write; split <;> simp [Memory.read, ha.symm]
  | cons c rest ih =>
    obtain ⟨k, v⟩ := c
    unfold Memory.write
    split
    · split <;> simp [Memory.read, ha.symm]
    · split
      · subst_vars; split <;> simp [Memory.read, ha.symm]
      · simp [Memory.read, ih]

/-- The file of any cells is in canonical form. -/
theorem Memory.wf_ofCells (cells : List Host.Cell) : Memory.wf (Memory.ofCells cells) = true := by
  have key : ∀ (cells : List Host.Cell) (m : Memory), Memory.wf m = true →
      Memory.wf (cells.foldl (fun m c => if c.1 < Memory.size then Memory.write m c.1 c.2 else m) m) = true := by
    intro cells
    induction cells with
    | nil => intro m h; exact h
    | cons c rest ih =>
      intro m h
      refine ih _ ?_
      simp only
      split
      · exact Memory.wf_write h (by assumption)
      · exact h
  exact key cells [] rfl

/-- Every register of every die has an address of the file (R44, R72). -/
theorem vregAddr_lt (d : Die) (a : VAddr) : vregAddr d a < Memory.size := by
  have := a.isLt
  cases d <;> simp [vregAddr, Die.index, Memory.size] <;> omega

/-- A virtual-register read stores, if anything, in the register that is read (RD+B). -/
theorem Sensor.settleBusy_other {p : Params} {rd : RefDevice} {a : VAddr} {x : Sensor} {k : Nat} (hk : k ≠ vregAddr x.sel a) :
    Memory.read (x.settleBusy p rd a).vreg k = Memory.read x.vreg k := by
  unfold Sensor.settleBusy
  split
  · split
    · split
      · rfl
      · exact Memory.read_write_other hk
    · rfl
  · rfl
  · rfl

/-- Registers of different dies, or of different addresses, have different places. -/
theorem vregAddr_inj {d d' : Die} {a a' : VAddr} (h : vregAddr d a = vregAddr d' a') : d = d' ∧ a = a' := by
  have := a.isLt
  have := a'.isLt
  have : d = d' ∧ a.toNat = a'.toNat := by
    cases d <;> cases d' <;> simp [vregAddr, Die.index] at h ⊢ <;> omega
  exact ⟨this.1, BitVec.eq_of_toNat_eq this.2⟩

/-! The reference device keeps the canonical form. -/

theorem Sensor.wf_unknown (n : Nat) : Memory.wf (Sensor.unknown n).vreg = true := Memory.wf_ofCells _

theorem Sensor.wf_settleBusy {p : Params} {rd : RefDevice} {a : VAddr} {x : Sensor} (h : Memory.wf x.vreg = true) :
    Memory.wf (x.settleBusy p rd a).vreg = true := by
  unfold Sensor.settleBusy
  split
  · split
    · split
      · exact h
      · exact Memory.wf_write h (vregAddr_lt _ _)
    · exact h
  · exact h
  · exact h

theorem Sensor.wf_takeByte {p : Params} {rd : RefDevice} {b : Byte} {x y : Sensor} (h : Memory.wf x.vreg = true)
    (e : x.takeByte p rd b = .ok y) : Memory.wf y.vreg = true := by
  unfold Sensor.takeByte Sensor.takeData at e
  split at e
  · split at e
    · split at e <;> cases e
      exact h
    · cases e; exact Memory.wf_write h (vregAddr_lt _ _)
  · split at e <;> cases e
    · exact h
    · exact Sensor.wf_settleBusy h

theorem Sensor.wf_transmit {p : Params} {rd : RefDevice} {bytes : List Byte} {x y : Sensor} (h : Memory.wf x.vreg = true)
    (e : x.transmit p rd bytes = .ok y) : Memory.wf y.vreg = true := by
  unfold Sensor.transmit at e
  split at e
  · cases e; exact h
  · split at e
    · split at e
      · exact Sensor.wf_takeByte (x := { x with ptr := p.writeReg, tc := rd.lt, write := _ }) h e
      · cases e
    · cases e
  · cases e

theorem Sensor.tick_vreg (x : Sensor) : x.tick.vreg = x.vreg := by
  unfold Sensor.tick
  split
  · rfl
  · split <;> rfl

/-- A receive stores nothing in the register file (R81). -/
theorem Sensor.receive_vreg {p : Params} {len : Nat} {x : Sensor} {r : Byte × Sensor} (e : x.receive p len = .ok r) :
    r.2.vreg = x.vreg := by
  unfold Sensor.receive at e
  split at e
  · cases e
  · split at e
    · cases e; exact Sensor.tick_vreg x
    · split at e
      · split at e <;> cases e
        rfl
      · cases e

end Sys2Proof.Machine
end

