-- ==== Sys2Proof/Laws/PerInstr.lean ====
section
/-! SUPPORT. Statements made of every instruction as syntax, one lemma for each constructor. -/

namespace Sys2Proof.Laws.CommandWord

/-- An instruction has a code of the command port exactly when it is a command or a reserved opcode: the wire bytes, the
frames and the micro-operations are not selectable there (R122, R123). -/
def Statement (i : Instr) : Prop := ∀ p, (∃ w, encode p i = some (.command w)) ↔ i.isCommand = true

theorem wrvr : ∀ a d, Statement (.wrvr a d) := fun _ _ _ => ⟨fun _ => rfl, fun _ => ⟨_, rfl⟩⟩
theorem rdvr : ∀ a, Statement (.rdvr a) := fun _ _ => ⟨fun _ => rfl, fun _ => ⟨_, rfl⟩⟩
theorem seldev : ∀ a, Statement (.seldev a) := fun _ _ => ⟨fun _ => rfl, fun _ => ⟨_, rfl⟩⟩
theorem rdflt : ∀ a, Statement (.rdflt a) := fun _ _ => ⟨fun _ => rfl, fun _ => ⟨_, rfl⟩⟩
theorem rdall : Statement .rdall := fun _ => ⟨fun _ => rfl, fun _ => ⟨_, rfl⟩⟩
theorem meas : Statement .meas := fun _ => ⟨fun _ => rfl, fun _ => ⟨_, rfl⟩⟩
theorem reserved6 : ∀ a, Statement (.reserved6 a) := fun _ _ => ⟨fun _ => rfl, fun _ => ⟨_, rfl⟩⟩
theorem reserved7 : ∀ a, Statement (.reserved7 a) := fun _ _ => ⟨fun _ => rfl, fun _ => ⟨_, rfl⟩⟩
theorem vwra : ∀ a, Statement (.vwra a) := fun _ _ => ⟨fun ⟨_, h⟩ => (nomatch h), fun h => (nomatch h)⟩
theorem vrda : ∀ a, Statement (.vrda a) := fun _ _ => ⟨fun ⟨_, h⟩ => (nomatch h), fun h => (nomatch h)⟩
theorem vdata : ∀ a, Statement (.vdata a) := fun _ _ => ⟨fun ⟨_, h⟩ => (nomatch h), fun h => (nomatch h)⟩
theorem status : ∀ a, Statement (.status a) := fun _ _ => ⟨fun ⟨_, h⟩ => (nomatch h), fun h => (nomatch h)⟩
theorem ptrStatus : Statement .ptrStatus := fun _ => ⟨fun ⟨_, h⟩ => (nomatch h), fun h => (nomatch h)⟩
theorem ptrRead : Statement .ptrRead := fun _ => ⟨fun ⟨_, h⟩ => (nomatch h), fun h => (nomatch h)⟩
theorem wrWrite : ∀ a, Statement (.wrWrite a) := fun _ _ => ⟨fun ⟨_, h⟩ => (nomatch h), fun h => (nomatch h)⟩
theorem get1 : Statement .get1 := fun _ => ⟨fun ⟨_, h⟩ => (nomatch h), fun h => (nomatch h)⟩
theorem rdstatus : Statement .rdstatus := fun _ => ⟨fun ⟨_, h⟩ => (nomatch h), fun h => (nomatch h)⟩
theorem wrwrite : ∀ a, Statement (.wrwrite a) := fun _ _ => ⟨fun ⟨_, h⟩ => (nomatch h), fun h => (nomatch h)⟩
theorem rdread : Statement .rdread := fun _ => ⟨fun ⟨_, h⟩ => (nomatch h), fun h => (nomatch h)⟩
theorem delay : ∀ a, Statement (.delay a) := fun _ _ => ⟨fun ⟨_, h⟩ => (nomatch h), fun h => (nomatch h)⟩
theorem poll : ∀ a b c d, Statement (.poll a b c d) := fun _ _ _ _ _ => ⟨fun ⟨_, h⟩ => (nomatch h), fun h => (nomatch h)⟩
theorem waittx : Statement .waittx := fun _ => ⟨fun ⟨_, h⟩ => (nomatch h), fun h => (nomatch h)⟩
theorem waitrx : Statement .waitrx := fun _ => ⟨fun ⟨_, h⟩ => (nomatch h), fun h => (nomatch h)⟩

end Sys2Proof.Laws.CommandWord
end

