-- ==== Sys2Proof/Laws/State.lean ====
section
/-! SUPPORT. What each update of the state does to each of its fields. -/

namespace Sys2Proof.Machine

section
variable (s : State)

@[simp] theorem State.goto_par (q : Seq) : (s.goto q).par = s.par := rfl
@[simp] theorem State.goto_seq (q : Seq) : (s.goto q).seq = q := rfl
@[simp] theorem State.goto_regs (q : Seq) : (s.goto q).regs = s.regs := rfl
@[simp] theorem State.goto_rsp (q : Seq) : (s.goto q).rsp = s.rsp := rfl
@[simp] theorem State.goto_ret (q : Seq) : (s.goto q).ret = s.ret := rfl
@[simp] theorem State.goto_cmds (q : Seq) : (s.goto q).cmds = s.cmds := rfl
@[simp] theorem State.goto_resetReq (q : Seq) : (s.goto q).resetReq = s.resetReq := rfl
@[simp] theorem State.goto_env (q : Seq) : (s.goto q).env = s.env := rfl

@[simp] theorem State.withRet_par (r : Ret) : (s.withRet r).par = s.par := rfl
@[simp] theorem State.withRet_seq (r : Ret) : (s.withRet r).seq = s.seq := rfl
@[simp] theorem State.withRet_regs (r : Ret) : (s.withRet r).regs = s.regs := rfl
@[simp] theorem State.withRet_rsp (r : Ret) : (s.withRet r).rsp = s.rsp := rfl
@[simp] theorem State.withRet_ret (r : Ret) : (s.withRet r).ret = r := rfl
@[simp] theorem State.withRet_cmds (r : Ret) : (s.withRet r).cmds = s.cmds := rfl
@[simp] theorem State.withRet_resetReq (r : Ret) : (s.withRet r).resetReq = s.resetReq := rfl
@[simp] theorem State.withRet_env (r : Ret) : (s.withRet r).env = s.env := rfl

@[simp] theorem State.latchStatus_par (b : Byte) : (s.latchStatus b).par = s.par := rfl
@[simp] theorem State.latchStatus_seq (b : Byte) : (s.latchStatus b).seq = s.seq := rfl
@[simp] theorem State.latchStatus_regs (b : Byte) : (s.latchStatus b).regs = { s.regs with st := b } := rfl
@[simp] theorem State.latchStatus_rsp (b : Byte) : (s.latchStatus b).rsp = s.rsp := rfl
@[simp] theorem State.latchStatus_ret (b : Byte) : (s.latchStatus b).ret = s.ret := rfl
@[simp] theorem State.latchStatus_cmds (b : Byte) : (s.latchStatus b).cmds = s.cmds := rfl
@[simp] theorem State.latchStatus_resetReq (b : Byte) : (s.latchStatus b).resetReq = s.resetReq := rfl
@[simp] theorem State.latchStatus_env (b : Byte) : (s.latchStatus b).env = s.env := rfl

@[simp] theorem State.latchRead_par (b : Byte) : (s.latchRead b).par = s.par := rfl
@[simp] theorem State.latchRead_seq (b : Byte) : (s.latchRead b).seq = s.seq := rfl
@[simp] theorem State.latchRead_regs (b : Byte) : (s.latchRead b).regs = { s.regs with rx := b } := rfl
@[simp] theorem State.latchRead_rsp (b : Byte) : (s.latchRead b).rsp = s.rsp := rfl
@[simp] theorem State.latchRead_ret (b : Byte) : (s.latchRead b).ret = s.ret := rfl
@[simp] theorem State.latchRead_cmds (b : Byte) : (s.latchRead b).cmds = s.cmds := rfl
@[simp] theorem State.latchRead_resetReq (b : Byte) : (s.latchRead b).resetReq = s.resetReq := rfl
@[simp] theorem State.latchRead_env (b : Byte) : (s.latchRead b).env = s.env := rfl

@[simp] theorem State.clearCount_par : (s.clearCount).par = s.par := rfl
@[simp] theorem State.clearCount_seq : (s.clearCount).seq = s.seq := rfl
@[simp] theorem State.clearCount_regs : (s.clearCount).regs = { s.regs with cnt := 0 } := rfl
@[simp] theorem State.clearCount_rsp : (s.clearCount).rsp = s.rsp := rfl
@[simp] theorem State.clearCount_ret : (s.clearCount).ret = s.ret := rfl
@[simp] theorem State.clearCount_cmds : (s.clearCount).cmds = s.cmds := rfl
@[simp] theorem State.clearCount_resetReq : (s.clearCount).resetReq = s.resetReq := rfl
@[simp] theorem State.clearCount_env : (s.clearCount).env = s.env := rfl

@[simp] theorem State.countAttempt_par : (s.countAttempt).par = s.par := rfl
@[simp] theorem State.countAttempt_seq : (s.countAttempt).seq = s.seq := rfl
@[simp] theorem State.countAttempt_regs : (s.countAttempt).regs = { s.regs with cnt := s.regs.cnt + 1 } := rfl
@[simp] theorem State.countAttempt_rsp : (s.countAttempt).rsp = s.rsp := rfl
@[simp] theorem State.countAttempt_ret : (s.countAttempt).ret = s.ret := rfl
@[simp] theorem State.countAttempt_cmds : (s.countAttempt).cmds = s.cmds := rfl
@[simp] theorem State.countAttempt_resetReq : (s.countAttempt).resetReq = s.resetReq := rfl
@[simp] theorem State.countAttempt_env : (s.countAttempt).env = s.env := rfl

@[simp] theorem State.loadWrite_par (a : VAddr) (d : Byte) : (s.loadWrite a d).par = s.par := rfl
@[simp] theorem State.loadWrite_seq (a : VAddr) (d : Byte) : (s.loadWrite a d).seq = s.seq := rfl
@[simp] theorem State.loadWrite_regs (a : VAddr) (d : Byte) : (s.loadWrite a d).regs = { s.regs with a := a, d := d } := rfl
@[simp] theorem State.loadWrite_rsp (a : VAddr) (d : Byte) : (s.loadWrite a d).rsp = s.rsp := rfl
@[simp] theorem State.loadWrite_ret (a : VAddr) (d : Byte) : (s.loadWrite a d).ret = s.ret := rfl
@[simp] theorem State.loadWrite_cmds (a : VAddr) (d : Byte) : (s.loadWrite a d).cmds = s.cmds := rfl
@[simp] theorem State.loadWrite_resetReq (a : VAddr) (d : Byte) : (s.loadWrite a d).resetReq = s.resetReq := rfl
@[simp] theorem State.loadWrite_env (a : VAddr) (d : Byte) : (s.loadWrite a d).env = s.env := rfl

@[simp] theorem State.loadRead_par (a : VAddr) : (s.loadRead a).par = s.par := rfl
@[simp] theorem State.loadRead_seq (a : VAddr) : (s.loadRead a).seq = s.seq := rfl
@[simp] theorem State.loadRead_regs (a : VAddr) : (s.loadRead a).regs = { s.regs with a := a } := rfl
@[simp] theorem State.loadRead_rsp (a : VAddr) : (s.loadRead a).rsp = s.rsp := rfl
@[simp] theorem State.loadRead_ret (a : VAddr) : (s.loadRead a).ret = s.ret := rfl
@[simp] theorem State.loadRead_cmds (a : VAddr) : (s.loadRead a).cmds = s.cmds := rfl
@[simp] theorem State.loadRead_resetReq (a : VAddr) : (s.loadRead a).resetReq = s.resetReq := rfl
@[simp] theorem State.loadRead_env (a : VAddr) : (s.loadRead a).env = s.env := rfl

@[simp] theorem State.mergeRead_par (i : Fin 4) : (s.mergeRead i).par = s.par := rfl
@[simp] theorem State.mergeRead_seq (i : Fin 4) : (s.mergeRead i).seq = s.seq := rfl
@[simp] theorem State.mergeRead_regs (i : Fin 4) : (s.mergeRead i).regs = { s.regs with acc := mergeByte s.par.byteOrder i s.regs.acc s.regs.rx } := rfl
@[simp] theorem State.mergeRead_rsp (i : Fin 4) : (s.mergeRead i).rsp = s.rsp := rfl
@[simp] theorem State.mergeRead_ret (i : Fin 4) : (s.mergeRead i).ret = s.ret := rfl
@[simp] theorem State.mergeRead_cmds (i : Fin 4) : (s.mergeRead i).cmds = s.cmds := rfl
@[simp] theorem State.mergeRead_resetReq (i : Fin 4) : (s.mergeRead i).resetReq = s.resetReq := rfl
@[simp] theorem State.mergeRead_env (i : Fin 4) : (s.mergeRead i).env = s.env := rfl

@[simp] theorem State.doDelay_par (t : Interval) : (s.doDelay t).par = s.par := rfl
@[simp] theorem State.doDelay_seq (t : Interval) : (s.doDelay t).seq = s.seq := rfl
@[simp] theorem State.doDelay_regs (t : Interval) : (s.doDelay t).regs = s.regs := rfl
@[simp] theorem State.doDelay_rsp (t : Interval) : (s.doDelay t).rsp = s.rsp := rfl
@[simp] theorem State.doDelay_ret (t : Interval) : (s.doDelay t).ret = s.ret := rfl
@[simp] theorem State.doDelay_cmds (t : Interval) : (s.doDelay t).cmds = s.cmds := rfl
@[simp] theorem State.doDelay_resetReq (t : Interval) : (s.doDelay t).resetReq = s.resetReq := rfl
@[simp] theorem State.doDelay_env (t : Interval) : (s.doDelay t).env = s.env.delay s.par t := rfl

@[simp] theorem State.takeWord_par (w : CmdWord) (rest : List CmdWord) : (s.takeWord w rest).par = s.par := rfl
@[simp] theorem State.takeWord_seq (w : CmdWord) (rest : List CmdWord) : (s.takeWord w rest).seq = s.seq := rfl
@[simp] theorem State.takeWord_regs (w : CmdWord) (rest : List CmdWord) : (s.takeWord w rest).regs = s.regs := rfl
@[simp] theorem State.takeWord_rsp (w : CmdWord) (rest : List CmdWord) : (s.takeWord w rest).rsp = s.rsp := rfl
@[simp] theorem State.takeWord_ret (w : CmdWord) (rest : List CmdWord) : (s.takeWord w rest).ret = s.ret := rfl
@[simp] theorem State.takeWord_cmds (w : CmdWord) (rest : List CmdWord) : (s.takeWord w rest).cmds = rest := rfl
@[simp] theorem State.takeWord_resetReq (w : CmdWord) (rest : List CmdWord) : (s.takeWord w rest).resetReq = s.resetReq := rfl
@[simp] theorem State.takeWord_env (w : CmdWord) (rest : List CmdWord) : (s.takeWord w rest).env = s.env.log (.accept w) := rfl

@[simp] theorem State.wait_par (w : CmdWord) : (s.wait w).par = s.par := rfl
@[simp] theorem State.wait_seq (w : CmdWord) : (s.wait w).seq = s.seq := rfl
@[simp] theorem State.wait_regs (w : CmdWord) : (s.wait w).regs = s.regs := rfl
@[simp] theorem State.wait_rsp (w : CmdWord) : (s.wait w).rsp = s.rsp := rfl
@[simp] theorem State.wait_ret (w : CmdWord) : (s.wait w).ret = s.ret := rfl
@[simp] theorem State.wait_cmds (w : CmdWord) : (s.wait w).cmds = s.cmds ++ [w] := rfl
@[simp] theorem State.wait_resetReq (w : CmdWord) : (s.wait w).resetReq = s.resetReq := rfl
@[simp] theorem State.wait_env (w : CmdWord) : (s.wait w).env = s.env := rfl

@[simp] theorem State.latchOp_par (op : BitVec 3) : (s.latchOp op).par = s.par := rfl
@[simp] theorem State.latchOp_seq (op : BitVec 3) : (s.latchOp op).seq = s.seq := rfl
@[simp] theorem State.latchOp_regs (op : BitVec 3) : (s.latchOp op).regs = { s.regs with op := op } := rfl
@[simp] theorem State.latchOp_rsp (op : BitVec 3) : (s.latchOp op).rsp = { s.rsp with pending := false } := rfl
@[simp] theorem State.latchOp_ret (op : BitVec 3) : (s.latchOp op).ret = .ok := rfl
@[simp] theorem State.latchOp_cmds (op : BitVec 3) : (s.latchOp op).cmds = s.cmds := rfl
@[simp] theorem State.latchOp_resetReq (op : BitVec 3) : (s.latchOp op).resetReq = s.resetReq := rfl
@[simp] theorem State.latchOp_env (op : BitVec 3) : (s.latchOp op).env = s.env := rfl

@[simp] theorem State.beginWrite_par (c : WCtx) (a : VAddr) (d : Byte) : (s.beginWrite c a d).par = s.par := rfl
@[simp] theorem State.beginWrite_seq (c : WCtx) (a : VAddr) (d : Byte) : (s.beginWrite c a d).seq = .writing c (.wA .ptr) := rfl
@[simp] theorem State.beginWrite_regs (c : WCtx) (a : VAddr) (d : Byte) : (s.beginWrite c a d).regs = { s.regs with a := a, d := d, cnt := 0 } := rfl
@[simp] theorem State.beginWrite_rsp (c : WCtx) (a : VAddr) (d : Byte) : (s.beginWrite c a d).rsp = s.rsp := rfl
@[simp] theorem State.beginWrite_ret (c : WCtx) (a : VAddr) (d : Byte) : (s.beginWrite c a d).ret = s.ret := rfl
@[simp] theorem State.beginWrite_cmds (c : WCtx) (a : VAddr) (d : Byte) : (s.beginWrite c a d).cmds = s.cmds := rfl
@[simp] theorem State.beginWrite_resetReq (c : WCtx) (a : VAddr) (d : Byte) : (s.beginWrite c a d).resetReq = s.resetReq := rfl
@[simp] theorem State.beginWrite_env (c : WCtx) (a : VAddr) (d : Byte) : (s.beginWrite c a d).env = s.env := rfl

@[simp] theorem State.beginRead_par (c : RCtx) (a : VAddr) : (s.beginRead c a).par = s.par := rfl
@[simp] theorem State.beginRead_seq (c : RCtx) (a : VAddr) : (s.beginRead c a).seq = .reading c (.rA .ptr) := rfl
@[simp] theorem State.beginRead_regs (c : RCtx) (a : VAddr) : (s.beginRead c a).regs = { s.regs with a := a, cnt := 0 } := rfl
@[simp] theorem State.beginRead_rsp (c : RCtx) (a : VAddr) : (s.beginRead c a).rsp = s.rsp := rfl
@[simp] theorem State.beginRead_ret (c : RCtx) (a : VAddr) : (s.beginRead c a).ret = s.ret := rfl
@[simp] theorem State.beginRead_cmds (c : RCtx) (a : VAddr) : (s.beginRead c a).cmds = s.cmds := rfl
@[simp] theorem State.beginRead_resetReq (c : RCtx) (a : VAddr) : (s.beginRead c a).resetReq = s.resetReq := rfl
@[simp] theorem State.beginRead_env (c : RCtx) (a : VAddr) : (s.beginRead c a).env = s.env := rfl

@[simp] theorem RspData.rsp_status (k : BitVec 2) (n : Nat) (d : RspData) : (d.rsp k n).status = k := rfl
@[simp] theorem RspData.rsp_pending (k : BitVec 2) (n : Nat) (d : RspData) : (d.rsp k n).pending = true := rfl
@[simp] theorem RspData.rsp_byte (k : BitVec 2) (n : Nat) (b : Byte) : (RspData.rsp k n (.byte b)).byte = b := rfl
@[simp] theorem RspData.rsp_word (k : BitVec 2) (n : Nat) (w : Word) : (RspData.rsp k n (.word w)).word = w := rfl
@[simp] theorem RspData.rsp_res (k : BitVec 2) (n : Nat) (r : Vector Word 18) (f : BitVec 18) : (RspData.rsp k n (.all r f)).res = r := rfl
@[simp] theorem RspData.rsp_fail (k : BitVec 2) (n : Nat) (r : Vector Word 18) (f : BitVec 18) : (RspData.rsp k n (.all r f)).fail = f := rfl

@[simp] theorem State.respond_par (k : BitVec 2) (d : RspData) : (s.respond k d).par = s.par := rfl
@[simp] theorem State.respond_seq (k : BitVec 2) (d : RspData) : (s.respond k d).seq = .idle := rfl
@[simp] theorem State.respond_regs (k : BitVec 2) (d : RspData) : (s.respond k d).regs = s.regs := rfl
@[simp] theorem State.respond_rsp (k : BitVec 2) (d : RspData) : (s.respond k d).rsp = d.rsp k s.env.fresh := rfl
@[simp] theorem State.respond_ret (k : BitVec 2) (d : RspData) : (s.respond k d).ret = s.ret := rfl
@[simp] theorem State.respond_cmds (k : BitVec 2) (d : RspData) : (s.respond k d).cmds = s.cmds := rfl
@[simp] theorem State.respond_resetReq (k : BitVec 2) (d : RspData) : (s.respond k d).resetReq = s.resetReq := rfl
@[simp] theorem State.respond_env (k : BitVec 2) (d : RspData) : (s.respond k d).env = ({ s.env with fresh := s.env.fresh + 1 }).log (.done k) := rfl

@[simp] theorem State.endWith_par (c : EndCtx) (k : BitVec 2) : (s.endWith c k).par = s.par := rfl
@[simp] theorem State.endWith_seq (c : EndCtx) (k : BitVec 2) : (s.endWith c k).seq = .ending c k := rfl
@[simp] theorem State.endWith_regs (c : EndCtx) (k : BitVec 2) : (s.endWith c k).regs = s.regs := rfl
@[simp] theorem State.endWith_rsp (c : EndCtx) (k : BitVec 2) : (s.endWith c k).rsp = s.rsp := rfl
@[simp] theorem State.endWith_ret (c : EndCtx) (k : BitVec 2) : (s.endWith c k).ret = s.ret := rfl
@[simp] theorem State.endWith_cmds (c : EndCtx) (k : BitVec 2) : (s.endWith c k).cmds = s.cmds := rfl
@[simp] theorem State.endWith_resetReq (c : EndCtx) (k : BitVec 2) : (s.endWith c k).resetReq = s.resetReq := rfl
@[simp] theorem State.endWith_env (c : EndCtx) (k : BitVec 2) : (s.endWith c k).env = s.env := rfl

@[simp] theorem State.complete_par (c : EndCtx) (k : BitVec 2) : (s.complete c k).par = s.par := rfl
@[simp] theorem State.complete_seq (c : EndCtx) (k : BitVec 2) : (s.complete c k).seq = .idle := rfl
@[simp] theorem State.complete_regs (c : EndCtx) (k : BitVec 2) : (s.complete c k).regs = s.regs := rfl
@[simp] theorem State.complete_rsp (c : EndCtx) (k : BitVec 2) : (s.complete c k).rsp = RspData.rsp k s.env.fresh (if k = codeOk then c.data s.regs else .nothing) := rfl
@[simp] theorem State.complete_ret (c : EndCtx) (k : BitVec 2) : (s.complete c k).ret = s.ret := rfl
@[simp] theorem State.complete_cmds (c : EndCtx) (k : BitVec 2) : (s.complete c k).cmds = s.cmds := rfl
@[simp] theorem State.complete_resetReq (c : EndCtx) (k : BitVec 2) : (s.complete c k).resetReq = s.resetReq := rfl
@[simp] theorem State.complete_env (c : EndCtx) (k : BitVec 2) : (s.complete c k).env = ({ s.env with fresh := s.env.fresh + 1 }).log (.done k) := rfl

/-- A command that answers with a status alone completes the same way on every status. -/
theorem State.complete_nothing {c : EndCtx} (k : BitVec 2) (h : c.data s.regs = .nothing) : s.complete c k = s.respond k .nothing := by
  unfold State.complete; rw [h]; split <;> rfl
/-- A failed command completes without data. -/
theorem State.complete_failed {c : EndCtx} {k : BitVec 2} (h : k ≠ codeOk) : s.complete c k = s.respond k .nothing := by
  unfold State.complete; rw [if_neg h]

@[simp] theorem State.engineReset_par : (s.engineReset).par = s.par := rfl
@[simp] theorem State.engineReset_seq : (s.engineReset).seq = .idle := rfl
@[simp] theorem State.engineReset_regs : (s.engineReset).regs = Regs.reset := rfl
@[simp] theorem State.engineReset_rsp : (s.engineReset).rsp = Rsp.reset := rfl
@[simp] theorem State.engineReset_ret : (s.engineReset).ret = .ok := rfl
@[simp] theorem State.engineReset_cmds : (s.engineReset).cmds = s.cmds := rfl
@[simp] theorem State.engineReset_resetReq : (s.engineReset).resetReq = false := rfl
@[simp] theorem State.engineReset_env : (s.engineReset).env = s.env.log .reset := rfl

@[simp] theorem State.setChannel_par (w : Word) (f : Bool) : (s.setChannel w f).par = s.par := rfl
@[simp] theorem State.setChannel_seq (w : Word) (f : Bool) : (s.setChannel w f).seq = s.seq := rfl
@[simp] theorem State.setChannel_rsp (w : Word) (f : Bool) : (s.setChannel w f).rsp = s.rsp := rfl
@[simp] theorem State.setChannel_ret (w : Word) (f : Bool) : (s.setChannel w f).ret = s.ret := rfl
@[simp] theorem State.setChannel_cmds (w : Word) (f : Bool) : (s.setChannel w f).cmds = s.cmds := rfl
@[simp] theorem State.setChannel_resetReq (w : Word) (f : Bool) : (s.setChannel w f).resetReq = s.resetReq := rfl
@[simp] theorem State.setChannel_env (w : Word) (f : Bool) : (s.setChannel w f).env = s.env := rfl

end

end Sys2Proof.Machine
end

