-- ==== Sys2Proof/Laws/Sequences.lean ====
section
/-! SUPPORT. The phases of RDFLT, RDALL and MEAS amount to their pseudocode (R185, R186, R195, R212, R213). -/

namespace Sys2Proof.Machine

/-- What a virtual-register operation may change of the engine: A, D, ST, CNT, RX. -/
structure OpFrame (s t : State) : Prop where
  par : t.par = s.par
  seq : t.seq = s.seq
  rsp : t.rsp = s.rsp
  ret : t.ret = s.ret
  cmds : t.cmds = s.cmds
  rst : t.resetReq = s.resetReq
  regs : t.regs = { s.regs with st := t.regs.st, cnt := t.regs.cnt, a := t.regs.a, d := t.regs.d, rx := t.regs.rx }

theorem PollFrame.opFrame {s t} (h : PollFrame s t) : OpFrame s t := ⟨h.par, h.seq, h.rsp, h.ret, h.cmds, h.rst, by rw [h.regs]⟩
theorem OpFrame.trans {s t u} (h : OpFrame s t) (g : OpFrame t u) : OpFrame s u :=
  ⟨g.par.trans h.par, g.seq.trans h.seq, g.rsp.trans h.rsp, g.ret.trans h.ret, g.cmds.trans h.cmds, g.rst.trans h.rst, by
    rw [g.regs, h.regs]⟩
theorem rdread_opFrame {s r t} (h : State.rdread s = .ok (r, t)) : OpFrame s t := by
  obtain ⟨r1, t1, h1, ⟨-, rfl, rfl⟩ | ⟨-, h⟩⟩ := tryThen_ok h
  · exact (xferTx_pollFrame h1).opFrame
  · obtain ⟨r2, t2, h2, ⟨-, rfl, rfl⟩ | ⟨-, h⟩⟩ := tryThen_ok h
    · exact ((xferTx_pollFrame h1).trans (xferRx_pollFrame h2)).opFrame
    · refine ((xferTx_pollFrame h1).trans (xferRx_pollFrame h2)).opFrame.trans ?_
      cases r2 <;> cases h <;> exact ⟨rfl, rfl, rfl, rfl, rfl, rfl, rfl⟩
theorem tryThen_opFrame {x : Run} {k r t s} (h : x.tryThen k = .ok (r, t)) (h1 : ∀ r t, x = .ok (r, t) → OpFrame s t)
    (h2 : ∀ r u r' t', k r u = .ok (r', t') → OpFrame u t') : OpFrame s t := by
  obtain ⟨r1, t1, e, ⟨-, rfl, rfl⟩ | ⟨-, h⟩⟩ := tryThen_ok h
  · exact h1 _ _ e
  · exact (h1 _ _ e).trans (h2 _ _ _ _ h)
theorem pseudoWrvr_opFrame {a d s r t} (h : State.pseudoWrvr a d s = .ok (r, t)) : OpFrame s t := by
  refine tryThen_opFrame h (fun _ _ h => OpFrame.trans (t := s.loadWrite a d) ⟨rfl, rfl, rfl, rfl, rfl, rfl, rfl⟩ (waitReady_pollFrame h).opFrame) fun _ _ _ _ h => ?_
  refine tryThen_opFrame h (fun _ _ h => (xferTx_pollFrame h).opFrame) fun _ _ _ _ h => ?_
  refine tryThen_opFrame h (fun _ _ h => (waitReady_pollFrame h).opFrame) fun _ _ _ _ h => ?_
  refine tryThen_opFrame h (fun _ _ h => (xferTx_pollFrame h).opFrame) fun _ _ _ _ h => ?_
  exact (waitReady_pollFrame h).opFrame
theorem pseudoRdvr_opFrame {a s r t} (h : State.pseudoRdvr a s = .ok (r, t)) : OpFrame s t := by
  refine tryThen_opFrame h (fun _ _ h => OpFrame.trans (t := s.loadRead a) ⟨rfl, rfl, rfl, rfl, rfl, rfl, rfl⟩ (waitReady_pollFrame h).opFrame) fun _ _ _ _ h => ?_
  refine tryThen_opFrame h (fun _ _ h => (xferTx_pollFrame h).opFrame) fun _ _ _ _ h => ?_
  refine tryThen_opFrame h (fun _ _ h => (waitReady_pollFrame h).opFrame) fun _ _ _ _ h => ?_
  refine tryThen_opFrame h (fun _ _ h => (waitReady_pollFrame h).opFrame) fun _ _ _ _ h => ?_
  exact rdread_opFrame h

/-- A float read in any context that has a read for each of its bytes (RDFLT itself, a channel of the sweep). -/
theorem float_runs (C : Fin 4 → RCtx) (done : State → State) (fail : Failure → State → State)
    (hd : ∀ i : Fin 4, i ≠ 3 → ∀ t : State, t.doneRead (C i) = (t.mergeRead i).beginRead (C (i+1)) (floatByteAddr t.regs.base (i+1)))
    (h3 : ∀ t : State, t.doneRead (C 3) = done (t.mergeRead 3))
    (hf : ∀ i f (t : State), t.failRead (C i) f = fail f t)
    (base : VAddr) (s : State) (hr : s.resetReq = false) (hret : s.ret = .ok) (hw : s.par.wf = true) :
    Reaches (4 * readSteps s.par) (State.beginRead (C 0) (floatByteAddr base 0) { s with regs := { s.regs with base := base } })
      (close done fail (s.pseudoRdflt base)) := by
  have hfc : ∀ i, (fun f (t : State) => t.failRead (C i) f) = fail := fun i => by funext f t; exact hf i f t
  unfold State.pseudoRdflt
  have key : ∀ i : Fin 4, ∀ (a : VAddr) (u : State), u.par = s.par → u.ret = .ok → u.resetReq = false → 
     Reaches (readSteps s.par) (u.beginRead (C i) a) (close (State.doneRead (C i)) fail (u.pseudoRdvr a)) := by
    intro i a u hp hu hru
    have := read_runs (C i) a u hru hu (by rw [hp]; exact hw)
    rw [hfc, hp] at this; exact this
  refine reaches_mono (k := readSteps s.par + (readSteps s.par + (readSteps s.par + (readSteps s.par + 0)))) ?_ (by omega)
  refine reaches_try (key 0 _ _ rfl hret hr) fun r t h _ => ?_
  have f1 := pseudoRdvr_opFrame h
  have p1 : t.par = s.par := f1.par
  have q1 : t.ret = .ok := f1.ret.trans hret
  have r1 : t.resetReq = false := f1.rst.trans hr
  rw [withRet_self (by rw [hd 0 (by decide)]; exact q1), hd 0 (by decide)]
  refine reaches_try (key 1 _ (t.mergeRead 0) p1 q1 r1) fun r u h _ => ?_
  have f2 := pseudoRdvr_opFrame h
  have p2 : u.par = s.par := f2.par.trans p1
  have q2 : u.ret = .ok := f2.ret.trans q1
  have r2 : u.resetReq = false := f2.rst.trans r1
  rw [withRet_self (by rw [hd 1 (by decide)]; exact q2), hd 1 (by decide)]
  refine reaches_try (key 2 _ (u.mergeRead 1) p2 q2 r2) fun r v h _ => ?_
  have f3 := pseudoRdvr_opFrame h
  have p3 : v.par = s.par := f3.par.trans p2
  have q3 : v.ret = .ok := f3.ret.trans q2
  have r3 : v.resetReq = false := f3.rst.trans r2
  rw [withRet_self (by rw [hd 2 (by decide)]; exact q3), hd 2 (by decide)]
  refine reaches_try (key 3 _ (v.mergeRead 2) p3 q3 r3) fun r w h _ => ?_
  rw [h3]; exact reaches_zero

theorem pseudoRdflt_frame {base s r t} (h : State.pseudoRdflt base s = .ok (r, t)) :
    t.par = s.par ∧ t.ret = s.ret ∧ t.resetReq = s.resetReq ∧ t.seq = s.seq ∧ t.regs.dev = s.regs.dev ∧ t.regs.ch = s.regs.ch := by
  have vf : ∀ {a s r t}, State.pseudoRdvr a s = .ok (r, t) → t.par = s.par ∧ t.ret = s.ret ∧ t.resetReq = s.resetReq ∧ t.seq = s.seq ∧ t.regs.dev = s.regs.dev ∧ t.regs.ch = s.regs.ch := by
    intro a s r t h
    have := pseudoRdvr_opFrame h
    exact ⟨this.par, this.ret, this.rst, this.seq, by rw [this.regs], by rw [this.regs]⟩
  unfold State.pseudoRdflt at h
  obtain ⟨r1, t1, e1, ⟨-, rfl, rfl⟩ | ⟨-, h⟩⟩ := tryThen_ok h
  · have := vf e1; exact this
  obtain ⟨a1,a2,a3,a4,a5,a6⟩ := vf e1
  obtain ⟨r2, t2, e2, ⟨-, rfl, rfl⟩ | ⟨-, h⟩⟩ := tryThen_ok h
  · obtain ⟨b1,b2,b3,b4,b5,b6⟩ := vf e2
    exact ⟨b1.trans a1, b2.trans a2, b3.trans a3, b4.trans a4, b5.trans a5, b6.trans a6⟩
  obtain ⟨b1,b2,b3,b4,b5,b6⟩ := vf e2
  obtain ⟨r3, t3, e3, ⟨-, rfl, rfl⟩ | ⟨-, h⟩⟩ := tryThen_ok h
  · obtain ⟨c1,c2,c3,c4,c5,c6⟩ := vf e3
    exact ⟨(c1.trans b1).trans a1, (c2.trans b2).trans a2, (c3.trans b3).trans a3, (c4.trans b4).trans a4, (c5.trans b5).trans a5, (c6.trans b6).trans a6⟩
  obtain ⟨c1,c2,c3,c4,c5,c6⟩ := vf e3
  obtain ⟨r4, t4, e4, ⟨-, rfl, rfl⟩ | ⟨-, h⟩⟩ := tryThen_ok h
  · obtain ⟨d1,d2,d3,d4,d5,d6⟩ := vf e4
    exact ⟨((d1.trans c1).trans b1).trans a1, ((d2.trans c2).trans b2).trans a2, ((d3.trans c3).trans b3).trans a3, ((d4.trans c4).trans b4).trans a4, ((d5.trans c5).trans b5).trans a5, ((d6.trans c6).trans b6).trans a6⟩
  obtain ⟨d1,d2,d3,d4,d5,d6⟩ := vf e4
  cases h
  exact ⟨((d1.trans c1).trans b1).trans a1, ((d2.trans c2).trans b2).trans a2, ((d3.trans c3).trans b3).trans a3, ((d4.trans c4).trans b4).trans a4, ((d5.trans c5).trans b5).trans a5, ((d6.trans c6).trans b6).trans a6⟩

/-- Follow a finished loop by a state function. -/
def thenDo (x : Except Fault State) (g : State → State) : Except Fault State :=
  match x with | .error f => .error f | .ok t => .ok (State.withRet .ok (g t))

/-- One channel of the sweep, then the rest of them. -/
theorem chan_runs (c : BitVec 3) (rest : List (BitVec 3)) (s : State) (hr : s.resetReq = false) (hret : s.ret = .ok) (hw : s.par.wf = true)
   (k : Nat)
   (H : ∀ t : State, t.par = s.par → t.ret = .ok → t.resetReq = false → t.regs.dev = s.regs.dev → t.regs.ch = c → 
      Reaches k t.nextChannel (thenDo (pseudoChannels .ok rest t) State.nextDie)) :
   Reaches (4 * readSteps s.par + k) (s.startChannel c) (thenDo (pseudoChannels .ok (c :: rest) s) State.nextDie) := by
  have fr := float_runs RCtx.sweepFlt (fun t => (t.setChannel t.regs.acc false).nextChannel) (fun _ t => t.substitute.nextChannel)
    (fun i h t => by fin_cases i <;> first | rfl | exact absurd rfl h) (fun t => rfl) (fun i f t => rfl)
    (channelBase c) { s with regs := { s.regs with ch := c } } hr hret hw
  have e : State.beginRead (.sweepFlt 0) (floatByteAddr (channelBase c) 0)
      { ({ s with regs := { s.regs with ch := c } } : State) with regs := { ({ s with regs := { s.regs with ch := c } } : State).regs with base := channelBase c } } = s.startChannel c := rfl
  rw [e] at fr
  unfold pseudoChannels
  rw [show (Ret.ok).failure.isSome = false from rfl]
  simp only [Bool.false_eq_true, if_false]
  cases hx : State.pseudoRdflt (channelBase c) { s with regs := { s.regs with ch := c } } with
  | error f => rw [hx] at fr; exact reaches_mono fr (Nat.le_add_right _ _)
  | ok p =>
    obtain ⟨r, t⟩ := p
    obtain ⟨g1, g2, g3, g4, g5, g6⟩ := pseudoRdflt_frame hx
    rw [hx] at fr
    cases hf : r.failure with
    | none =>
      simp only [close, hf] at fr
      have h1 := H (t.setChannel t.regs.acc false) g1 (g2.trans hret) (g3.trans hr) g5 g6
      have hnr : ((t.setChannel t.regs.acc false).nextChannel).ret = .ok := by
        unfold State.nextChannel State.nextDie; split
        · exact g2.trans hret
        · split <;> exact g2.trans hret
      rw [withRet_self hnr] at fr
      simpa [hf] using reaches_trans fr h1
    | some f =>
      simp only [close, hf] at fr
      have h1 := H t.substitute g1 (g2.trans hret) (g3.trans hr) g5 g6
      have hnr : (t.substitute.nextChannel).ret = .ok := by
        unfold State.nextChannel State.nextDie; split
        · exact g2.trans hret
        · split <;> exact g2.trans hret
      rw [withRet_self hnr] at fr
      simpa [hf] using reaches_trans fr h1

theorem nextDie_ret_ok {s : State} (h : s.ret = .ok) : s.nextDie.ret = .ok := by
  unfold State.nextDie; split <;> exact h

theorem die_channels (s : State) (hr : s.resetReq = false) (hret : s.ret = .ok) (hw : s.par.wf = true) :
    Reaches (24 * readSteps s.par) (s.startChannel 0) (thenDo (pseudoChannels .ok [0,1,2,3,4,5] s) State.nextDie) := by
  refine reaches_mono (k := 4 * readSteps s.par + (4 * readSteps s.par + (4 * readSteps s.par + (4 * readSteps s.par + (4 * readSteps s.par + (4 * readSteps s.par + 0)))))) ?_ (by omega)
  have nc : ∀ (c c' : BitVec 3) (t : State), t.regs.ch = c → c.toNat < 5 → c + 1 = c' → t.nextChannel = t.startChannel c' := by
    intro c c' t h h5 e
    unfold State.nextChannel; rw [h, if_pos h5, e]
  refine chan_runs 0 _ s hr hret hw _ fun t p1 q1 r1 d1 c1 => ?_
  rw [nc 0 1 t c1 (by decide) (by decide), ← p1]
  refine chan_runs 1 _ t r1 q1 (by rw [p1]; exact hw) _ fun t2 p2 q2 r2 d2 c2 => ?_
  rw [nc 1 2 t2 c2 (by decide) (by decide), ← p2]
  refine chan_runs 2 _ t2 r2 q2 (by rw [p2, p1]; exact hw) _ fun t3 p3 q3 r3 d3 c3 => ?_
  rw [nc 2 3 t3 c3 (by decide) (by decide), ← p3]
  refine chan_runs 3 _ t3 r3 q3 (by rw [p3, p2, p1]; exact hw) _ fun t4 p4 q4 r4 d4 c4 => ?_
  rw [nc 3 4 t4 c4 (by decide) (by decide), ← p4]
  refine chan_runs 4 _ t4 r4 q4 (by rw [p4, p3, p2, p1]; exact hw) _ fun t5 p5 q5 r5 d5 c5 => ?_
  rw [nc 4 5 t5 c5 (by decide) (by decide), ← p5]
  refine chan_runs 5 _ t5 r5 q5 (by rw [p5, p4, p3, p2, p1]; exact hw) _ fun t6 p6 q6 r6 d6 c6 => ?_
  have : t6.nextChannel = t6.nextDie := by unfold State.nextChannel; rw [c6]; rfl
  rw [this]
  simp only [pseudoChannels, thenDo]
  rw [withRet_self (nextDie_ret_ok q6)]
  exact reaches_zero

theorem pseudoChannels_frame (r : Ret) : ∀ {l s t}, pseudoChannels r l s = .ok t →
    t.par = s.par ∧ t.ret = s.ret ∧ t.resetReq = s.resetReq ∧ t.regs.dev = s.regs.dev := by
  intro l
  induction l with
  | nil => intro s t h; cases h; exact ⟨rfl, rfl, rfl, rfl⟩
  | cons c l ih =>
    intro s t h
    unfold pseudoChannels at h
    simp only at h
    split at h
    · have := ih h; exact this
    · split at h
      · cases h
      · rename_i r' u hx
        obtain ⟨g1, g2, g3, g4, g5, g6⟩ := pseudoRdflt_frame hx
        split at h
        · obtain ⟨a1, a2, a3, a4⟩ := ih h
          exact ⟨a1.trans g1, a2.trans g2, a3.trans g3, a4.trans g5⟩
        · obtain ⟨a1, a2, a3, a4⟩ := ih h
          exact ⟨a1.trans g1, a2.trans g2, a3.trans g3, a4.trans g5⟩

theorem pseudoChannels_ok {r : Ret} (h : r.failure = none) (l : List (BitVec 3)) (t : State) :
    pseudoChannels r l t = pseudoChannels .ok l t := by
  induction l generalizing t with
  | nil => rfl
  | cons c l ih =>
    unfold pseudoChannels
    rw [h, show (Ret.ok).failure = none from rfl]
    simp only [ih]

theorem substituteDie_frame (t : State) : t.substituteDie.par = t.par ∧ t.substituteDie.ret = t.ret ∧
    t.substituteDie.resetReq = t.resetReq ∧ t.substituteDie.regs.dev = t.regs.dev := by
  unfold State.substituteDie
  generalize ([0, 1, 2, 3, 4, 5] : List (BitVec 3)) = l
  induction l generalizing t with
  | nil => exact ⟨rfl, rfl, rfl, rfl⟩
  | cons c l ih => exact ih _

theorem die_runs (d : BitVec 2) (rest : List (BitVec 2)) (s : State) (hr : s.resetReq = false) (hret : s.ret = .ok) (hw : s.par.wf = true)
   (k : Nat) (g : State → State)
   (H : ∀ t : State, t.par = s.par → t.ret = .ok → t.resetReq = false → t.regs.dev = d → 
      Reaches k t.nextDie (thenDo (pseudoDies rest t) g)) :
   Reaches (writeSteps s.par + 24 * readSteps s.par + k) (s.startDie d) (thenDo (pseudoDies (d :: rest) s) g) := by
  have w := write_runs .sweepSel Config.devselVaddr (deviceByte d) { s with regs := { s.regs with dev := d } } hr hret hw
  unfold pseudoDies State.pseudoSeldev
  change Reaches (writeSteps s.par) (s.startDie d) _ at w
  cases hx : State.pseudoWrvr Config.devselVaddr (deviceByte d) { s with regs := { s.regs with dev := d } } with
  | error f => rw [hx] at w; exact reaches_mono w (by omega)
  | ok p =>
    obtain ⟨r, t⟩ := p
    have vf := pseudoWrvr_opFrame hx
    have pt : t.par = s.par := vf.par
    have rt : t.ret = .ok := vf.ret.trans hret
    have st : t.resetReq = false := vf.rst.trans hr
    have dt : t.regs.dev = d := by rw [vf.regs]
    rw [hx] at w
    cases hf : r.failure with
    | none =>
      simp only [close, hf] at w
      rw [withRet_self (s := State.doneWrite .sweepSel t) rt] at w
      have hch : pseudoChannels r [0,1,2,3,4,5] t = pseudoChannels .ok [0,1,2,3,4,5] t := by
        exact pseudoChannels_ok hf _ _
      simp only
      rw [hch]
      have dc := die_channels t st rt (by rw [pt]; exact hw)
      rw [pt] at dc
      rw [show writeSteps s.par + 24 * readSteps s.par + k = writeSteps s.par + (24 * readSteps s.par + k) by omega]
      refine reaches_trans w ?_
      show Reaches _ (t.startChannel 0) _
      cases hy : pseudoChannels .ok [0,1,2,3,4,5] t with
      | error f => rw [hy] at dc; exact reaches_mono dc (by omega)
      | ok u =>
        rw [hy] at dc
        obtain ⟨f1, f2, f3, f4⟩ := pseudoChannels_frame _ hy
        have ru := f2.trans rt
        simp only [thenDo] at dc
        rw [withRet_self (nextDie_ret_ok ru)] at dc
        exact reaches_trans dc (H u (f1.trans pt) ru (f3.trans st) (f4.trans dt))
    | some f =>
      simp only [close, hf] at w
      have hch : pseudoChannels r [0,1,2,3,4,5] t = .ok t.substituteDie := by
        simp [pseudoChannels, hf, State.substituteDie]
      simp only
      rw [hch]
      rw [withRet_self (s := State.failWrite .sweepSel f t) (nextDie_ret_ok ((substituteDie_frame t).2.1.trans rt))] at w
      obtain ⟨b1, b2, b3, b4⟩ := substituteDie_frame t
      have hh := H t.substituteDie (b1.trans pt) (b2.trans rt) (b3.trans st) (b4.trans dt)
      exact reaches_mono (reaches_trans w hh) (by omega)

theorem nextDie_next {t : State} {d d' : BitVec 2} (h : t.regs.dev = d) (h2 : d.toNat < 2) (e : d + 1 = d') : t.nextDie = t.startDie d' := by
  unfold State.nextDie; rw [h, if_pos h2, e]

theorem sweep_runs (s : State) (hr : s.resetReq = false) (hret : s.ret = .ok) (hw : s.par.wf = true) :
   Reaches (3 * writeSteps s.par + 72 * readSteps s.par) (s.startDie 0) (thenDo (pseudoDies [0,1,2] s) (fun t => t.endWith .rdall codeOk)) := by
  refine reaches_mono (k := writeSteps s.par + 24 * readSteps s.par + (writeSteps s.par + 24 * readSteps s.par + (writeSteps s.par + 24 * readSteps s.par + 0))) ?_ (by omega)
  refine die_runs 0 _ s hr hret hw _ _ fun t p1 q1 r1 d1 => ?_
  rw [nextDie_next (d' := 1) d1 (by decide) (by decide), ← p1]
  refine die_runs 1 _ t r1 q1 (by rw [p1]; exact hw) _ _ fun t2 p2 q2 r2 d2 => ?_
  rw [nextDie_next (d' := 2) d2 (by decide) (by decide), ← p2]
  refine die_runs 2 _ t2 r2 q2 (by rw [p2, p1]; exact hw) _ _ fun t3 p3 q3 r3 d3 => ?_
  simp only [pseudoDies, thenDo]
  have : t3.nextDie = t3.endWith .rdall codeOk := by unfold State.nextDie; rw [d3]; rfl
  rw [this, withRet_self (s := t3.endWith .rdall codeOk) q3]
  exact reaches_zero

/-- The completion of a command that has ended. -/
theorem ending_runs (s : State) (c k) (hr : s.resetReq = false) : Reaches 1 (s.endWith c k) (.ok (s.complete c k)) := by
  refine reaches_step (k := 0) ?_ reaches_zero
  have hr' : (s.endWith c k).resetReq = false := hr
  have hs : (s.endWith c k).seq = .ending c k := rfl
  unfold step State.issue State.runPort
  simp only [hr', hs, Bool.false_eq_true, if_false]
  rfl

/-- The completion of a command that answers with a status alone. -/
theorem status_ends (s : State) {c : EndCtx} (k) (hc : c.data s.regs = .nothing) (hr : s.resetReq = false) :
    Reaches 1 (s.endWith c k) (.ok (s.respond k .nothing)) := by
  rw [← s.complete_nothing k hc]; exact ending_runs s c k hr

/-- LedOff, from its first step to the response. -/
theorem ledoff_runs (s : State) (hr : s.resetReq = false) (hret : s.ret = .ok) (hw : s.par.wf = true) :
   Reaches (writeSteps s.par + 1) s.startLedOff s.pseudoLedOff := by
  have w := write_runs .ledoffWr s.par.ledControlVaddr (ledOffValue s.par s.regs.ledsave) s hr hret hw
  unfold State.pseudoLedOff
  change Reaches _ s.startLedOff _ at w
  cases hx : State.pseudoWrvr s.par.ledControlVaddr (ledOffValue s.par s.regs.ledsave) s with
  | error f => rw [hx] at w; exact reaches_mono w (by omega)
  | ok p =>
    obtain ⟨r, t⟩ := p
    have vf := pseudoWrvr_opFrame hx
    have rt : t.ret = .ok := vf.ret.trans hret
    have hrt : t.resetReq = false := vf.rst.trans hr
    rw [hx] at w
    cases hf : r.failure with
    | none =>
      simp only [close, hf, Ret.code] at w ⊢
      rw [withRet_self (s := State.doneWrite .ledoffWr t) rt] at w
      have : firstCode t.regs.err codeOk = t.regs.err := by unfold firstCode; split <;> simp_all
      rw [this]; exact reaches_trans w (status_ends t (c := .meas) t.regs.err rfl hrt)
    | some f =>
      simp only [close, hf, Ret.code] at w ⊢
      rw [withRet_self (s := State.failWrite .ledoffWr f t) rt] at w
      exact reaches_trans w (status_ends t (c := .meas) _ rfl hrt)

def setErr (f : Failure) (s : State) : State := { s with regs := { s.regs with err := f.code } }

theorem reaches_tryFail {x : Run} {k n m s hit fail done fail'} (h : Reaches n s (close hit fail x))
   (h2 : ∀ r t, x = .ok (r,t) → r.failure = none → Reaches m (State.withRet .ok (hit t)) (close done fail' (k r t)))
   (hff : ∀ f t, fail f t = fail' f t) :
   Reaches (n+m) s (close done fail' (x.tryThen k)) := by
  have : fail = fail' := by funext f t; exact hff f t
  subst this; exact reaches_try h h2

theorem OpFrame.ret' {s t} (h : OpFrame s t) (g : s.ret = .ok) : t.ret = .ok := h.ret.trans g

theorem busyPoll_runs (n : Nat) : ∀ (s : State) (_ : s.resetReq = false) (_ : s.ret = .ok) (_ : s.par.wf = true)
   (_ : n ≠ 0) (_ : s.regs.cnt2.toNat + n = s.par.measPollMax.toNat),
   Reaches (n * (readSteps s.par + 1)) (s.beginRead .measPoll s.par.controlSetupVaddr)
     (close State.startLedOff (fun f t => t.recordError f) (pseudoBusyPoll n s)) := by
  induction n with
  | zero => intro s _ _ _ h; exact absurd rfl h
  | succ n ih =>
    intro s hr hret hw _ hc
    have hmax := s.par.measPollMax.isLt
    unfold pseudoBusyPoll
    rw [show (n+1) * (readSteps s.par + 1) = readSteps s.par + (1 + n * (readSteps s.par + 1)) by ring]
    refine reaches_try (read_runs .measPoll s.par.controlSetupVaddr s hr hret hw) fun r t h _ => ?_
    have vf := pseudoRdvr_opFrame h
    have rt := vf.ret' hret
    have hrt : t.resetReq = false := vf.rst.trans hr
    have pt := vf.par
    simp only
    by_cases hb : measBusy t.par t.regs.rx = true
    · rw [if_pos hb]
      have e : State.doneRead .measPoll t = State.goto .measDly { t with regs := { t.regs with cs := t.regs.rx, cnt2 := t.regs.cnt2 + 1 } } := by
        unfold State.doneRead; simp only; rw [if_pos hb]
      rw [e]
      generalize hu : ({ t with regs := { t.regs with cs := t.regs.rx, cnt2 := t.regs.cnt2 + 1 } } : State) = u
      have ur : u.ret = .ok := by rw [← hu]; exact rt
      have urr : u.resetReq = false := by rw [← hu]; exact hrt
      have up : u.par = s.par := by rw [← hu]; exact pt
      have uc : u.regs.cnt2.toNat = s.regs.cnt2.toNat + 1 := by
        rw [← hu]; show (t.regs.cnt2 + 1).toNat = _
        rw [show t.regs.cnt2 = s.regs.cnt2 by rw [vf.regs]]
        rw [BitVec.toNat_add]; simp; omega
      rw [withRet_self (s := State.goto .measDly u) ur]
      have st : step (State.goto .measDly u) = .next (State.withRet .ok (State.doneMeasDelay (State.goto .measDly (State.withRet .ok (u.doDelay .measPoll))))) := by
        rw [step_goto (i := .delay .measPoll) urr rfl]; rfl
      rw [Nat.add_comm 1]
      refine reaches_step st ?_
      unfold State.doneMeasDelay
      rw [show (State.goto .measDly (State.withRet .ok (u.doDelay .measPoll))).regs = u.regs from rfl, show (State.goto .measDly (State.withRet .ok (u.doDelay .measPoll))).par = u.par from rfl]
      by_cases hn : n = 0
      · subst hn
        have : u.regs.cnt2 = u.par.measPollMax := BitVec.eq_of_toNat_eq (by rw [up, uc]; omega)
        rw [if_pos this]
        simp only [pseudoBusyPoll, close, Ret.failure]
        exact reaches_mono (k := 0) (reaches_eq rfl) (by omega)
      · have : u.regs.cnt2 ≠ u.par.measPollMax := by intro h; rw [h, up] at uc; omega
        rw [if_neg this]
        have := ih (u.doDelay .measPoll) urr ur (by show u.par.wf = true; rw [up]; exact hw) hn (by show u.regs.cnt2.toNat + n = u.par.measPollMax.toNat; rw [up]; omega)
        rw [show (u.doDelay .measPoll).par = u.par from rfl] at this
        rw [show readSteps u.par = readSteps s.par by rw [up]] at this
        have e2 : State.withRet .ok (State.beginRead .measPoll u.par.controlSetupVaddr (State.goto .measDly (State.withRet .ok (u.doDelay .measPoll)))) = State.beginRead .measPoll u.par.controlSetupVaddr (u.doDelay .measPoll) := by
          cases u; simp only at ur; subst ur; rfl
        rw [e2]; exact this
    · rw [if_neg hb]
      have e : State.doneRead .measPoll t = State.startLedOff { t with regs := { t.regs with cs := t.regs.rx, cnt2 := t.regs.cnt2 + 1 } } := by
        unfold State.doneRead; simp only; rw [if_neg hb]
      rw [e]
      simp only [close, Ret.failure]
      exact reaches_mono (k := 0) reaches_zero (by omega)

theorem measuring_runs (s : State) (hr : s.resetReq = false) (hret : s.ret = .ok) (hw : s.par.wf = true) :
   Reaches (2 * writeSteps s.par + readSteps s.par + s.par.measPollMax.toNat * (readSteps s.par + 1))
     (s.beginWrite .ledonWr s.par.ledControlVaddr (ledOnValue s.par s.regs.ledsave))
     (close State.startLedOff (fun f t => t.recordError f) s.pseudoMeasuring) := by
  unfold State.pseudoMeasuring
  refine reaches_mono (k := writeSteps s.par + (readSteps s.par + (writeSteps s.par + s.par.measPollMax.toNat * (readSteps s.par + 1)))) ?_ (by omega)
  refine reaches_try (write_runs .ledonWr _ _ s hr hret hw) fun r t h _ => ?_
  have v1 := pseudoWrvr_opFrame h
  have q1 := v1.ret' hret
  have r1 := v1.rst.trans hr
  have p1 := v1.par
  rw [withRet_self (s := State.doneWrite .ledonWr t) q1]
  have rd := read_runs .measRd t.par.controlSetupVaddr t r1 q1 (by rw [p1]; exact hw)
  rw [show readSteps t.par = readSteps s.par by rw [p1]] at rd
  refine reaches_try rd fun r u h _ => ?_
  have v2 := pseudoRdvr_opFrame h
  have q2 := v2.ret' q1
  have r2 := v2.rst.trans r1
  have p2 := v2.par.trans p1
  rw [withRet_self (s := State.doneRead .measRd u) q2]
  have wr := write_runs .measWr u.par.controlSetupVaddr (measStartValue u.par u.regs.rx) { u with regs := { u.regs with cs := u.regs.rx } } r2 q2 (by show u.par.wf = true; rw [p2]; exact hw)
  rw [show writeSteps (({ u with regs := { u.regs with cs := u.regs.rx } } : State)).par = writeSteps s.par by show writeSteps u.par = _; rw [p2]] at wr
  refine reaches_try wr fun r v h _ => ?_
  have v3 := pseudoWrvr_opFrame h
  have q3 := v3.ret' q2
  have r3 := v3.rst.trans r2
  have p3 : v.par = s.par := v3.par.trans p2
  rw [withRet_self (s := State.doneWrite .measWr v) q3]
  have hm : s.par.measPollMax.toNat ≠ 0 := by
    intro h
    have : s.par.measPollMax = 0 := BitVec.eq_of_toNat_eq (by simpa using h)
    unfold Params.wf at hw
    simp only [Bool.and_eq_true, decide_eq_true_eq] at hw
    tauto
  have pr := busyPoll_runs v.par.measPollMax.toNat { v with regs := { v.regs with cnt2 := 0 } } r3 q3 (by show v.par.wf = true; rw [p3]; exact hw) (by rw [p3]; exact hm) (by show (0#16).toNat + _ = _; simp)
  rw [show readSteps (({ v with regs := { v.regs with cnt2 := 0 } } : State)).par = readSteps s.par by show readSteps v.par = _; rw [p3]] at pr
  rw [show s.par.measPollMax.toNat * (readSteps s.par + 1) = v.par.measPollMax.toNat * (readSteps s.par + 1) by rw [p3]]
  exact pr

theorem pseudoBusyPoll_frame : ∀ {n s r t}, pseudoBusyPoll n s = .ok (r, t) → t.par = s.par ∧ t.ret = s.ret ∧ t.resetReq = s.resetReq := by
  intro n
  induction n with
  | zero => intro s r t h; cases h; exact ⟨rfl, rfl, rfl⟩
  | succ n ih =>
    intro s r t h
    unfold pseudoBusyPoll at h
    obtain ⟨r1, t1, e1, ⟨-, rfl, rfl⟩ | ⟨-, h⟩⟩ := tryThen_ok h
    · have := pseudoRdvr_opFrame e1; exact ⟨this.par, this.ret, this.rst⟩
    · have v := pseudoRdvr_opFrame e1
      simp only at h
      split at h
      · obtain ⟨a, b, c⟩ := ih h
        exact ⟨a.trans v.par, b.trans v.ret, c.trans v.rst⟩
      · cases h; exact ⟨v.par, v.ret, v.rst⟩

theorem pseudoMeasuring_frame {s r t} (h : State.pseudoMeasuring s = .ok (r, t)) : t.par = s.par ∧ t.ret = s.ret ∧ t.resetReq = s.resetReq := by
  unfold State.pseudoMeasuring at h
  obtain ⟨r1, t1, e1, ⟨-, rfl, rfl⟩ | ⟨-, h⟩⟩ := tryThen_ok h
  · have := pseudoWrvr_opFrame e1; exact ⟨this.par, this.ret, this.rst⟩
  have v1 := pseudoWrvr_opFrame e1
  obtain ⟨r2, t2, e2, ⟨-, rfl, rfl⟩ | ⟨-, h⟩⟩ := tryThen_ok h
  · have := pseudoRdvr_opFrame e2; exact ⟨this.par.trans v1.par, this.ret.trans v1.ret, this.rst.trans v1.rst⟩
  have v2 := pseudoRdvr_opFrame e2
  obtain ⟨r3, t3, e3, ⟨-, rfl, rfl⟩ | ⟨-, h⟩⟩ := tryThen_ok h
  · have := pseudoWrvr_opFrame e3; exact ⟨(this.par.trans v2.par).trans v1.par, (this.ret.trans v2.ret).trans v1.ret, (this.rst.trans v2.rst).trans v1.rst⟩
  have v3 := pseudoWrvr_opFrame e3
  obtain ⟨a, b, c⟩ := pseudoBusyPoll_frame h
  exact ⟨((a.trans v3.par).trans v2.par).trans v1.par, ((b.trans v3.ret).trans v2.ret).trans v1.ret, ((c.trans v3.rst).trans v2.rst).trans v1.rst⟩

theorem meas_runs (s : State) (hr : s.resetReq = false) (hret : s.ret = .ok) (hw : s.par.wf = true) :
   Reaches ((2 + s.par.measPollMax.toNat) * readSteps s.par + 3 * writeSteps s.par + s.par.measPollMax.toNat + 1) (s.beginRead .ledonRd s.par.ledControlVaddr) s.pseudoMeas := by
  unfold State.pseudoMeas
  have rd := read_runs .ledonRd s.par.ledControlVaddr s hr hret hw
  refine reaches_mono (k := readSteps s.par + ((2 * writeSteps s.par + readSteps s.par + s.par.measPollMax.toNat * (readSteps s.par + 1)) + (writeSteps s.par + 1))) ?_ (le_of_eq (by ring))
  cases hx : s.pseudoRdvr s.par.ledControlVaddr with
  | error f => rw [hx] at rd; exact reaches_mono rd (by omega)
  | ok p =>
    obtain ⟨r, t⟩ := p
    have v1 := pseudoRdvr_opFrame hx
    have q1 := v1.ret' hret
    have r1 := v1.rst.trans hr
    have p1 := v1.par
    rw [hx] at rd
    cases hf : r.failure with
    | some f =>
      simp only [close, hf, Option.isSome, if_true, Ret.code] at rd ⊢
      rw [withRet_self (s := State.failRead .ledonRd f t) q1] at rd
      exact reaches_mono (reaches_trans rd (status_ends t (c := .meas) f.code rfl r1)) (by omega)
    | none =>
      simp only [close, hf, Option.isSome, Bool.false_eq_true, if_false] at rd ⊢
      rw [withRet_self (s := State.doneRead .ledonRd t) q1] at rd
      refine reaches_trans rd ?_
      change Reaches _ (State.beginWrite .ledonWr t.par.ledControlVaddr (ledOnValue t.par t.regs.rx) { t with regs := { t.regs with ledsave := t.regs.rx, err := codeOk } }) _
      obtain ⟨z, hz⟩ : ∃ z : State, z = { t with regs := { t.regs with ledsave := t.regs.rx, err := codeOk } } := ⟨_, rfl⟩
      have pz : z.par = s.par := by rw [hz]; exact p1
      have lz : z.regs.ledsave = t.regs.rx := by rw [hz]
      have r1 : z.resetReq = false := by rw [hz]; exact r1
      have q1 : z.ret = .ok := by rw [hz]; exact q1
      rw [← hz, p1]
      have ms := measuring_runs z r1 q1 (by rw [pz]; exact hw)
      rw [pz, lz] at ms
      have p1 := pz
      cases hy : State.pseudoMeasuring z with
      | error f => rw [hy] at ms; exact reaches_mono ms (by omega)
      | ok p =>
        obtain ⟨r', u⟩ := p
        obtain ⟨a, b, c⟩ := pseudoMeasuring_frame hy
        have pu : u.par = s.par := a.trans p1
        have qu : u.ret = .ok := b.trans q1
        have ru : u.resetReq = false := c.trans r1
        rw [hy] at ms
        cases hf' : r'.failure with
        | none =>
          simp only [close, hf', Option.isSome, Bool.false_eq_true, if_false] at ms ⊢
          rw [withRet_self (s := State.startLedOff u) qu] at ms
          refine reaches_trans ms ?_
          have := ledoff_runs u ru qu (by rw [pu]; exact hw)
          rw [pu] at this; exact this
        | some f =>
          simp only [close, hf', Option.isSome, if_true, Ret.code] at ms ⊢
          rw [withRet_self (s := State.recordError f u) qu] at ms
          refine reaches_trans ms ?_
          obtain ⟨y, hy⟩ : ∃ y : State, y = { u with regs := { u.regs with err := f.code } } := ⟨_, rfl⟩
          have py : y.par = s.par := by rw [hy]; exact pu
          have ry : y.resetReq = false := by rw [hy]; exact ru
          have qy : y.ret = .ok := by rw [hy]; exact qu
          have := ledoff_runs y ry qy (by rw [py]; exact hw)
          rw [py] at this
          show Reaches _ (State.startLedOff { u with regs := { u.regs with err := f.code } }) _
          rw [← hy]; exact this

theorem pseudoDies_ret : ∀ {l s t}, pseudoDies l s = .ok t → t.ret = s.ret := by
  intro l
  induction l with
  | nil => intro s t h; cases h; rfl
  | cons d l ih =>
    intro s t h
    unfold pseudoDies State.pseudoSeldev at h
    split at h
    · cases h
    · rename_i r u hx
      split at h
      · cases h
      · rename_i v hy
        exact ((ih h).trans (pseudoChannels_frame _ hy).2.1).trans (pseudoWrvr_opFrame hx).ret

theorem pseudoDies_rst : ∀ {l s t}, pseudoDies l s = .ok t → t.resetReq = s.resetReq := by
  intro l
  induction l with
  | nil => intro s t h; cases h; rfl
  | cons d l ih =>
    intro s t h
    unfold pseudoDies State.pseudoSeldev at h
    split at h
    · cases h
    · rename_i r u hx
      split at h
      · cases h
      · rename_i v hy
        exact ((ih h).trans (pseudoChannels_frame _ hy).2.2.1).trans (pseudoWrvr_opFrame hx).rst

end Sys2Proof.Machine
end

