-- ==== Sys2Proof/Laws/Step.lean ====
section
/-! SUPPORT. What one step of a busy engine does: its call, the sequencer after it, and how a failure is handed on. -/

namespace Sys2Proof.Machine

/-- A `transmit` that answers puts itself on the trace, keeps who answers, and keeps the register file canonical. -/
theorem transmit_env {p bytes e a e'} (h : Env.transmit p bytes e = .ok (a, e')) :
    e'.trace = .transmit Config.devAddr7 bytes p.xferTimeout a :: e.trace ∧ e'.bus = e.bus ∧
    (Memory.wf e.sensor.vreg = true → Memory.wf e'.sensor.vreg = true) := by
  unfold Env.transmit at h
  split at h
  · cases h; exact ⟨rfl, rfl, fun _ => Sensor.wf_unknown _⟩
  · split at h
    · cases h; exact ⟨rfl, rfl, id⟩
    · split at h
      · cases h
      · rename_i x hx; cases h; exact ⟨rfl, rfl, fun w => Sensor.wf_transmit w hx⟩

/-- A `receive` that answers does the same. -/
theorem receive_env {p n e a e'} (h : Env.receive p n e = .ok (a, e')) :
    e'.trace = .receive Config.devAddr7 n p.xferTimeout a :: e.trace ∧ e'.bus = e.bus ∧
    (Memory.wf e.sensor.vreg = true → Memory.wf e'.sensor.vreg = true) := by
  unfold Env.receive at h
  split at h
  · cases h; exact ⟨rfl, rfl, fun _ => Sensor.wf_unknown _⟩
  · split at h
    · cases h; exact ⟨rfl, rfl, id⟩
    · split at h
      · cases h
      · rename_i b x hx; cases h; exact ⟨rfl, rfl, fun w => by have := Sensor.receive_vreg hx; simp only [Env.log] at this ⊢; rw [this]; exact w⟩

/-- A delay does the same. -/
theorem delay_env (p iv e) : (Env.delay p iv e).trace = .delay iv (p.duration iv) :: e.trace ∧ (Env.delay p iv e).bus = e.bus ∧
    (Memory.wf e.sensor.vreg = true → Memory.wf (Env.delay p iv e).sensor.vreg = true) := by
  unfold Env.delay
  split
  · exact ⟨rfl, by simp_all [Env.log], fun _ => Sensor.wf_unknown _⟩
  · exact ⟨rfl, by simp_all [Env.log], id⟩

/-- What an instruction that is one `transmit` leaves. -/
theorem call_tx {i s bytes u} (he : exec i s = (s.xferTx bytes).finish) (h : exec i s = .next u) :
   ∃ a e, s.env.transmit s.par bytes = .ok (a, e) ∧ u = { s with ret := a.ret, env := e } := by
  rw [he] at h
  unfold State.xferTx at h
  cases hx : s.env.transmit s.par bytes with
  | error f => rw [hx] at h; cases h
  | ok p => obtain ⟨a, e⟩ := p; rw [hx] at h; cases h; exact ⟨a, e, rfl, rfl⟩
/-- What an instruction that is one `receive` leaves. -/
theorem call_rx {i s u} (he : exec i s = (s.xferRx 1).finish) (h : exec i s = .next u) :
   ∃ a e, s.env.receive s.par 1 = .ok (a, e) ∧ u = { s with ret := a.ret, env := e } := by
  rw [he] at h
  unfold State.xferRx at h
  cases hx : s.env.receive s.par 1 with
  | error f => rw [hx] at h; cases h
  | ok p => obtain ⟨a, e⟩ := p; rw [hx] at h; cases h; exact ⟨a, e, rfl, rfl⟩

/-- A busy step is its call followed by the sequencer. -/
theorem step_busy {s t : State} (hr : s.resetReq = false) {i} (hi : s.issue = some i) (h : step s = .next t) :
   ∃ u, exec i s = .next u ∧ t = u.advance := by
  unfold step at h
  simp only [hr, hi, Bool.false_eq_true, if_false, State.runCall, Out.andThen] at h
  cases he : exec i s with
  | next u => rw [he] at h; cases h; exact ⟨u, rfl, rfl⟩
  | fault f => rw [he] at h; cases h
  | refused f => rw [he] at h; cases h

/-- The step that completes a command (R7, R23 (d)). -/
theorem step_complete {s : State} {c k} (hr : s.resetReq = false) (hs : s.seq = .ending c k) : step s = .next (s.complete c k) := by
  unfold step State.issue State.runPort
  simp [hr, hs]

/-- The step of an idle engine with nothing at its port. -/
theorem step_idle {s : State} (hr : s.resetReq = false) (hs : s.seq = .idle) (hc : s.cmds = []) : step s = .next s := by
  unfold step State.issue State.runPort
  simp [hr, hs, hc]

/-- The step of an idle engine with a word at its port. -/
theorem step_word {s : State} {w rest} (hr : s.resetReq = false) (hs : s.seq = .idle) (hc : s.cmds = w :: rest) :
    step s = s.runWord w rest := by
  unfold step State.issue State.runPort
  simp [hr, hs, hc]

/-- An engine that makes no call is idle or completing. -/
theorem issue_none {s : State} (h : s.issue = none) : s.seq = .idle ∨ ∃ c k, s.seq = .ending c k := by
  unfold State.issue at h
  cases hs : s.seq <;> simp_all

/-- What follows the end of a handshake: the parameters and the environment stay, and SEQ is in the long delay, at the first
step of a new handshake, or at the end of the command. Where `wrote` fails, a command that ends in a write does not end
Ok. -/
structure Quiet (wrote : Prop) (u v : State) : Prop where
  par : v.par = u.par
  env : v.env = u.env
  fresh : v.seq = .measDly ∨ (∃ c, v.seq = .writing c (.wA .ptr)) ∨ (∃ c, v.seq = .reading c (.rA .ptr)) ∨
    ∃ c k, v.seq = .ending c k ∧ (wrote ∨ k ≠ codeOk ∨ c = .rdvr ∨ c = .rdflt ∨ c = .rdall)

theorem Failure.code_ne_ok (f : Failure) : f.code ≠ codeOk := by cases f <;> decide
theorem firstCode_ne_ok (e : BitVec 2) (f : Failure) : firstCode e f.code ≠ codeOk := by
  unfold firstCode; split
  · assumption
  · exact f.code_ne_ok

theorem Quiet.ended {W u c k} (h : W ∨ k ≠ codeOk ∨ c = .rdvr ∨ c = .rdflt ∨ c = .rdall) : Quiet W u (State.endWith c k u) :=
  ⟨rfl, rfl, .inr (.inr (.inr ⟨c, k, rfl, h⟩))⟩
theorem Quiet.beginWrite {W u c a d} : Quiet W u (State.beginWrite c a d u) := ⟨rfl, rfl, .inr (.inl ⟨c, rfl⟩)⟩
theorem Quiet.beginRead {W u c a} : Quiet W u (State.beginRead c a u) := ⟨rfl, rfl, .inr (.inr (.inl ⟨c, rfl⟩))⟩
theorem Quiet.congr {W u u' v} (h : Quiet W u' v) (hp : u'.par = u.par) (he : u'.env = u.env) : Quiet W u v :=
  ⟨h.par.trans hp, h.env.trans he, h.fresh⟩
theorem Quiet.nextDie {W} (u : State) : Quiet W u u.nextDie := by
  unfold State.nextDie; split
  · exact Quiet.beginWrite.congr rfl rfl
  · exact .ended (by simp)
theorem Quiet.nextChannel {W} (u : State) : Quiet W u u.nextChannel := by
  unfold State.nextChannel; split
  · exact Quiet.beginRead.congr rfl rfl
  · exact .nextDie u
theorem substituteDie_env (t : State) : t.substituteDie.par = t.par ∧ t.substituteDie.env = t.env := by
  unfold State.substituteDie
  generalize ([0, 1, 2, 3, 4, 5] : List (BitVec 3)) = l
  induction l generalizing t with
  | nil => exact ⟨rfl, rfl⟩
  | cons c l ih => exact ih _
theorem Quiet.substituteDie {W} (u : State) : Quiet W u u.substituteDie.nextDie := (Quiet.nextDie _).congr (substituteDie_env u).1 (substituteDie_env u).2
theorem Quiet.failWrite {W} (u : State) (c f) : Quiet W u (u.failWrite c f) := by
  cases c with
  | sweepSel => exact .substituteDie u
  | ledonWr => exact Quiet.beginWrite.congr rfl rfl
  | measWr => exact Quiet.beginWrite.congr rfl rfl
  | ledoffWr => exact .ended (.inr (.inl (firstCode_ne_ok _ f)))
  | _ => exact .ended (.inr (.inl f.code_ne_ok))
theorem Quiet.failRead {W} (u : State) (c f) : Quiet W u (u.failRead c f) := by
  cases c with
  | sweepFlt i => exact (Quiet.nextChannel _).congr rfl rfl
  | measRd => exact Quiet.beginWrite.congr rfl rfl
  | measPoll => exact Quiet.beginWrite.congr rfl rfl
  | _ => exact .ended (.inr (.inl f.code_ne_ok))
theorem Quiet.doneWrite (u : State) (c) : Quiet True u (u.doneWrite c) := by
  cases c with
  | sweepSel => exact Quiet.beginRead.congr rfl rfl
  | ledonWr => exact Quiet.beginRead.congr rfl rfl
  | measWr => exact Quiet.beginRead.congr rfl rfl
  | _ => exact .ended (.inl trivial)
theorem Quiet.doneRead {W} (u : State) (c) : Quiet W u (u.doneRead c) := by
  cases c with
  | rdvr => exact .ended (by simp)
  | flt i =>
    unfold State.doneRead; simp only; split
    · exact (Quiet.ended (u := u.mergeRead i) (by simp)).congr rfl rfl
    · exact Quiet.beginRead.congr rfl rfl
  | sweepFlt i => unfold State.doneRead; simp only; split; exact (Quiet.nextChannel _).congr rfl rfl; exact Quiet.beginRead.congr rfl rfl
  | ledonRd => exact Quiet.beginWrite.congr rfl rfl
  | measRd => exact Quiet.beginWrite.congr rfl rfl
  | measPoll =>
    unfold State.doneRead; simp only; split
    · exact ⟨rfl, rfl, .inl rfl⟩
    · exact Quiet.beginWrite.congr rfl rfl
theorem Quiet.doneMeasDelay {W} (u : State) : Quiet W u u.doneMeasDelay := by
  unfold State.doneMeasDelay; split
  · exact Quiet.beginWrite.congr rfl rfl
  · exact Quiet.beginRead.congr rfl rfl

/-- Under the oracle a step that transmits, by its answer. -/
theorem step_send {s : State} {i bytes r} (hr : s.resetReq = false) (hb : s.env.bus = .oracle) (hi : s.issue = some i)
   (he : exec i s = (s.xferTx bytes).finish) (hn : s.env.nextTx = r) :
   step s = .next (State.advance { s with ret := r.ret, env := ({ s.env with txAnswers := s.env.txAnswers.tail }).called (.transmit 0x49 bytes s.par.xferTimeout r) }) := by
  unfold step
  simp [hr, hi, State.runCall, he, State.xferTx, Env.transmit, hb, Run.finish, Out.andThen, hn]
  rfl
/-- Under the oracle a step that receives, by its answer. -/
theorem step_recv {s : State} {i r} (hr : s.resetReq = false) (hb : s.env.bus = .oracle) (hi : s.issue = some i)
   (he : exec i s = (s.xferRx 1).finish) (hn : s.env.nextRx = r) :
   step s = .next (State.advance { s with ret := r.ret, env := ({ s.env with rxAnswers := s.env.rxAnswers.tail }).called (.receive 0x49 1 s.par.xferTimeout r) }) := by
  unfold step
  simp [hr, hi, State.runCall, he, State.xferRx, Env.receive, hb, Run.finish, Out.andThen, hn]
  rfl
/-- Under the oracle a step that delays. -/
theorem step_delay {s : State} {iv} (hr : s.resetReq = false) (hb : s.env.bus = .oracle) (hi : s.issue = some (.delay iv)) :
   step s = .next (State.advance { s with ret := .ok, env := { s.env with sensor := Sensor.unknown s.env.fresh, fresh := s.env.fresh + 1, trace := .delay iv (s.par.duration iv) :: s.env.trace } }) := by
  unfold step
  simp [hr, hi, State.runCall, exec, execDelay, Out.andThen, State.doDelay, Env.delay, hb, Env.log]
  rfl

/-- A step whose call fails hands the failure to the handshake's context, with the registers as they were. -/
theorem step_coming {s : State} (hr : s.resetReq = false) (hb : s.env.bus = .oracle) {f} (hf : s.coming = some f) :
   ∃ u, step s = .next (State.withRet .ok u) ∧ ∃ e r, 
     (∀ c w, s.seq = .writing c w → u = State.failWrite c f { s with env := e, ret := r }) ∧
     (∀ c w, s.seq = .reading c w → u = State.failRead c f { s with env := e, ret := r }) ∧
     (s.seq = .measDly → f = .timeout ∧ u = State.recordError .timeout { s with env := e, ret := r }) := by
  have tx : ∀ {i bytes}, s.issue = some i → exec i s = (s.xferTx bytes).finish → s.env.txFailure = some f → f = .busError ∧ ∃ e, step s = .next (State.advance { s with ret := .busError, env := e }) := by
    intro i bytes hi he h
    have hn : s.env.nextTx = .busError := by
      unfold Env.txFailure at h; split at h; assumption; cases h
    refine ⟨?_, _, step_send hr hb hi he hn⟩
    simp [Env.txFailure, hn] at h; exact h.symm
  have rx : ∀ {i}, s.issue = some i → exec i s = (s.xferRx 1).finish → s.env.rxFailure = some f → f = .busError ∧ ∃ e, step s = .next (State.advance { s with ret := .busError, env := e }) := by
    intro i hi he h
    have hn : s.env.nextRx = .busError := by
      unfold Env.rxFailure at h; split at h; assumption; cases h
    refine ⟨?_, _, step_recv hr hb hi he hn⟩
    simp [Env.rxFailure, hn] at h; exact h.symm
  unfold State.coming at hf
  cases hs : s.seq with
  | idle => simp [hs, Seq.pollAt] at hf
  | ending c k => simp [hs, Seq.pollAt] at hf
  | measDly =>
    simp [hs, Seq.pollAt] at hf
    have := step_delay hr hb (show s.issue = some (.delay .measPoll) by simp [State.issue, hs])
    rw [this]
    simp only [State.advance, hs, State.doneMeasDelay, hf.1, if_true]
    exact ⟨_, rfl, _, _, by simp, by simp, fun _ => ⟨hf.2.symm, rfl⟩⟩
  | writing c w =>
    have iss : s.issue = some (w.issue s.regs) := by simp [State.issue, hs]
    cases w with
    | wB =>
      simp [hs, Seq.pollAt] at hf
      obtain ⟨rfl, e, h⟩ := tx iss rfl hf
      rw [h]; simp only [State.advance, hs, State.advanceWrite]
      exact ⟨_, rfl, _, _, by rintro _ _ ⟨⟩; rfl, by simp, by simp⟩
    | wD =>
      simp [hs, Seq.pollAt] at hf
      obtain ⟨rfl, e, h⟩ := tx iss rfl hf
      rw [h]; simp only [State.advance, hs, State.advanceWrite]
      exact ⟨_, rfl, _, _, by rintro _ _ ⟨⟩; rfl, by simp, by simp⟩
    | _ p =>
      cases p
      · simp [hs, Seq.pollAt] at hf
        obtain ⟨rfl, e, h⟩ := tx iss rfl hf
        rw [h]; simp only [State.advance, hs, State.advanceWrite, State.pollMove]
        exact ⟨_, rfl, _, _, by rintro _ _ ⟨⟩; rfl, by simp, by simp⟩
      · simp [hs, Seq.pollAt] at hf
        obtain ⟨rfl, e, h⟩ := rx iss rfl hf
        rw [h]; simp only [State.advance, hs, State.advanceWrite, State.pollMove]
        exact ⟨_, rfl, _, _, by rintro _ _ ⟨⟩; rfl, by simp, by simp⟩
      · simp [hs, Seq.pollAt] at hf
        have := step_delay hr hb (show s.issue = some (.delay .txPoll) by rw [iss]; rfl)
        rw [this]
        simp only [State.advance, hs, State.advanceWrite, State.pollMove, hf.1, if_true]
        exact ⟨_, rfl, _, _, by rintro _ _ ⟨⟩; rw [← hf.2], by simp, by simp⟩
  | reading c w =>
    have iss : s.issue = some (w.issue s.regs) := by simp [State.issue, hs]
    cases w with
    | rB =>
      simp [hs, Seq.pollAt] at hf
      obtain ⟨rfl, e, h⟩ := tx iss rfl hf
      rw [h]; simp only [State.advance, hs, State.advanceRead]
      exact ⟨_, rfl, _, _, by simp, by rintro _ _ ⟨⟩; rfl, by simp⟩
    | rE p =>
      cases p
      · simp [hs, Seq.pollAt] at hf
        obtain ⟨rfl, e, h⟩ := tx iss rfl hf
        rw [h]; simp only [State.advance, hs, State.advanceRead]
        exact ⟨_, rfl, _, _, by simp, by rintro _ _ ⟨⟩; rfl, by simp⟩
      · simp [hs, Seq.pollAt] at hf
        obtain ⟨rfl, e, h⟩ := rx iss rfl hf
        rw [h]; simp only [State.advance, hs, State.advanceRead]
        exact ⟨_, rfl, _, _, by simp, by rintro _ _ ⟨⟩; rfl, by simp⟩
    | _ p =>
      cases p
      · simp [hs, Seq.pollAt] at hf
        obtain ⟨rfl, e, h⟩ := tx iss rfl hf
        rw [h]; simp only [State.advance, hs, State.advanceRead, State.pollMove]
        exact ⟨_, rfl, _, _, by simp, by rintro _ _ ⟨⟩; rfl, by simp⟩
      · simp [hs, Seq.pollAt] at hf
        obtain ⟨rfl, e, h⟩ := rx iss rfl hf
        rw [h]; simp only [State.advance, hs, State.advanceRead, State.pollMove]
        exact ⟨_, rfl, _, _, by simp, by rintro _ _ ⟨⟩; rfl, by simp⟩
      · simp [hs, Seq.pollAt] at hf
        first
        | rw [step_delay (iv := .txPoll) hr hb (by rw [iss]; rfl)]
        | rw [step_delay (iv := .rxPoll) hr hb (by rw [iss]; rfl)]
        simp only [State.advance, hs, State.advanceRead, State.pollMove, hf.1, if_true]
        exact ⟨_, rfl, _, _, by simp, by rintro _ _ ⟨⟩; rw [← hf.2], by simp⟩

end Sys2Proof.Machine
end

