-- ==== Sys2Proof/Tests/Slice0.lean ====
section
/-! SUPPORT. The model's own tests: ill-formed terms refused, words written out from the spec's encodings, one step of
each instruction with a result taken from spec/95_test_vectors.md or worked by hand from the rule named, and, for each
statement with hypotheses, a state that meets them. -/

namespace Sys2Proof.Tests

open Sys2Proof.Machine

/-! Small states. -/

/-- The parameters of program P4 (file 95) with short bounds. -/
def par : Params where
  statusReg := 0x00
  writeReg := 0x01
  readReg := 0x02
  byteOrder := .be
  txPollMax := 3
  txPollInterval := 1000
  rxPollMax := 4
  rxPollInterval := 2000
  measPollMax := 2
  measPollInterval := 10000
  xferTimeout := 50
  ledControlVaddr := 0x07
  ledDrvEnMask := 0x08
  controlSetupVaddr := 0x04
  measBusyMask := 0x02

/-- RD between transactions, die slave1 selected, three registers set. -/
def device : Sensor where
  ptr := 0x02
  statusHi := 0
  write := 0
  read := 0x41
  rdv := true
  pend := .none
  sel := .slave1
  vreg := [(0x04, 0x28), (0x07, 0x01), (0x94, 0x41)]
  tc := 0
  rc := 0
  bc := 0

def rd00 : RefDevice := ⟨0, 0, .off, []⟩

def state (b : BusModel) (x : Sensor) (tx : List TxAnswer) (rx : List RxAnswer) (q : Seq) (r : Regs)
    (cmds : List CmdWord) : State where
  par := par
  seq := q
  regs := r
  rsp := Rsp.reset
  ret := .ok
  cmds := cmds
  resetReq := false
  env := ⟨b, tx, rx, x, 0, 1, []⟩

/-- Under the oracle with these answers settled, at a place of the sequencer, with these registers. -/
def oracle (tx : List TxAnswer) (rx : List RxAnswer) (q : Seq) (r : Regs) : State := state .oracle device tx rx q r []

/-- On a reference device. -/
def onDevice (rd : RefDevice) (x : Sensor) (q : Seq) (r : Regs) : State := state (.reference rd) x [] [] q r []

/-- An idle engine with words at its port. -/
def waiting (cmds : List CmdWord) : State := state .oracle device [] [] .idle Regs.reset cmds

def zero : Regs := Regs.reset

/-- One value taken from a step's next state. -/
def of {α : Type} (o : Out) (f : State → α) : Option α :=
  match o with
  | .next t => some (f t)
  | .fault _ => none
  | .refused _ => none

/-! WellFormed: an ill-formed term for each check. -/

theorem smoke_seldev_three : (Instr.seldev 3).wf = false := by decide
theorem smoke_rdflt_above : (Instr.rdflt 0x7D).wf = false := by decide
theorem smoke_poll_no_attempt : (Instr.poll 0x02 0x00 0 .txPoll).wf = false := by decide
theorem smoke_poll_want_outside : (Instr.poll 0x02 0x01 1 .txPoll).wf = false := by decide
theorem smoke_limits_admitted : (Instr.seldev 2).wf ∧ (Instr.rdflt 0x7C).wf ∧ (Instr.poll 0x01 0x01 1 .rxPoll).wf := by decide
theorem test_parameters_legal : par.wf = true := by decide
theorem test_default_parameters_legal : Params.default.wf = true := by
  have h : ∀ n : Fin 65535, BitVec.ofNat 16 (n.val + 1) ≠ 0 := by
    intro n e
    have := congrArg BitVec.toNat e
    simp at this
    omega
  have k : ∀ n : Fin 8, oneBit (1#8 <<< n.val) = true := by decide
  simp only [Params.wf, Params.default, h, k, ne_eq, not_false_eq_true, decide_true, Bool.and_true]
  decide

/-! Decoding: words written out bit by bit (R101, R110 to R113, R122). -/

theorem test_decode_wrvr : decodeCmd (0b000_1111111_11111111 : BitVec 18) = .ok (.wrvr 0x7F 0xFF) := by decide
theorem test_decode_rdvr : decodeCmd (0b001_0010100_00000000 : BitVec 18) = .ok (.rdvr 0x14) := by decide
theorem test_decode_seldev : decodeCmd (0b010_0000000_00000010 : BitVec 18) = .ok (.seldev 2) := by decide
theorem test_decode_rdflt : decodeCmd (0b011_1111100_00000000 : BitVec 18) = .ok (.rdflt 0x7C) := by decide
theorem test_decode_rdall : decodeCmd (0b100_0000000_00000000 : BitVec 18) = .ok .rdall := by decide
theorem test_decode_meas : decodeCmd (0b101_0000000_00000000 : BitVec 18) = .ok .meas := by decide
theorem test_decode_reserved6 : decodeCmd (0b110_0000001_00000010 : BitVec 18) = .ok (.reserved6 0x102) := by decide
theorem test_decode_reserved7 : decodeCmd (0b111_1111111_11111111 : BitVec 18) = .ok (.reserved7 0x7FFF) := by decide
theorem test_decode_refused_by_name :
    decodeCmd 0x09401 = .error .dataNotZero ∧ decodeCmd 0x10101 = .error .addrNotZero ∧
    decodeCmd 0x10004 = .error .dataNotZero ∧ decodeCmd 0x10003 = .error .deviceIdOutOfRange ∧
    decodeCmd 0x1FD00 = .error .baseOutOfRange ∧ decodeCmd 0x20001 = .error .dataNotZero ∧
    decodeCmd 0x28100 = .error .addrNotZero := by decide
theorem test_decode_wire : decodeWire .command 0b1_1001111 = .vwra 0x4F ∧ decodeWire .command 0b0_0010100 = .vrda 0x14 ∧
    decodeWire .data 0b10010100 = .vdata 0x94 ∧ decodeWire .status 0b11111110 = .status 0xFE := by decide
theorem test_decode_frames : decodeFrame par [0x00] = .ok .ptrStatus ∧ decodeFrame par [0x02] = .ok .ptrRead ∧
    decodeFrame par [0x01, 0xCF] = .ok (.wrWrite 0xCF) ∧ decode par (.receive 1) = .ok .get1 := by decide
theorem test_decode_no_frame : decodeFrame par [0x01] = .error .noSuchFrame ∧ decodeFrame par [] = .error .noSuchFrame ∧
    decodeFrame par [0x00, 0x01] = .error .noSuchFrame ∧ decode par (.receive 2) = .error .noSuchReceive := by decide
theorem test_table_words : decodeTableWord 18 0x10001 = some (.seldev 1) ∧ decodeTableWord 24 0x20000 = some .rdall ∧
    decodeTableWord 8 0xCF = some (.vwra 0x4F) ∧ decodeTableWord 8 0x14 = some (.vrda 0x14) ∧
    decodeTableWord 16 0x01CF = some (.wrWrite 0xCF) := by decide
theorem test_asm : asm (.wrvr 0x4F 0x01) = some "WRVR 0x4F, 0x01" ∧ asm (Instr.rdch 5) = some "RDFLT 0x28" := by decide

/-! Commands: acceptance and refusal (R103, V40, V54). -/

theorem test_wrvr_accepted : of (step (waiting [0x04F07])) (fun t => (t.seqTuple, t.regs.a, t.regs.d, t.cmds)) =
    some ((.wrvr, .none, .wA, .pPtr), 0x4F, 0x07, []) := by decide
theorem test_rdvr_accepted : of (step (waiting [0x0FF00, 1])) (fun t => (t.seqTuple, t.regs.op, t.regs.a, t.cmds)) =
    some ((.rdvr, .none, .rA, .pPtr), 1, 0x7F, [1]) := by decide
theorem test_seldev_accepted : of (step (waiting [0x10002])) (fun t => (t.seqTuple, t.regs.a, t.regs.d)) =
    some ((.seldev, .none, .wA, .pPtr), 0x4F, 2) := by decide
theorem test_seldev_three_refused : of (step (waiting [0x10003])) (fun t => (t.seq, t.rsp.status, t.regs, t.env.calls)) =
    some (.idle, 3, zero, 0) := by decide
theorem test_rdflt_accepted : of (step (waiting [0x1FC00])) (fun t => (t.seqTuple, t.regs.base, t.regs.a)) =
    some ((.rdflt, .b 0, .rA, .pPtr), 0x7C, 0x7C) := by decide
theorem test_rdflt_above_refused : of (step (waiting [0x1FD00])) (fun t => (t.seq, t.rsp.status, t.env.trace)) =
    some (.idle, 3, [.done 3, .accept 0x1FD00]) := by decide
theorem test_rdall_accepted : of (step (waiting [0x20000])) (fun t => (t.seqTuple, t.regs.op, t.regs.d)) =
    some ((.rdall, .sel 0, .wA, .pPtr), 4, 0) := by decide
theorem test_meas_accepted : of (step (waiting [0x28000])) (fun t => (t.seqTuple, t.regs.a)) =
    some ((.meas, .ledonRd, .rA, .pPtr), 0x07) := by decide
theorem test_reserved6_refused : of (step (waiting [0x30000])) (fun t => (t.seq, t.response)) = some (.idle, .refused) := by decide
theorem test_reserved7_refused : of (step (waiting [0x3FFFF])) (fun t => (t.seq, t.response)) = some (.idle, .refused) := by decide
theorem test_busy_word_waits : of (exec (.seldev 1) (oracle [] [] .measDly zero)) (fun t => (t.seq, t.cmds)) =
    some (.measDly, [0x10001]) := by decide

/-! Wire bytes, frames and micro-operations (R113, R140 to R149; V20 to V37). -/

theorem test_vwra_sends : of (step (oracle [.ok] [] (.writing .wrvr .wB) { zero with a := 0x10 })) (fun t => (t.seq, t.env.trace)) =
    some (.writing .wrvr (.wC .ptr), [.transmit 0x49 [0x01, 0x90] 50 .ok]) := by decide
theorem test_vwra_waits_for_data : of (step (onDevice rd00 device (.writing .wrvr .wB) { zero with a := 0x10 }))
    (fun t => (t.env.sensor.pend, t.env.sensor.vreg)) = some (.writeTo 0x10, device.vreg) := by decide
theorem test_vrda_reads_selected_die : of (step (onDevice ⟨0, 2, .off, []⟩ { device with rdv := false, read := 0 } (.reading .rdvr .rB) { zero with a := 0x14 }))
    (fun t => (t.env.sensor.read, t.env.sensor.rdv, t.env.sensor.rc)) = some (0x41, true, 2) := by decide
theorem test_vdata_stores : of (step (onDevice rd00 { device with pend := .writeTo 0x10 } (.writing .wrvr .wD) { zero with d := 0xA5 }))
    (fun t => (t.env.sensor.vreg, t.env.sensor.pend, t.env.trace)) =
    some ([(0x04, 0x28), (0x07, 0x01), (0x90, 0xA5), (0x94, 0x41)], .none, [.transmit 0x49 [0x01, 0xA5] 50 .ok]) := by decide
theorem test_vdata_selects : of (step (onDevice rd00 { device with pend := .writeTo 0x4F } (.writing .seldev .wD) { zero with d := 2 }))
    (fun t => (t.env.sensor.sel, t.env.sensor.vreg)) = some (.slave2, device.vreg) := by decide
theorem test_selector_out_of_range : exec (.vdata 7) (onDevice rd00 { device with pend := .writeTo 0x4F } .idle zero) =
    .fault .rdSelectorOutOfRange := rfl
theorem test_status_latched : of (exec (.status 0xFE) (oracle [] [] .idle zero)) (fun t => (t.regs.st, t.ret)) =
    some (0xFE, .byte 0xFE) := by decide
theorem test_ptr_status : of (exec .ptrStatus (onDevice rd00 device .idle zero)) (fun t => (t.ret, t.env.sensor.ptr)) =
    some (.ok, 0x00) := by decide
theorem test_ptr_read_fails : of (exec .ptrRead (onDevice ⟨0, 0, .off, [1]⟩ { device with ptr := 9 } .idle zero))
    (fun t => (t.ret, t.env.sensor.ptr, t.env.calls)) = some (.busError, 9, 1) := by decide
theorem test_wr_write_pending : of (exec (.wrWrite 0x14) (onDevice ⟨2, 1, .off, []⟩ device .idle zero))
    (fun t => (t.env.sensor.tc, t.env.sensor.statusByte)) = some (2, 0x02) := by decide
theorem test_write_while_pending : exec (.wrWrite 0x14) (onDevice rd00 { device with tc := 1 } .idle zero) =
    .fault .rdWriteWhilePending := rfl
theorem test_status_high_bits_zero : of (exec .get1 (onDevice rd00 { device with ptr := 0x00, statusHi := 0x3F } .idle zero)) (fun t => t.ret) =
    some (.byte 0x01) := by decide
theorem test_get1_reads : of (exec .get1 (onDevice rd00 device .idle zero)) (fun t => (t.ret, t.env.sensor.rdv, t.regs)) =
    some (.byte 0x41, false, zero) := by decide
theorem test_get1_not_ready : exec .get1 (onDevice rd00 { device with rdv := false } .idle zero) = .fault .rdReadNotReady := rfl
theorem test_rdstatus : of (exec .rdstatus (onDevice rd00 { device with tc := 1 } .idle zero)) (fun t => (t.regs.st, t.ret, t.env.calls)) =
    some (0x02, .byte 0x02, 2) := by decide
theorem test_rdstatus_no_receive : of (exec .rdstatus (oracle [.busError] [.byte 7] .idle zero))
    (fun t => (t.ret, t.env.calls, t.env.rxAnswers)) = some (.busError, 1, [.byte 7]) := by decide
theorem test_wrwrite : of (exec (.wrwrite 0xCF) (oracle [.ok] [] .idle zero)) (fun t => (t.ret, t.env.trace)) =
    some (.ok, [.transmit 0x49 [0x01, 0xCF] 50 .ok]) := by decide
theorem test_rdread : of (exec .rdread (oracle [.ok] [.byte 0x41] .idle zero)) (fun t => (t.regs.rx, t.ret, t.env.trace)) =
    some (0x41, .byte 0x41, [.receive 0x49 1 50 (.byte 0x41), .transmit 0x49 [0x02] 50 .ok]) := by decide
theorem test_delay : of (exec (.delay .rxPoll) (oracle [] [] .idle zero)) (fun t => (t.ret, t.env.trace, t.env.calls)) =
    some (.ok, [.delay .rxPoll 2000], 0) := by decide
theorem test_poll_last_attempt : of (exec (.poll 0x02 0x00 2 .txPoll) (oracle [.ok, .ok] [.byte 0x02, .byte 0xFD] .idle zero))
    (fun t => (t.ret, t.regs.cnt, t.regs.st, callsIn t.env.trace, delaysIn t.env.trace)) = some (.ok, 2, 0xFD, 4, 1) := by decide
theorem test_poll_one_attempt_times_out : of (exec (.poll 0x01 0x01 1 .rxPoll) (oracle [.ok, .ok] [.byte 0x02, .byte 0x01] .idle zero))
    (fun t => (t.ret, callsIn t.env.trace, delaysIn t.env.trace)) = some (.timeout, 2, 1) := by decide
theorem test_waittx_times_out : of (exec .waittx (oracle [.ok, .ok, .ok] [.byte 2, .byte 2, .byte 2] .idle zero))
    (fun t => (t.ret, t.regs.cnt, callsIn t.env.trace, delaysIn t.env.trace)) = some (.timeout, 3, 6, 3) := by decide
theorem test_waitrx_ignores_tx : of (exec .waitrx (oracle [.ok] [.byte 3] .idle zero)) (fun t => (t.ret, t.regs.cnt)) =
    some (.ok, 1) := by decide

/-! The sequences (R185, R191, R195 to R198, R212). -/

theorem test_float_bytes : mergeByte .be 3 (mergeByte .be 2 (mergeByte .be 1 (mergeByte .be 0 0xFFFFFFFF 0x41) 0x48) 0) 0 = 0x41480000 ∧
    mergeByte .le 3 (mergeByte .le 2 (mergeByte .le 1 (mergeByte .le 0 0xFFFFFFFF 0x41) 0x48) 0) 0 = 0x00004841 := by decide
theorem test_float_value : bits32ToF32 0x41480000 = .finite false (25 * 2 ^ 19) (-20) ∧ bits32ToF32 0x00004841 = .finite false 18497 (-149) ∧
    bits32ToF32 0xFFFFFFFF = .nan 1 0x7FFFFF ∧ bits32ToF32 0x7F800000 = .infinite false ∧
    bits32ToF32 0x80000000 ≠ bits32ToF32 0x00000000 := by decide
theorem test_float_ends : of (step (oracle [] [.byte 0x01] (.reading (.flt 3) (.rE .get)) { zero with op := 3, acc := 0x7FC00000 }))
    (fun t => (t.seqTuple, t.busy, t.rsp.pending, t.regs.acc)) =
    some ((.rdflt, .none, .none, .none), true, false, 0x7FC00001) := by decide
theorem test_float_answers : of (step (oracle [] [] (.ending .rdflt 0) { zero with op := 3, acc := 0x7FC00001 }))
    (fun t => (t.seq, t.response, t.env.trace)) = some (.idle, .okWord 0x7FC00001, [.done 0]) := by decide
theorem test_rdvr_answers : of (step (oracle [] [] (.ending .rdvr 0) { zero with op := 1, rx := 0x41 }))
    (fun t => (t.seq, t.response, t.env.calls)) = some (.idle, .okByte 0x41, 0) := by decide
theorem test_rdall_answers : of (step (oracle [] [] (.ending .rdall 0) { zero with op := 4, fail := 0x00100 }))
    (fun t => (t.seq, t.response)) = some (.idle, .okAll (Vector.replicate 18 0) 0x00100) := by decide
theorem test_acceptance_holds_response : of (step { waiting [0x20000] with rsp := { Rsp.reset with fail := 0x00FC0, pending := true } })
    (fun t => (t.rsp.fail, t.rsp.pending, t.regs.fail)) = some (0x00FC0, false, 0) := by decide
theorem test_sweep_holds_response : of (step { oracle [.busError] [] (.writing .sweepSel (.wA .ptr)) { zero with op := 4, dev := 2 } with
      rsp := { Rsp.reset with fail := 0x00FC0 } }) (fun t => (t.rsp.fail, t.regs.fail)) = some (0x00FC0, 0x3F000) := by decide
theorem test_reset_before_response : of (step { oracle [] [] (.ending .rdvr 0) { zero with op := 1, rx := 0x41 } with resetReq := true })
    (fun t => (t.seq, t.rsp.pending, t.env.trace)) = some (.idle, false, [.reset]) := by decide
theorem test_word_waits_for_response : of (step { oracle [] [] (.ending .meas 1) { zero with op := 5 } with cmds := [0x10001] })
    (fun t => (t.seq, t.response, t.cmds)) = some (.idle, .timeout, [0x10001]) := by decide
theorem test_sweep_stores_channel : of (step (oracle [] [.byte 0x05] (.reading (.sweepFlt 3) (.rE .get))
      { zero with op := 4, dev := 1, ch := 5, acc := 0x41480000, fail := 0x3FFFF }))
    (fun t => (t.seqTuple, t.regs.res[11], t.regs.fail, t.regs.d)) =
    some ((.rdall, .sel 2, .wA, .pPtr), 0x41480005, 0x3F7FF, 2) := by decide
theorem test_sweep_loses_die : of (step (oracle [.busError] [] (.writing .sweepSel (.wA .ptr)) { zero with op := 4, dev := 1, fail := 1 }))
    (fun t => (t.seqTuple, t.regs.fail)) = some ((.rdall, .sel 2, .wA, .pPtr), 0x00FC1) := by decide
theorem test_meas_led_value : of (step (oracle [] [.byte 0x01] (.reading .ledonRd (.rE .get)) { zero with op := 5 }))
    (fun t => (t.seqTuple, t.regs.ledsave, t.regs.d)) = some ((.meas, .ledonWr, .wA, .pPtr), 0x01, 0x09) := by decide
theorem test_meas_times_out : of (step (oracle [] [] .measDly { zero with op := 5, cnt2 := 2, ledsave := 0x09 }))
    (fun t => (t.seqTuple, t.regs.err, t.regs.a, t.regs.d)) = some ((.meas, .ledoffWr, .wA, .pPtr), 1, 0x07, 0x01) := by decide
theorem test_reset_mid_command : of (step { oracle [] [] (.writing .ledonWr .wD) { zero with op := 5 } with resetReq := true, cmds := [0x10001] })
    (fun t => (t.seq, t.resetReq, t.cmds, t.env.trace)) = some (.idle, false, [0x10001], [.reset]) := by decide
theorem test_fetch_word : (State.reset.withFetchWord 18 0x04F01).issue = none ∧
    (State.reset.withFetchWord 8 0xCF).issue = some (.vwra 0x4F) ∧ (State.reset.withFetchWord 16 0x01A5).issue = some (.vdata 0xA5) := by decide

/-! Witnesses: for each statement with hypotheses, values that meet all of them, one for each clause, at its boundaries. -/

theorem witness_EncodeThenDecode : par.wf = true ∧ (Instr.rdflt 0x7C).wf = true ∧
    encode par (.rdflt 0x7C) = some (.command 0x1FC00) ∧ encode par (.vwra 0x7F) = some (.wire .command 0xFF) ∧
    encode par (.wrWrite 0xFF) = some (.frame [0x01, 0xFF]) ∧ encode par .get1 = some (.receive 1) := by decide
theorem witness_DecodeThenEncode : decode par (.command 0x10002) = .ok (.seldev 2) ∧
    decode par (.wire .command 0x80) = .ok (.vwra 0x00) ∧ decode par (.frame [0x02]) = .ok .ptrRead := by decide
theorem witness_refused_words : refusedWord 0x30000 ∧ refusedWord 0x3FFFF ∧ refusedWord 0x08001 ∧ refusedWord 0x18001 ∧ refusedWord 0x10100 ∧
    refusedWord 0x10004 ∧ refusedWord 0x20001 ∧ refusedWord 0x28100 ∧ refusedWord 0x1FD00 ∧ refusedWord 0x10003 := by
  refine ⟨?_, ?_, ?_, ?_, ?_, ?_, ?_, ?_, ?_, ?_⟩ <;> unfold refusedWord <;> decide
theorem witness_admitted_words : ¬ refusedWord 0x00000 ∧ ¬ refusedWord 0x0FF00 ∧ ¬ refusedWord 0x10002 ∧ ¬ refusedWord 0x1FC00 ∧ ¬ refusedWord 0x20000 ∧ ¬ refusedWord 0x28000 := by
  refine ⟨?_, ?_, ?_, ?_, ?_, ?_⟩ <;> unfold refusedWord <;> decide
theorem witness_idle_with_word : (waiting [0x10003, 1]).seq = .idle ∧ (waiting [0x10003, 1]).resetReq = false ∧
    (waiting [0x10003, 1]).cmds = [0x10003, 1] := by decide
theorem witness_SweepAddresses : (0x7C : VAddr).toNat ≤ 0x7C ∧ (5 : BitVec 3).toNat ≤ 5 ∧ (2 : BitVec 2).toNat ≤ 2 := by decide
theorem witness_StepRunsTheInstruction : (oracle [] [] .measDly zero).resetReq = false ∧
    (oracle [] [] .measDly zero).issue = some (.delay .measPoll) ∧ decodeCmd 0x10002 = .ok (.seldev 2) ∧
    (waiting []).seq = .idle ∧ (waiting []).cmds = [] := by decide
theorem witness_CommandsAccepted : (waiting []).seq = .idle ∧ (2 : BitVec 2) ≠ 3 ∧ (0x7C : VAddr).toNat ≤ 0x7C ∧
    (0x7D : VAddr).toNat > 0x7C := by decide
theorem witness_BusyCommandWaits : (oracle [] [] .measDly zero).seq ≠ .idle ∧
    encode (oracle [] [] .measDly zero).par (.seldev 2) = some (.command 0x10002) ∧
    (oracle [] [] .measDly zero).resetReq = false ∧ (of (step (oracle [] [] .measDly zero)) fun _ => ()).isSome := by decide
theorem witness_OneCallAndOneResponse : (waiting [0x10003]).resetReq = false ∧ (of (step (waiting [0x10003])) fun _ => ()).isSome ∧
    (of (step (waiting [])) fun _ => ()).isSome ∧
    (of (step (oracle [.busError] [] (.writing .wrvr .wB) zero)) fun _ => ()).isSome := by decide
theorem witness_SendFramesComplete : (oracle [.busError] [] .idle zero).env.bus = .oracle := by decide
theorem witness_MicroOperationFrames : ∀ i ∈ [Instr.ptrStatus, .ptrRead, .wrWrite 1, .get1, .vwra 1, .vrda 1, .vdata 1, .wrwrite 1,
      .delay .measPoll, .status 1, .rdstatus, .rdread, .poll 0x02 0x00 1 .txPoll, .waittx, .waitrx],
    (of (exec i (oracle [.ok, .ok, .ok] [.byte 0x01, .byte 0x01, .byte 0x01] .idle zero)) fun _ => ()).isSome := by decide
theorem witness_reads_transmit_fails : (oracle [.busError] [] .idle zero).env.bus = .oracle ∧
    (oracle [.busError] [] .idle zero).env.nextTx = .busError := by decide
theorem witness_reads_receive_fails : (oracle [.ok] [.busError] .idle zero).env.nextTx = .ok ∧
    ({ (oracle [.ok] [.busError] .idle zero).env with fresh := 2 }).nextRx = .busError := by decide
theorem witness_reads_byte : (oracle [.ok] [.byte 0xFF] .idle zero).env.nextTx = .ok ∧
    ({ (oracle [.ok] [.byte 0xFF] .idle zero).env with fresh := 2 }).nextRx = .byte 0xFF := by decide
theorem witness_DelayCompletes : (oracle [] [] .idle zero).env.bus = .oracle ∧
    (onDevice rd00 device .idle zero).env.bus = .reference rd00 := by decide

/-- One miss, then the attempt that decides; the bound is 2, or 1 for the Timeout. -/
theorem witness_PollCosts : (∀ m ∈ [(0x02 : Byte)], pollHit 0x02 0x00 m = false) ∧ pollHit 0x02 0x00 0xFD = true ∧
    [(0x02 : Byte)].length < (2 : Count).toNat ∧ [(0x02 : Byte)].length = (1 : Count).toNat ∧ (1 : Count) ≠ 0 ∧
    (oracle [.ok, .ok] [.byte 0x02, .byte 0xFD] .idle zero).env.txAnswers = List.replicate (1 + 1) .ok ++ [] ∧
    (oracle [.ok, .ok] [.byte 0x02, .byte 0xFD] .idle zero).env.rxAnswers = [(0x02 : Byte)].map .byte ++ .byte 0xFD :: [] ∧
    (oracle [.ok] [.byte 0x02] .idle zero).env.txAnswers = List.replicate 1 .ok ++ [] ∧
    (oracle [.ok] [.byte 0x02] .idle zero).env.rxAnswers = [(0x02 : Byte)].map .byte ++ [] ∧
    (oracle [.ok, .busError] [.byte 0x02] .idle zero).env.txAnswers = List.replicate 1 .ok ++ .busError :: [] ∧
    (oracle [.ok, .ok] [.byte 0x02, .busError] .idle zero).env.rxAnswers = [(0x02 : Byte)].map .byte ++ .busError :: [] ∧
    (oracle [.ok, .ok] [.byte 0x02, .busError] .idle zero).env.txAnswers = List.replicate (1 + 1) .ok ++ [] := by decide
theorem witness_PollAlwaysEnds : (oracle [] [] .idle zero).env.bus = .oracle ∧ (1 : Count) ≠ 0 ∧ (0xFFFF : Count) ≠ 0 := by decide
theorem witness_WaitsComplete : (oracle [] [] .idle zero).env.bus = .oracle ∧ (oracle [] [] .idle zero).par.wf = true := by decide

theorem witness_PollRows :
    (oracle [.ok] [] (.reading .rdvr (.rD .ptr)) zero).seq.pollAt = some (.rx, .ptr) ∧
    (oracle [.ok] [] (.reading .rdvr (.rD .ptr)) zero).env.nextTx = .ok ∧
    (oracle [] [.byte 0x02] (.writing .wrvr (.wE .get)) zero).seq.pollAt = some (.tx, .get) ∧
    (oracle [] [.byte 0x02] (.writing .wrvr (.wE .get)) zero).env.nextRx = .byte 0x02 ∧
    pollHit PollKind.tx.mask PollKind.tx.want 0x02 = false ∧
    (oracle [] [] (.writing .wrvr (.wA .dly)) { zero with cnt := 2 }).seq.pollAt = some (.tx, .dly) ∧
    (oracle [] [] (.writing .wrvr (.wA .dly)) { zero with cnt := 2 }).regs.cnt ≠ PollKind.tx.max par := by decide

/-- What every row needs beside its place of the sequencer: no reset, the oracle, and the answer that goes on. -/
theorem witness_rows : ∀ q ∈ [Seq.writing .wrvr (.wA .get), .writing .measWr .wB, .writing .sweepSel (.wC .get), .writing .ledoffWr .wD,
      .writing .seldev (.wE .get), .writing .sweepSel (.wE .get), .writing .ledonWr (.wE .get), .writing .measWr (.wE .get),
      .writing .ledoffWr (.wE .get), .reading .rdvr (.rA .get), .reading .rdvr .rB, .reading .rdvr (.rC .get), .reading .rdvr (.rD .get),
      .reading .rdvr (.rE .ptr), .reading .rdvr (.rE .get), .reading (.flt 2) (.rE .get), .reading (.flt 3) (.rE .get),
      .reading (.sweepFlt 0) (.rE .get), .reading (.sweepFlt 3) (.rE .get), .reading .ledonRd (.rE .get), .reading .measRd (.rE .get),
      .reading .measPoll (.rE .get), .measDly],
    let s := oracle [.ok] [.byte 0x01] q { zero with dev := 2, ch := 5, cnt2 := 1 }
    s.seq = q ∧ s.resetReq = false ∧ s.env.bus = .oracle ∧ s.env.nextTx = .ok ∧ s.env.nextRx = .byte 0x01 ∧
      txValid 0x01 = false ∧ rxValid 0x01 = true ∧ s.regs.dev.toNat = 2 ∧ s.regs.ch.toNat = 5 ∧
      0x01 &&& s.par.measBusyMask = 0 ∧ (0x02 : Byte) &&& s.par.measBusyMask ≠ 0 ∧ s.regs.cnt2 ≠ s.par.measPollMax := by decide

/-- In every context a BusError can come and, where it polls, a Timeout. -/
theorem witness_failures :
    (∀ q ∈ [Seq.writing .wrvr .wB, .writing .seldev (.wA .ptr), .reading .rdvr (.rE .ptr), .reading (.flt 3) (.rE .get),
        .reading .ledonRd (.rC .get), .writing .ledonWr .wD, .reading .measRd (.rE .get), .writing .measWr (.wE .get),
        .reading .measPoll .rB, .writing .ledoffWr .wD, .writing .sweepSel (.wA .ptr), .reading (.sweepFlt 1) (.rD .ptr)],
      (oracle [.busError] [.busError] q { zero with dev := 2, ch := 5 }).coming = some .busError) ∧
    (∀ q ∈ [Seq.writing .wrvr (.wE .dly), .writing .seldev (.wC .dly), .reading .rdvr (.rA .dly), .reading (.flt 0) (.rC .dly),
        .reading .ledonRd (.rA .dly), .writing .ledonWr (.wA .dly), .reading .measRd (.rC .dly), .writing .measWr (.wC .dly),
        .reading .measPoll (.rA .dly), .writing .ledoffWr (.wE .dly), .writing .sweepSel (.wE .dly), .reading (.sweepFlt 3) (.rC .dly),
        .measDly],
      (oracle [] [] q { zero with cnt := 3, cnt2 := 2, dev := 2, ch := 5 }).coming = some .timeout) ∧
    (oracle [] [] (.reading .rdvr (.rD .dly)) { zero with cnt := 4 }).coming = some .timeout := by decide
theorem witness_MeasLeavesThroughLedOff : (oracle [] [] .measDly zero).resetReq = false ∧
    (of (step (oracle [] [] .measDly zero)) fun _ => ()).isSome ∧ (oracle [] [] .measDly zero).seq.top = .meas := by decide

theorem witness_CommandRefinesPseudocode : (waiting []).seq = .idle ∧ (waiting []).resetReq = false ∧ (waiting []).par.wf = true ∧
    (∃ x s1, (waiting []).pseudoCommand .meas = some x ∧ exec .meas (waiting []) = .next s1) ∧
    (∃ x s1, (waiting []).pseudoCommand (.seldev 3) = some x ∧ exec (.seldev 3) (waiting []) = .next s1) :=
  ⟨rfl, rfl, by decide, ⟨_, _, rfl, rfl⟩, ⟨_, _, rfl, rfl⟩⟩
theorem witness_EveryCommandEnds : (waiting []).seq = .idle ∧ (waiting []).resetReq = false ∧ (waiting []).par.wf = true ∧
    (waiting []).env.bus = .oracle ∧ (Instr.rdall).isCommand = true ∧ (Instr.reserved7 0).isCommand = true := by decide
theorem witness_DeadBusSweep : (oracle [.busError, .busError, .busError] [] .idle zero).seq = .idle ∧
    (oracle [.busError, .busError, .busError] [] .idle zero).env.txAnswers = .busError :: .busError :: .busError :: [] := by decide
theorem witness_Traffic : (∃ s1, exec (.wrvr 0x4F 0x07) (waiting []) = .next s1) ∧ (∃ s1, exec (.rdvr 0x7F) (waiting []) = .next s1) :=
  ⟨⟨_, rfl⟩, ⟨_, rfl⟩⟩

theorem witness_StepKeepsDiscipline : Disciplined { oracle [.ok] [] (.writing .wrvr .wB) zero with
      env := { (oracle [.ok] [] (.writing .wrvr .wB) zero).env with
        trace := [.receive 0x49 1 50 (.byte 0xFD), .transmit 0x49 [0x00] 50 .ok, .accept 0] } } ∧
    (of (step (oracle [.ok] [] (.writing .wrvr .wB) zero)) fun _ => ()).isSome :=
  ⟨⟨by decide, by decide, by decide, by decide⟩, by decide⟩
theorem witness_StepKeepsEngineInvariant : EngineInv (oracle [] [.byte 0x80] (.reading (.sweepFlt 3) (.rD .get))
      { zero with op := 4, dev := 2, ch := 5, base := 0x28, a := 0x2B, cnt := 3 }) ∧
    EngineInv (oracle [] [] .measDly { zero with op := 5, cnt2 := 2 }) :=
  ⟨⟨by decide, by decide, by decide, by decide⟩, ⟨by decide, by decide, by decide, by decide⟩⟩
theorem witness_OldRegistersDoNotMatter :
    SameOutside (oracle [.busError] [] .idle zero) (oracle [.busError] [] .idle { zero with op := 4, rx := 0xFF, fail := 0x3FFFF, cnt := 9 }) ∧
    (∃ s1, exec (.rdvr 0x14) (oracle [.busError] [] .idle zero) = .next s1 ∧ ∃ u, runs 2 s1 = .next u ∧ u.seq = .idle) :=
  ⟨⟨rfl, rfl, rfl, rfl, rfl, rfl⟩, ⟨_, rfl, _, rfl, rfl⟩⟩
theorem witness_ResetAbandonsCommand : ({ oracle [] [] (.writing .ledonWr .wD) zero with resetReq := true } : State).resetReq = true := by decide
theorem witness_RegisterFileReadAfterWrite : Memory.wf device.vreg = true ∧ 383 < Memory.size ∧ (382 : Nat) ≠ 383 := by decide

theorem witness_CompletionResponds : (oracle [] [] (.ending .rdvr 0) zero).seq = .ending .rdvr 0 ∧
    (oracle [] [] (.ending .rdflt 0) zero).seq = .ending .rdflt 0 ∧
    (oracle [] [] (.ending .rdall 0) zero).seq = .ending .rdall 0 ∧ (oracle [] [] (.ending .rdvr 0) zero).resetReq = false ∧
    ({ oracle [] [] (.ending .meas 2) zero with resetReq := true } : State).resetReq = true := by decide

/-- A call of a running sweep, an acceptance, an idle step, a refused word, an Ok completion with data and a failed one. -/
theorem witness_ResponseRegistersHeld :
    of (step (oracle [.ok] [] (.writing .sweepSel .wB) zero)) (fun t => t.seq) = some (.writing .sweepSel (.wC .ptr)) ∧
    (oracle [.ok] [] (.writing .sweepSel .wB) zero).issue.isSome ∧
    of (step (waiting [0x20000])) (fun t => t.seq) = some (.writing .sweepSel (.wA .ptr)) ∧
    of (step (waiting [])) (fun t => (t.seq, t.cmds)) = some (.idle, []) ∧
    of (step (waiting [0x30000])) (fun t => (t.seq, t.rsp.status)) = some (.idle, 3) ∧
    of (step (oracle [] [] (.ending .rdall 0) zero)) (fun t => (t.seq, t.rsp.status)) = some (.idle, 0) ∧
    of (step (oracle [] [] (.ending .rdvr 2) zero)) (fun t => (t.seq, t.rsp.status)) = some (.idle, 2) := by decide

theorem witness_ReferenceTakesByte :
    (onDevice rd00 { device with tc := 1 } .idle zero).env.nextFails rd00 = false ∧ ({ device with tc := 1 } : Sensor).tc ≠ 0 ∧
    device.tc = 0 ∧
    (onDevice ⟨0, 0, .off, [1]⟩ device .idle zero).env.nextFails ⟨0, 0, .off, [1]⟩ = true ∧
    (onDevice rd00 { device with pend := .writeTo 0x7F } .idle zero).env.nextFails rd00 = false ∧ (0x7F : VAddr) ≠ 0x4F ∧
    Memory.wf device.vreg = true ∧ Die.ofByte 2 = some .slave2 ∧ Die.ofByte 3 = none ∧ device.pend = .none ∧
    (0x80 : Byte).getLsbD 7 = true ∧ (0x7F : Byte).getLsbD 7 = false ∧
    (0x04 : Byte).extractLsb' 0 7 = par.controlSetupVaddr ∧
    (0x28 : Byte) &&& par.measBusyMask = 0 ∧ (0x2A : Byte) &&& par.measBusyMask ≠ 0 ∧
    (∀ nb, rd00.busy = .times nb → (0x04 : Byte).extractLsb' 0 7 ≠ par.controlSetupVaddr) :=
  ⟨by decide, by decide, by decide, by decide, by decide, by decide, by decide, by decide, by decide, by decide, by decide, by decide, rfl, by decide, by decide,
    fun _ h => nomatch h⟩
theorem witness_ReferenceAnswersReads : (onDevice rd00 device .idle zero).env.nextFails rd00 = false ∧ device.ptr = par.readReg ∧
    device.ready = true ∧ ({ device with rdv := false } : Sensor).ready = false ∧ ({ device with tc := 1 } : Sensor).ready = false ∧
    ({ device with ptr := 0x00 } : Sensor).ptr = par.statusReg := by decide
theorem witness_device_between_transactions : (onDevice ⟨2, 4, .off, []⟩ { device with tc := 2 } .idle zero).seq = .idle ∧
    (onDevice ⟨2, 4, .off, []⟩ { device with tc := 2 } .idle zero).env.bus = .reference ⟨2, 4, .off, []⟩ ∧
    (2 : Nat) < par.txPollMax.toNat ∧ (4 : Nat) ≤ par.rxPollMax.toNat ∧ device.pend = .none ∧ Memory.wf device.vreg = true ∧
    (0x04 : VAddr) ≠ 0x4F ∧ Die.ofByte ((2 : BitVec 2).setWidth 8) = some .slave2 := by decide
theorem witness_echoing_register : ∀ nb, (BusyModel.times 3) = .times nb → (0x10 : VAddr) ≠ par.controlSetupVaddr := fun _ _ => by decide

end Sys2Proof.Tests
end

section
/-! SUPPORT and proofs of the statements of spec/00_scope.md: what a step runs, what it puts on the trace, how a command
completes. -/

namespace Sys2Proof.Machine

/-! What the sequencer can do with the answer of a call. -/

/-- A row of a poll writes ST and CNT at most (R150). -/
theorem pollMove_frame {k : PollKind} {p : PollPos} {s t : State} {m : PollMove} (h : s.pollMove k p = (m, t)) :
    PollFrame s t ∧ t.env = s.env := by
  unfold State.pollMove at h
  split at h
  case h_3 b _ => split at h <;> cases h <;> exact ⟨⟨rfl, rfl, rfl, rfl, rfl, rfl, rfl⟩, rfl⟩
  case h_5 => split at h <;> cases h <;> exact ⟨.refl _, rfl⟩
  all_goals cases h; exact ⟨.refl _, rfl⟩

theorem PollFrame.clearCount (s : State) : PollFrame s s.clearCount := ⟨rfl, rfl, rfl, rfl, rfl, rfl, rfl⟩

/-- A write goes on at another of its steps, or is done, or fails, with ST and CNT updated at most (R161). -/
theorem advanceWrite_cases (c : WCtx) (w : WStep) (s : State) : ∃ t, PollFrame s t ∧ t.env = s.env ∧
    ((∃ w', s.advanceWrite c w = t.goto (.writing c w')) ∨ s.advanceWrite c w = t.doneWrite c ∨
      ∃ f, s.advanceWrite c w = t.failWrite c f) := by
  cases w with
  | wB | wD =>
    simp only [State.advanceWrite]
    split
    · exact ⟨_, .clearCount s, rfl, .inl ⟨_, rfl⟩⟩
    · exact ⟨s, .refl s, rfl, .inr (.inr ⟨_, rfl⟩)⟩
  | wA p | wC p =>
    simp only [State.advanceWrite]
    rcases hm : s.pollMove .tx p with ⟨q | _ | f, t⟩ <;> obtain ⟨hf, he⟩ := pollMove_frame hm <;> refine ⟨t, hf, he, ?_⟩
    · exact .inl ⟨_, rfl⟩
    · exact .inl ⟨_, rfl⟩
    · exact .inr (.inr ⟨f, rfl⟩)
  | wE p =>
    simp only [State.advanceWrite]
    rcases hm : s.pollMove .tx p with ⟨q | _ | f, t⟩ <;> obtain ⟨hf, he⟩ := pollMove_frame hm <;> refine ⟨t, hf, he, ?_⟩
    · exact .inl ⟨_, rfl⟩
    · exact .inr (.inl rfl)
    · exact .inr (.inr ⟨f, rfl⟩)

/-- A read goes on at another of its steps, or is done, or fails, with ST, CNT and RX updated at most (R166). -/
theorem advanceRead_cases (c : RCtx) (r : RStep) (s : State) : ∃ t, OpFrame s t ∧ t.env = s.env ∧
    ((∃ r', s.advanceRead c r = t.goto (.reading c r')) ∨ s.advanceRead c r = t.doneRead c ∨
      ∃ f, s.advanceRead c r = t.failRead c f) := by
  have same : OpFrame s s := (PollFrame.refl s).opFrame
  cases r with
  | rB =>
    simp only [State.advanceRead]
    split
    · exact ⟨_, (PollFrame.clearCount s).opFrame, rfl, .inl ⟨_, rfl⟩⟩
    · exact ⟨s, same, rfl, .inr (.inr ⟨_, rfl⟩)⟩
  | rA p | rD p =>
    simp only [State.advanceRead]
    rcases hm : s.pollMove _ p with ⟨q | _ | f, t⟩ <;> obtain ⟨hf, he⟩ := pollMove_frame hm <;>
      refine ⟨t, hf.opFrame, he, ?_⟩
    · exact .inl ⟨_, rfl⟩
    · exact .inl ⟨_, rfl⟩
    · exact .inr (.inr ⟨f, rfl⟩)
  | rC p =>
    simp only [State.advanceRead]
    rcases hm : s.pollMove .tx p with ⟨q | _ | f, t⟩ <;> obtain ⟨hf, he⟩ := pollMove_frame hm
    · exact ⟨t, hf.opFrame, he, .inl ⟨_, rfl⟩⟩
    · exact ⟨_, (hf.trans (.clearCount t)).opFrame, he, .inl ⟨_, rfl⟩⟩
    · exact ⟨t, hf.opFrame, he, .inr (.inr ⟨f, rfl⟩)⟩
  | rE p =>
    cases p with
    | ptr =>
      simp only [State.advanceRead]
      split
      · exact ⟨s, same, rfl, .inl ⟨_, rfl⟩⟩
      · exact ⟨s, same, rfl, .inr (.inr ⟨_, rfl⟩)⟩
    | get =>
      simp only [State.advanceRead]
      split
      next b _ => exact ⟨s.latchRead b, ⟨rfl, rfl, rfl, rfl, rfl, rfl, rfl⟩, rfl, .inr (.inl rfl)⟩
      · exact ⟨s, same, rfl, .inr (.inr ⟨_, rfl⟩)⟩

/-- The sequencer's move where a handshake ends leaves the engine busy. -/
theorem Quiet.seq_ne_idle {W : Prop} {u v : State} (h : Quiet W u v) : v.seq ≠ .idle := by
  rcases h.fresh with hv | ⟨c, hv⟩ | ⟨c, hv⟩ | ⟨c, k, hv, -⟩ <;> rw [hv] <;> nofun

/-- Taking an answer makes no call and does not bring SEQ to IDLE: a completion is a step of its own (R7, log entry 4). -/
theorem advance_env_busy {s : State} (hs : s.seq ≠ .idle) : s.advance.env = s.env ∧ s.advance.seq ≠ .idle := by
  have ends {W : Prop} {t v : State} (h : Quiet W t v) (he : t.env = s.env) : v.env = s.env ∧ v.seq ≠ .idle :=
    ⟨h.env.trans he, h.seq_ne_idle⟩
  unfold State.advance
  simp only [State.withRet_env, State.withRet_seq]
  cases hq : s.seq with
  | idle => exact absurd hq hs
  | ending c k => exact ⟨rfl, hs⟩
  | measDly => exact ends (.doneMeasDelay (W := True) s) rfl
  | writing c w =>
    obtain ⟨t, -, he, ⟨w', h⟩ | h | ⟨f, h⟩⟩ := advanceWrite_cases c w s <;> simp only [h]
    · exact ⟨he, nofun⟩
    · exact ends (.doneWrite t c) he
    · exact ends (.failWrite (W := True) t c f) he
  | reading c r =>
    obtain ⟨t, -, he, ⟨r', h⟩ | h | ⟨f, h⟩⟩ := advanceRead_cases c r s <;> simp only [h]
    · exact ⟨he, nofun⟩
    · exact ends (.doneRead (W := True) t c) he
    · exact ends (.failRead (W := True) t c f) he

/-! The call of a running command. -/

/-- A call that leaves the engine: a transport call or a delay (R74, R146). -/
def Event.isExternal (e : Event) : Bool := e.isCall || e.isDelay

/-- A call is one call or one delay, and neither an acceptance nor a response. -/
theorem Event.counts_of_isExternal {e : Event} (h : e.isExternal = true) :
    callsIn [e] + delaysIn [e] = 1 ∧ [e].countP Event.isDone = 0 ∧ [e].countP Event.isAccept = 0 := by
  cases e with
  | transmit | receive | delay => exact ⟨rfl, rfl, rfl⟩
  | accept | done | reset => cases h

theorem PollPos.issue_exec (k : PollKind) (p : PollPos) (s : State) :
    (∃ bytes, exec (p.issue k) s = (s.xferTx bytes).finish) ∨ exec (p.issue k) s = (s.xferRx 1).finish ∨
      ∃ iv, p.issue k = .delay iv := by
  cases p with
  | ptr => exact .inl ⟨_, rfl⟩
  | get => exact .inr (.inl rfl)
  | dly => exact .inr (.inr ⟨_, rfl⟩)

/-- What the engine issues is one `transmit`, one `receive` of a byte, or one delay (R113, R146). -/
theorem issue_exec {s : State} {i : Instr} (h : s.issue = some i) :
    (∃ bytes, exec i s = (s.xferTx bytes).finish) ∨ exec i s = (s.xferRx 1).finish ∨ ∃ iv, i = .delay iv := by
  unfold State.issue at h
  split at h
  · cases h
  · cases h
  · next c w _ =>
    cases h
    cases w with
    | wA p | wC p | wE p => exact p.issue_exec .tx s
    | wB | wD => exact .inl ⟨_, rfl⟩
  · next c r _ =>
    cases h
    cases r with
    | rA p | rC p => exact p.issue_exec .tx s
    | rD p => exact p.issue_exec .rx s
    | rB => exact .inl ⟨_, rfl⟩
    | rE p =>
      cases p with
      | ptr => exact .inl ⟨_, rfl⟩
      | get => exact .inr (.inl rfl)
  · cases h
    exact .inr (.inr ⟨_, rfl⟩)

/-- An issued call puts itself on the trace and leaves the engine but for the result it hands on. -/
theorem issued_call {s u : State} {i : Instr} (hi : s.issue = some i) (h : exec i s = .next u) :
    SameEngine s u ∧ ∃ e, e.isExternal = true ∧ Grew s u [e] := by
  have same {r : Ret} {e : Env} : SameEngine s { s with ret := r, env := e } := ⟨rfl, rfl, rfl, rfl, rfl, rfl⟩
  obtain ⟨bytes, he⟩ | he | ⟨iv, rfl⟩ := issue_exec hi
  · obtain ⟨a, e, ht, rfl⟩ := call_tx he h
    exact ⟨same, _, rfl, (transmit_env ht).1⟩
  · obtain ⟨a, e, hx, rfl⟩ := call_rx he h
    exact ⟨same, _, rfl, (receive_env hx).1⟩
  · cases h
    exact ⟨same, _, rfl, (delay_env s.par iv s.env).1⟩

/-! The word at the port. -/

/-- What the command port decodes is a command or a reserved opcode (R122, R124). -/
theorem decodeCmd_isCommand {w : CmdWord} {i : Instr} (h : decodeCmd w = .ok i) : i.isCommand = true := by
  unfold decodeCmd at h
  repeat' split at h
  all_goals cases h
  all_goals rfl

/-- What accepting a command leaves: SEQ out of IDLE, no response pending, and beside the engine's registers nothing
changed (R103). -/
structure Begun (s t : State) : Prop where
  busy : t.seq ≠ .idle
  par : t.par = s.par
  cmds : t.cmds = s.cmds
  resetReq : t.resetReq = s.resetReq
  rsp : t.rsp = { s.rsp with pending := false }
  env : t.env = s.env

/-- An idle engine refuses a command or begins it (R103, R125). -/
theorem exec_command {s : State} {i : Instr} (hi : i.isCommand = true) (hs : s.seq = .idle) :
    exec i s = .next s.refuse ∨ ∃ t, exec i s = .next t ∧ Begun s t := by
  have presented (w : CmdWord) (start : State → State) : s.present w start = start s := by
    simp [State.present, State.busy, hs]
  cases i with
  | reserved6 | reserved7 => left; simp only [exec, execReserved6, execReserved7, presented]
  | seldev id =>
    simp only [exec, execSeldev, presented]
    split
    · exact .inl rfl
    · exact .inr ⟨_, rfl, nofun, rfl, rfl, rfl, rfl, rfl⟩
  | rdflt base =>
    simp only [exec, execRdflt, presented]
    split
    · exact .inr ⟨_, rfl, nofun, rfl, rfl, rfl, rfl, rfl⟩
    · exact .inl rfl
  | wrvr | rdvr | rdall | meas =>
    simp only [exec, execWrvr, execRdvr, execRdall, execMeas, presented]
    exact .inr ⟨_, rfl, nofun, rfl, rfl, rfl, rfl, rfl⟩
  | _ => cases hi

/-- The word at the port of an idle engine is taken, and refused or begun in the same step (R103, R125). -/
theorem runWord_cases {s : State} (w : CmdWord) (rest : List CmdWord) (hs : s.seq = .idle) :
    s.runWord w rest = .next (s.takeWord w rest).refuse ∨
      ∃ t, s.runWord w rest = .next t ∧ Begun (s.takeWord w rest) t := by
  unfold State.runWord
  split
  next i hd => exact exec_command (decodeCmd_isCommand hd) hs
  · exact .inl rfl

/-! What one step puts on the trace. -/

/-- What the events `evs` of the step from `s` to `t` may be: one call if one is issued, one acceptance if a word is taken,
one response if the step ends a command (R7, R74, R103, R104). -/
structure StepEvents (s t : State) (evs : List Event) : Prop where
  grew : Grew s t evs
  calls : callsIn evs + delaysIn evs = if s.issue.isSome then 1 else 0
  callAlone : s.issue.isSome = true → evs.countP Event.isDone = 0
  accepts : evs.countP Event.isAccept = if s.seq = .idle ∧ s.cmds ≠ [] then 1 else 0
  dones : evs.countP Event.isDone = if t.seq = .idle ∧ (s.seq ≠ .idle ∨ s.cmds ≠ []) then 1 else 0
  last : evs.countP Event.isDone = 1 → evs.head? = some (.done t.rsp.status) ∧ t.rsp.pending = true

/-- A step that makes a call. -/
theorem stepEvents_call {s t : State} {i : Instr} (hr : s.resetReq = false) (hi : s.issue = some i)
    (h : step s = .next t) : ∃ evs, StepEvents s t evs := by
  obtain ⟨u, hu, rfl⟩ := step_busy hr hi h
  obtain ⟨⟨-, hseq, -⟩, e, hext, hg⟩ := issued_call hi hu
  obtain ⟨hcalls, hdone, haccept⟩ := e.counts_of_isExternal hext
  have hs : s.seq ≠ .idle := fun hs => by simp [State.issue, hs] at hi
  obtain ⟨henv, hbusy⟩ := advance_env_busy (hseq ▸ hs : u.seq ≠ .idle)
  refine ⟨[e], ?_, ?_, fun _ => hdone, ?_, ?_, fun h => ?_⟩
  · exact (congrArg Env.trace henv).trans hg
  · simp [hcalls, hi]
  · simp [haccept, hs]
  · simp [hdone, hbusy]
  · simp [hdone] at h

/-- The completion of a command. -/
theorem stepEvents_complete {s : State} {c : EndCtx} {k : BitVec 2} (hs : s.seq = .ending c k) :
    StepEvents s (s.complete c k) [.done k] := by
  have hi : s.issue = none := by simp [State.issue, hs]
  exact {
    grew := rfl
    calls := by rw [hi]; rfl
    callAlone := by simp [hi]
    accepts := by rw [hs]; rfl
    dones := by rw [hs]; rfl
    last := fun _ => ⟨rfl, rfl⟩ }

/-- The step of an idle engine with no word at its port. -/
theorem stepEvents_idle {s : State} (hs : s.seq = .idle) (hc : s.cmds = []) : StepEvents s s [] := by
  have hi : s.issue = none := by simp [State.issue, hs]
  exact {
    grew := rfl
    calls := by rw [hi]; rfl
    callAlone := fun _ => rfl
    accepts := by simp [hc]
    dones := by simp [hs, hc]
    last := nofun }

/-- The word at the port is taken: a refused one is answered in the same step (R103, R125). -/
theorem stepEvents_word {s t : State} {w : CmdWord} {rest : List CmdWord} (hs : s.seq = .idle) (hc : s.cmds = w :: rest)
    (h : s.runWord w rest = .next t) : ∃ evs, StepEvents s t evs := by
  have hi : s.issue = none := by simp [State.issue, hs]
  have waiting : s.seq = .idle ∧ s.cmds ≠ [] := ⟨hs, by simp [hc]⟩
  obtain hw | ⟨u, hw, hu⟩ := runWord_cases w rest hs
  · cases hw.symm.trans h
    exact ⟨[.done codeRefused, .accept w], {
      grew := rfl
      calls := by rw [hi]; rfl
      callAlone := by simp [hi]
      accepts := (if_pos waiting).symm
      dones := (if_pos ⟨rfl, .inr waiting.2⟩).symm
      last := fun _ => ⟨rfl, rfl⟩ }⟩
  · cases hw.symm.trans h
    exact ⟨[.accept w], {
      grew := congrArg Env.trace hu.env
      calls := by rw [hi]; rfl
      callAlone := fun _ => rfl
      accepts := (if_pos waiting).symm
      dones := (if_neg fun ended => hu.busy ended.1).symm
      last := nofun }⟩

/-- Settles O15: by the four kinds of step, a call, a completion, a word taken, nothing to do. -/
theorem oneCallAndOneResponse : Obligations.OneCallAndOneResponse := by
  intro s t hr h
  suffices hev : ∃ evs, StepEvents s t evs by
    obtain ⟨evs, grew, calls, callAlone, accepts, dones, last⟩ := hev
    exact ⟨evs, grew, calls, callAlone, accepts, dones, last⟩
  cases hi : s.issue with
  | some i => exact stepEvents_call hr hi h
  | none =>
    obtain hs | ⟨c, k, hs⟩ := issue_none hi
    · cases hc : s.cmds with
      | nil =>
        cases (step_idle hr hs hc).symm.trans h
        exact ⟨_, stepEvents_idle hs hc⟩
      | cons w rest => exact stepEvents_word hs hc ((step_word hr hs hc).symm.trans h)
    · cases (step_complete hr hs).symm.trans h
      exact ⟨_, stepEvents_complete hs⟩

/-! A step runs the instruction the spec puts next. -/

/-- The word that spells an instruction is run as that instruction. -/
theorem runWord_ok {s : State} {w : CmdWord} {rest : List CmdWord} {i : Instr} (hd : decodeCmd w = .ok i) :
    s.runWord w rest = exec i (s.takeWord w rest) := by
  simp only [State.runWord, hd]

/-- The 18-bit codes of the opcode table are the command words (log entry 13). -/
theorem decodeCmd_of_decodeTableWord {w : Nat} {i : Instr} (h : decodeTableWord 18 w = some i) :
    decodeCmd (BitVec.ofNat 18 w) = .ok i := by
  simp only [decodeTableWord, Nat.reduceLeDiff, if_false] at h
  split at h
  · cases hd : decodeCmd (BitVec.ofNat 18 w) with
    | ok j => rw [hd] at h; cases h; rfl
    | error e => rw [hd] at h; cases h
  · cases h

/-- A placed write command byte is the one a write handshake sends next (log entry 13). -/
theorem withFetchWord_vwra {s : State} {w : Nat} {a : VAddr} (hr : s.resetReq = false)
    (hd : decodeTableWord 8 w = some (.vwra a)) :
    s.withFetchWord 8 w = { s with seq := .writing .wrvr .wB, regs := { s.regs with a := a } } := by
  simp [State.withFetchWord, State.placeWord, hd, hr]

/-- A placed read command byte is the one a read handshake sends next (log entry 13). -/
theorem withFetchWord_vrda {s : State} {w : Nat} {a : VAddr} (hr : s.resetReq = false)
    (hd : decodeTableWord 8 w = some (.vrda a)) :
    s.withFetchWord 8 w = { s with seq := .reading .rdvr .rB, regs := { s.regs with a := a } } := by
  simp [State.withFetchWord, State.placeWord, hd, hr]

/-- A placed WRITE frame is the one that hands over the data byte of a write handshake (log entry 13). -/
theorem withFetchWord_wrWrite {s : State} {w : Nat} {b : Byte} (hr : s.resetReq = false)
    (hd : decodeTableWord 16 w = some (.wrWrite b)) :
    s.withFetchWord 16 w = { s with seq := .writing .wrvr .wD, regs := { s.regs with d := b } } := by
  simp [State.withFetchWord, State.placeWord, hd, hr]

/-- A placed command word stands at the port of an idle engine (log entry 13). -/
theorem withFetchWord_command {s : State} {w : Nat} (hr : s.resetReq = false) :
    s.withFetchWord 18 w = { s with seq := .idle, cmds := BitVec.ofNat 18 w :: s.cmds } := by
  simp [State.withFetchWord, State.placeWord, hr]

/-- Settles O12: each clause is the step's own equation at the place SEQ stands. -/
theorem stepRunsTheInstruction : Obligations.StepRunsTheInstruction := by
  intro s hr
  refine ⟨fun i hi => step_call hr hi, fun c k hs => step_complete hr hs, fun hs w rest i hc hd => ?_,
    fun hs hc => step_idle hr hs hc, fun w i hd => ?_, fun w a hd => ?_, fun w a hd => ?_, fun w b hd => ?_⟩
  · rw [step_word hr hs hc, runWord_ok hd]
  · rw [step_word (s := s.withFetchWord 18 w) rfl rfl rfl, runWord_ok (decodeCmd_of_decodeTableWord hd),
      withFetchWord_command hr]
    rfl
  · rw [withFetchWord_vwra hr hd]
    exact step_call hr rfl
  · rw [withFetchWord_vrda hr hd]
    exact step_call hr rfl
  · rw [withFetchWord_wrWrite hr hd]
    exact step_call (i := .vdata b) hr rfl

/-- Settles O56: with no reset the completion of the ended command is the step, with one it is the reset. -/
theorem completionResponds : Obligations.CompletionResponds := by
  intro s c k hs
  refine ⟨fun hr => ⟨s.complete c k, ⟨step_complete hr hs, rfl, rfl, rfl, rfl, rfl⟩, rfl, rfl, rfl, rfl, rfl, rfl, rfl,
    ?_, ?_, ?_⟩, fun hr => ⟨s.engineReset, by simp [step, hr], rfl, rfl, rfl⟩⟩
  · rintro rfl rfl; rfl
  · rintro rfl rfl; rfl
  · rintro rfl rfl; exact ⟨rfl, rfl⟩

end Sys2Proof.Machine
end

section
/-! SUPPORT and proofs of the statements about the whole state: what every step keeps, what a reset leaves, which
registers a command can still see of the one before it. -/

namespace Sys2Proof.Machine

/-! What one step is. -/

/-- The five kinds of step (R7): a reset, a call with the sequencer after it, a completion, the word at the port of an idle
engine, nothing to do. -/
inductive StepKind (s : State) : State → Prop
  | reset (hr : s.resetReq = true) : StepKind s s.engineReset
  | call {i : Instr} {u : State} (hr : s.resetReq = false) (hi : s.issue = some i) (hu : exec i s = .next u) :
      StepKind s u.advance
  | complete {c : EndCtx} {k : BitVec 2} (hr : s.resetReq = false) (hs : s.seq = .ending c k) :
      StepKind s (s.complete c k)
  | word {w : CmdWord} {rest : List CmdWord} {t : State} (hr : s.resetReq = false) (hs : s.seq = .idle)
      (hc : s.cmds = w :: rest) (hw : s.runWord w rest = .next t) : StepKind s t
  | nothing (hr : s.resetReq = false) (hs : s.seq = .idle) (hc : s.cmds = []) : StepKind s s

theorem step_reset {s : State} (hr : s.resetReq = true) : step s = .next s.engineReset := by
  simp [step, hr]

theorem step_kind {s t : State} (h : step s = .next t) : StepKind s t := by
  cases hr : s.resetReq with
  | true => cases (step_reset hr).symm.trans h; exact .reset hr
  | false =>
    cases hi : s.issue with
    | some i =>
      obtain ⟨u, hu, rfl⟩ := step_busy hr hi h
      exact .call hr hi hu
    | none =>
      obtain hs | ⟨c, k, hs⟩ := issue_none hi
      · cases hc : s.cmds with
        | nil => cases (step_idle hr hs hc).symm.trans h; exact .nothing hr hs hc
        | cons w rest => exact .word hr hs hc ((step_word hr hs hc).symm.trans h)
      · cases (step_complete hr hs).symm.trans h
        exact .complete hr hs

theorem issue_busy {s : State} {i : Instr} (h : s.issue = some i) : s.seq ≠ .idle :=
  fun hs => by simp [State.issue, hs] at h

/-- An issued call keeps who answers, and the canonical form of the register file. -/
theorem issued_call_env {s u : State} {i : Instr} (hi : s.issue = some i) (h : exec i s = .next u) :
    u.env.bus = s.env.bus ∧ (Memory.wf s.env.sensor.vreg = true → Memory.wf u.env.sensor.vreg = true) := by
  obtain ⟨bytes, he⟩ | he | ⟨iv, rfl⟩ := issue_exec hi
  · obtain ⟨a, e, ht, rfl⟩ := call_tx he h
    exact (transmit_env ht).2
  · obtain ⟨a, e, hx, rfl⟩ := call_rx he h
    exact (receive_env hx).2
  · cases h
    exact (delay_env s.par iv s.env).2

/-! What the sequencer leaves unchanged while a command runs. -/

/-- From `u` to `v` a command goes on: TOP is `q`, and beside SEQ and the registers of its phases, OP not among them,
nothing changes (R23). -/
structure GoesOn (q : Top) (u v : State) : Prop where
  par : v.par = u.par
  rsp : v.rsp = u.rsp
  cmds : v.cmds = u.cmds
  resetReq : v.resetReq = u.resetReq
  op : v.regs.op = u.regs.op
  top : v.seq.top = q

theorem GoesOn.after {q : Top} {s u v : State} (h : GoesOn q u v) (f : OpFrame s u) : GoesOn q s v :=
  ⟨h.par.trans f.par, h.rsp.trans f.rsp, h.cmds.trans f.cmds, h.resetReq.trans f.rst,
    h.op.trans (by rw [f.regs]), h.top⟩

theorem GoesOn.withRet {q : Top} {u v : State} (h : GoesOn q u v) (r : Ret) : GoesOn q u (v.withRet r) :=
  ⟨h.par, h.rsp, h.cmds, h.resetReq, h.op, h.top⟩

theorem nextDie_goesOn (u : State) : GoesOn .rdall u u.nextDie := by
  unfold State.nextDie
  split <;> exact ⟨rfl, rfl, rfl, rfl, rfl, rfl⟩

theorem nextChannel_goesOn (u : State) : GoesOn .rdall u u.nextChannel := by
  unfold State.nextChannel
  split
  · exact ⟨rfl, rfl, rfl, rfl, rfl, rfl⟩
  · exact nextDie_goesOn u

theorem substituteDie_keeps (u : State) : u.substituteDie.rsp = u.rsp ∧ u.substituteDie.cmds = u.cmds ∧
    u.substituteDie.regs.op = u.regs.op := by
  unfold State.substituteDie
  generalize ([0, 1, 2, 3, 4, 5] : List (BitVec 3)) = channels
  induction channels generalizing u with
  | nil => exact ⟨rfl, rfl, rfl⟩
  | cons c channels ih => exact ih _

theorem setChannel_nextChannel_goesOn (w : Word) (f : Bool) (u : State) :
    GoesOn .rdall u (u.setChannel w f).nextChannel := by
  obtain ⟨par, rsp, cmds, resetReq, op, top⟩ := nextChannel_goesOn (u.setChannel w f)
  exact ⟨par, rsp, cmds, resetReq, op, top⟩

theorem failWrite_goesOn (c : WCtx) (f : Failure) (u : State) : GoesOn c.top u (u.failWrite c f) := by
  cases c with
  | sweepSel =>
    obtain ⟨par, rsp, cmds, resetReq, op, top⟩ := nextDie_goesOn u.substituteDie
    obtain ⟨hpar, -, hreset, -⟩ := substituteDie_frame u
    obtain ⟨hrsp, hcmds, hop⟩ := substituteDie_keeps u
    exact ⟨par.trans hpar, rsp.trans hrsp, cmds.trans hcmds, resetReq.trans hreset, op.trans hop, top⟩
  | _ => exact ⟨rfl, rfl, rfl, rfl, rfl, rfl⟩

theorem failRead_goesOn (c : RCtx) (f : Failure) (u : State) : GoesOn c.top u (u.failRead c f) := by
  cases c with
  | sweepFlt i => exact setChannel_nextChannel_goesOn _ _ u
  | _ => exact ⟨rfl, rfl, rfl, rfl, rfl, rfl⟩

theorem doneWrite_goesOn (c : WCtx) (u : State) : GoesOn c.top u (u.doneWrite c) := by
  cases c <;> exact ⟨rfl, rfl, rfl, rfl, rfl, rfl⟩

theorem doneRead_goesOn (c : RCtx) (u : State) : GoesOn c.top u (u.doneRead c) := by
  cases c with
  | flt i => unfold State.doneRead; dsimp only; split <;> exact ⟨rfl, rfl, rfl, rfl, rfl, rfl⟩
  | sweepFlt i =>
    unfold State.doneRead; dsimp only; split
    · obtain ⟨par, rsp, cmds, resetReq, op, top⟩ := setChannel_nextChannel_goesOn (u.mergeRead i).regs.acc false (u.mergeRead i)
      exact ⟨par, rsp, cmds, resetReq, op, top⟩
    · exact ⟨rfl, rfl, rfl, rfl, rfl, rfl⟩
  | measPoll => unfold State.doneRead; dsimp only; split <;> exact ⟨rfl, rfl, rfl, rfl, rfl, rfl⟩
  | _ => exact ⟨rfl, rfl, rfl, rfl, rfl, rfl⟩

theorem doneMeasDelay_goesOn (u : State) : GoesOn .meas u u.doneMeasDelay := by
  unfold State.doneMeasDelay
  split <;> exact ⟨rfl, rfl, rfl, rfl, rfl, rfl⟩

/-- Taking an answer, the running command stays the running command, and its OP, the parameters, the response and the
command port are not touched. -/
theorem advance_goesOn (s : State) : GoesOn s.seq.top s s.advance := by
  refine GoesOn.withRet ?_ .ok
  cases hs : s.seq with
  | idle | ending => exact ⟨rfl, rfl, rfl, rfl, rfl, by rw [hs]⟩
  | measDly => exact doneMeasDelay_goesOn s
  | writing c w =>
    obtain ⟨t, hf, -, ⟨w', h⟩ | h | ⟨f, h⟩⟩ := advanceWrite_cases c w s <;> simp only [h] <;>
      refine GoesOn.after ?_ hf.opFrame
    · exact ⟨rfl, rfl, rfl, rfl, rfl, rfl⟩
    · exact doneWrite_goesOn c t
    · exact failWrite_goesOn c f t
  | reading c r =>
    obtain ⟨t, hf, -, ⟨r', h⟩ | h | ⟨f, h⟩⟩ := advanceRead_cases c r s <;> simp only [h] <;>
      refine GoesOn.after ?_ hf
    · exact ⟨rfl, rfl, rfl, rfl, rfl, rfl⟩
    · exact doneRead_goesOn c t
    · exact failRead_goesOn c f t

/-- A step that makes a call leaves the parameters, the response and the command port as they are. -/
theorem call_goesOn {s u : State} {i : Instr} (hi : s.issue = some i) (hu : exec i s = .next u) :
    GoesOn s.seq.top s u.advance := by
  obtain ⟨⟨hpar, hseq, hregs, hrsp, hcmds, hreset⟩, -⟩ := issued_call hi hu
  obtain ⟨par, rsp, cmds, resetReq, op, top⟩ := advance_goesOn u
  exact ⟨par.trans hpar, rsp.trans hrsp, cmds.trans hcmds, resetReq.trans hreset, op.trans (by rw [hregs]),
    top.trans (by rw [hseq])⟩

/-- Settles O47: by the five kinds of step. -/
theorem parametersNeverChange : Obligations.ParametersNeverChange := by
  intro s t h
  cases step_kind h with
  | reset | complete | nothing => exact ⟨rfl, rfl⟩
  | call hr hi hu =>
    refine ⟨(call_goesOn hi hu).par, ?_⟩
    obtain ⟨⟨-, hseq, -⟩, -⟩ := issued_call hi hu
    rw [(advance_env_busy (hseq ▸ issue_busy hi)).1, (issued_call_env hi hu).1]
  | @word w rest _ hr hs hc hw =>
    obtain hw' | ⟨u, hw', hu⟩ := runWord_cases w rest hs <;> cases hw'.symm.trans hw
    · exact ⟨rfl, rfl⟩
    · exact ⟨hu.par, by rw [hu.env]; rfl⟩

/-- Settles O57: a call keeps the response, a completion or a refusal writes all of it, an acceptance only withdraws
`pending`. -/
theorem responseRegistersHeld : Obligations.ResponseRegistersHeld := by
  intro s t hr h
  cases step_kind h with
  | reset hr' => simp [hr] at hr'
  | nothing hr hs hc => exact ⟨fun _ => rfl, fun _ => rfl, fun ⟨_, hb⟩ => by simp [hs, hc] at hb⟩
  | @call i u hr hi hu =>
    have hrsp := (call_goesOn hi hu).rsp
    obtain ⟨⟨-, hseq, -⟩, -⟩ := issued_call hi hu
    have hbusy := (advance_env_busy (hseq ▸ issue_busy hi : u.seq ≠ .idle)).2
    exact ⟨fun _ => hrsp, fun _ => by rw [hrsp], fun ⟨hidle, _⟩ => absurd hidle hbusy⟩
  | @complete c k hr hs =>
    refine ⟨fun hi => by simp [State.issue, hs] at hi, fun hb => by simp [hs] at hb, fun _ => ⟨_, rfl, ?_, ?_⟩⟩
    · rintro (rfl : k = 0) c' k' hs'
      cases hs.symm.trans hs'
      rfl
    · intro (hk : k ≠ 0)
      exact if_neg hk
  | @word w rest _ hr hs hc hw =>
    have noCall : s.issue.isSome ≠ true := by simp [State.issue, hs]
    obtain hw' | ⟨u, hw', hu⟩ := runWord_cases w rest hs <;> cases hw'.symm.trans hw
    · exact ⟨fun hi => absurd hi noCall, fun hb => by simp [hc, State.refuse] at hb, fun _ =>
        ⟨.nothing, rfl, fun hk => absurd hk (by decide : codeRefused ≠ 0), fun _ => rfl⟩⟩
    · exact ⟨fun hi => absurd hi noCall, fun _ => by rw [hu.rsp]; rfl, fun ⟨hidle, _⟩ => absurd hidle hu.busy⟩

/-- Settles O51: each clause is the register file's own law. -/
theorem registerFileReadAfterWrite : Obligations.RegisterFileReadAfterWrite :=
  fun _ _ _ hm ha => ⟨Memory.wf_write hm ha, Memory.read_write_same hm, fun _ hk => Memory.read_write_other hk⟩

/-! The machine after reset. -/

/-- The parameters of the reset state are legal, whatever the free ones are (R9, R10 (d)). -/
theorem Params.default_wf : Params.default.wf = true := by
  have rxPollMax_ne_zero (n : Fin 65535) : BitVec.ofNat 16 (n.val + 1) ≠ 0 := by
    rw [Ne, ← BitVec.toNat_inj, BitVec.toNat_ofNat, Nat.mod_eq_of_lt (by omega)]
    exact Nat.succ_ne_zero _
  have busyMask_oneBit : ∀ n : Fin 8, oneBit (1#8 <<< n.val) = true := by decide
  simp only [Params.wf, Params.default, rxPollMax_ne_zero, busyMask_oneBit, ne_eq, not_false_eq_true, decide_true,
    Bool.and_true]
  decide

/-- Settles O43: the trace is empty and SEQ idle, so only the parameters have something to meet. -/
theorem resetIsDisciplined : Obligations.ResetIsDisciplined :=
  { wf := Params.default_wf, legal := nofun, polled := rfl, ready := rfl }

/-- Settles O45: an idle engine needs nothing of its registers, and the file lists nothing. -/
theorem resetMeetsEngineInvariant : Obligations.ResetMeetsEngineInvariant :=
  ⟨Params.default_wf, fun hs => absurd rfl hs, rfl, rfl⟩

/-- Settles O49: every clause is a field of the reset state. -/
theorem resetState : Obligations.ResetState := ⟨rfl, rfl, rfl, rfl, rfl, rfl, rfl, rfl⟩

/-! Every step keeps the registers what SEQ needs them to be. -/

/-- The registers are what SEQ needs them to be. -/
def State.RegsOk (s : State) : Prop := s.seq.regsOk s.par s.regs = true

theorem regsOk_withRet {s : State} (r : Ret) : (s.withRet r).RegsOk ↔ s.RegsOk := Iff.rfl

theorem regsOk_writing {s : State} {c : WCtx} {w : WStep} :
    (s.goto (.writing c w)).RegsOk ↔ c.operandsOk s.par s.regs = true ∧ w.countOk s.par s.regs = true := by
  simp [State.RegsOk, Seq.regsOk]

theorem regsOk_reading {s : State} {c : RCtx} {r : RStep} :
    (s.goto (.reading c r)).RegsOk ↔ c.operandsOk s.par s.regs = true ∧ r.countOk s.par s.regs = true := by
  simp [State.RegsOk, Seq.regsOk]

/-! A poll keeps its count below the bound. -/

/-- A poll begins with no attempt made, below any bound that R10 (d) admits. -/
theorem begin_countOk {p : Params} (hw : p.wf = true) (k : PollKind) : PollPos.ptr.countOk (k.max p) 0 = true := by
  have := wf_max hw k
  simp only [PollPos.countOk, decide_eq_true_eq]
  bv_omega

/-- A row of a poll that stays in it keeps the count within its bound (R25, R150). -/
theorem pollMove_countOk {k : PollKind} {p q : PollPos} {s t : State} (h : s.pollMove k p = (.stay q, t))
    (hc : p.countOk (k.max s.par) s.regs.cnt = true) : q.countOk (k.max s.par) t.regs.cnt = true := by
  unfold State.pollMove at h
  split at h
  · cases h; exact hc
  · cases h
  case h_3 b _ =>
    split at h <;> cases h
    rw [show (s.latchStatus b).countAttempt.regs.cnt = s.regs.cnt + 1 from rfl]
    simp only [PollPos.countOk, decide_eq_true_eq, Bool.and_eq_true] at hc ⊢
    bv_omega
  · cases h
  case h_5 =>
    split at h <;> cases h
    next hlast =>
      simp only [PollPos.countOk, decide_eq_true_eq, Bool.and_eq_true] at hc ⊢
      bv_omega

/-- The operands of a handshake do not rest on what a poll writes, or on RX. -/
theorem WCtx.operandsOk_frame {s t : State} (f : PollFrame s t) (c : WCtx) :
    c.operandsOk t.par t.regs = c.operandsOk s.par s.regs := by
  rw [f.par, f.regs]; cases c <;> rfl

theorem RCtx.operandsOk_frame {s t : State} (f : PollFrame s t) (c : RCtx) :
    c.operandsOk t.par t.regs = c.operandsOk s.par s.regs := by
  rw [f.par, f.regs]; cases c <;> rfl

theorem regsOk_beginWrite {s : State} {c : WCtx} {a : VAddr} {d : Byte} (hw : s.par.wf = true)
    (h : c.operandsOk s.par { s.regs with a := a, d := d, cnt := 0 } = true) : (s.beginWrite c a d).RegsOk :=
  regsOk_writing.mpr ⟨h, begin_countOk hw .tx⟩

theorem regsOk_beginRead {s : State} {c : RCtx} {a : VAddr} (hw : s.par.wf = true)
    (h : c.operandsOk s.par { s.regs with a := a, cnt := 0 } = true) : (s.beginRead c a).RegsOk :=
  regsOk_reading.mpr ⟨h, begin_countOk hw .tx⟩

/-! The ends of a handshake. -/

theorem Failure.code_ne_refused (f : Failure) : f.code ≠ codeRefused := by cases f <;> decide

theorem firstCode_ne_refused {e : BitVec 2} (he : e ≠ codeRefused) (f : Failure) : firstCode e f.code ≠ codeRefused := by
  unfold firstCode
  split
  · exact he
  · exact f.code_ne_refused

theorem startDie_regsOk {s : State} {d : BitVec 2} (hw : s.par.wf = true) (hd : d.toNat ≤ 2) : (s.startDie d).RegsOk :=
  regsOk_beginWrite hw (by simp [WCtx.operandsOk, hd])

theorem startChannel_regsOk {s : State} {c : BitVec 3} (hw : s.par.wf = true) (hd : s.regs.dev.toNat ≤ 2)
    (hc : c.toNat ≤ 5) : (s.startChannel c).RegsOk :=
  regsOk_beginRead hw (by simp [RCtx.operandsOk, hd, hc])

theorem nextDie_regsOk {s : State} (hw : s.par.wf = true) : s.nextDie.RegsOk := by
  unfold State.nextDie
  split
  · exact startDie_regsOk hw (by bv_omega)
  · rfl

theorem nextChannel_regsOk {s : State} (hw : s.par.wf = true) (hd : s.regs.dev.toNat ≤ 2) : s.nextChannel.RegsOk := by
  unfold State.nextChannel
  split
  · exact startChannel_regsOk hw hd (by bv_omega)
  · exact nextDie_regsOk hw

theorem startLedOff_regsOk {s : State} (hw : s.par.wf = true) (he : s.regs.err ≠ codeRefused) : s.startLedOff.RegsOk :=
  regsOk_beginWrite hw (by simp [WCtx.operandsOk, he])

theorem recordError_regsOk {s : State} (hw : s.par.wf = true) (f : Failure) : (s.recordError f).RegsOk :=
  startLedOff_regsOk hw f.code_ne_refused

theorem endWith_regsOk {s : State} {c : EndCtx} {k : BitVec 2} (hc : c ≠ .rdall) (hk : k ≠ codeRefused) :
    (s.endWith c k).RegsOk := by
  cases c with
  | rdall => exact absurd rfl hc
  | _ => exact decide_eq_true hk

theorem failWrite_regsOk {s : State} {c : WCtx} (hw : s.par.wf = true) (h : c.operandsOk s.par s.regs = true)
    (f : Failure) : (s.failWrite c f).RegsOk := by
  cases c with
  | wrvr | seldev => exact endWith_regsOk nofun f.code_ne_refused
  | sweepSel =>
    have hw' : s.substituteDie.par.wf = true := by rw [(substituteDie_env s).1]; exact hw
    exact nextDie_regsOk hw'
  | ledonWr | measWr => exact recordError_regsOk hw f
  | ledoffWr =>
    simp only [WCtx.operandsOk, Bool.and_eq_true, decide_eq_true_eq] at h
    exact endWith_regsOk nofun (firstCode_ne_refused h.2 f)

theorem failRead_regsOk {s : State} {c : RCtx} (hw : s.par.wf = true) (h : c.operandsOk s.par s.regs = true)
    (f : Failure) : (s.failRead c f).RegsOk := by
  cases c with
  | rdvr | flt | ledonRd => exact endWith_regsOk nofun f.code_ne_refused
  | sweepFlt i =>
    simp only [RCtx.operandsOk, Bool.and_eq_true, decide_eq_true_eq] at h
    obtain ⟨⟨⟨hdev, -⟩, -⟩, -⟩ := h
    exact nextChannel_regsOk hw hdev
  | measRd | measPoll => exact recordError_regsOk hw f

theorem measPollMax_pos {p : Params} (hw : p.wf = true) : 0 < p.measPollMax.toNat := by
  simp only [Params.wf, Bool.and_eq_true, decide_eq_true_eq] at hw
  have : p.measPollMax ≠ 0 := by tauto
  bv_omega

theorem doneWrite_regsOk {s : State} {c : WCtx} (hw : s.par.wf = true) (h : c.operandsOk s.par s.regs = true) :
    (s.doneWrite c).RegsOk := by
  cases c with simp only [WCtx.operandsOk, Bool.and_eq_true, decide_eq_true_eq] at h
  | wrvr | seldev => exact endWith_regsOk nofun (by decide)
  | sweepSel => exact startChannel_regsOk hw h.2 (by decide)
  | ledonWr => exact regsOk_beginRead hw (by simp [RCtx.operandsOk, h.2])
  | measWr => exact regsOk_beginRead hw (by simp [RCtx.operandsOk, h.2, measPollMax_pos hw])
  | ledoffWr => exact endWith_regsOk nofun h.2

theorem doneRead_regsOk {s : State} {c : RCtx} (hw : s.par.wf = true) (h : c.operandsOk s.par s.regs = true) :
    (s.doneRead c).RegsOk := by
  cases c with simp only [RCtx.operandsOk, Bool.and_eq_true, decide_eq_true_eq] at h
  | rdvr => exact endWith_regsOk nofun (by decide)
  | flt i =>
    unfold State.doneRead; dsimp only; split
    · exact endWith_regsOk nofun (by decide)
    · exact regsOk_beginRead hw (by simp [RCtx.operandsOk, h.1])
  | sweepFlt i =>
    obtain ⟨⟨⟨hdev, hch⟩, hbase⟩, -⟩ := h
    unfold State.doneRead; dsimp only; split
    · exact nextChannel_regsOk hw hdev
    · exact regsOk_beginRead hw (by simp [RCtx.operandsOk, hdev, hch, hbase])
  | ledonRd => exact regsOk_beginWrite hw (by simp [WCtx.operandsOk])
  | measRd => exact regsOk_beginWrite hw (by simp [WCtx.operandsOk, h.2])
  | measPoll =>
    obtain ⟨⟨-, herr⟩, hcnt⟩ := h
    unfold State.doneRead; dsimp only; split
    · simp only [State.RegsOk, State.goto_seq, Seq.regsOk, State.goto_regs, State.goto_par, herr, decide_true,
        Bool.and_eq_true, decide_eq_true_eq, true_and]
      bv_omega
    · exact startLedOff_regsOk hw (by simp [herr, codeOk, codeRefused])

theorem doneMeasDelay_regsOk {s : State} (hw : s.par.wf = true) (hs : s.seq = .measDly) (h : s.RegsOk) :
    s.doneMeasDelay.RegsOk := by
  simp only [State.RegsOk, hs, Seq.regsOk, Bool.and_eq_true, decide_eq_true_eq] at h
  obtain ⟨⟨herr, -⟩, hcnt⟩ := h
  unfold State.doneMeasDelay
  split
  · exact recordError_regsOk hw .timeout
  next hmax =>
    have : s.regs.cnt2.toNat < s.par.measPollMax.toNat := by bv_omega
    exact regsOk_beginRead hw (by simp [RCtx.operandsOk, herr, this])

/-! The steps of a handshake. -/

/-- The rows of R161 keep the operands of the write and the count of its polls, or end the handshake. -/
theorem advanceWrite_regsOk {s : State} {c : WCtx} {w : WStep} (hw : s.par.wf = true)
    (ho : c.operandsOk s.par s.regs = true) (hc : w.countOk s.par s.regs = true) : (s.advanceWrite c w).RegsOk := by
  have fails {t : State} (f : PollFrame s t) (e : Failure) : (t.failWrite c e).RegsOk :=
    failWrite_regsOk (f.par ▸ hw) ((c.operandsOk_frame f).trans ho) e
  have goes {t : State} (f : PollFrame s t) {w' : WStep} (hc' : w'.countOk t.par t.regs = true) :
      (t.goto (.writing c w')).RegsOk := regsOk_writing.mpr ⟨(c.operandsOk_frame f).trans ho, hc'⟩
  cases w with
  | wB | wD =>
    simp only [State.advanceWrite]
    split
    · exact goes (.clearCount s) (begin_countOk hw .tx)
    · exact fails (.refl s) _
  | wA p | wC p =>
    simp only [State.advanceWrite]
    rcases hm : s.pollMove .tx p with ⟨q | _ | e, t⟩ <;> obtain ⟨f, -⟩ := pollMove_frame hm
    · exact goes f (by rw [f.par]; exact pollMove_countOk hm hc)
    · exact goes f rfl
    · exact fails f e
  | wE p =>
    simp only [State.advanceWrite]
    rcases hm : s.pollMove .tx p with ⟨q | _ | e, t⟩ <;> obtain ⟨f, -⟩ := pollMove_frame hm
    · exact goes f (by rw [f.par]; exact pollMove_countOk hm hc)
    · exact doneWrite_regsOk (f.par ▸ hw) ((c.operandsOk_frame f).trans ho)
    · exact fails f e

/-- The rows of R166 do the same for a read. -/
theorem advanceRead_regsOk {s : State} {c : RCtx} {r : RStep} (hw : s.par.wf = true)
    (ho : c.operandsOk s.par s.regs = true) (hc : r.countOk s.par s.regs = true) : (s.advanceRead c r).RegsOk := by
  have fails {t : State} (f : PollFrame s t) (e : Failure) : (t.failRead c e).RegsOk :=
    failRead_regsOk (f.par ▸ hw) ((c.operandsOk_frame f).trans ho) e
  have goes {t : State} (f : PollFrame s t) {r' : RStep} (hc' : r'.countOk t.par t.regs = true) :
      (t.goto (.reading c r')).RegsOk := regsOk_reading.mpr ⟨(c.operandsOk_frame f).trans ho, hc'⟩
  cases r with
  | rB =>
    simp only [State.advanceRead]
    split
    · exact goes (.clearCount s) (begin_countOk hw .tx)
    · exact fails (.refl s) _
  | rA p | rD p =>
    simp only [State.advanceRead]
    rcases hm : s.pollMove _ p with ⟨q | _ | e, t⟩ <;> obtain ⟨f, -⟩ := pollMove_frame hm
    · exact goes f (by rw [f.par]; exact pollMove_countOk hm hc)
    · exact goes f rfl
    · exact fails f e
  | rC p =>
    simp only [State.advanceRead]
    rcases hm : s.pollMove .tx p with ⟨q | _ | e, t⟩ <;> obtain ⟨f, -⟩ := pollMove_frame hm
    · exact goes f (by rw [f.par]; exact pollMove_countOk hm hc)
    · exact goes (f.trans (.clearCount t)) (begin_countOk (f.par ▸ hw) .rx)
    · exact fails f e
  | rE p =>
    cases p with
    | ptr =>
      simp only [State.advanceRead]
      split
      · exact goes (.refl s) rfl
      · exact fails (.refl s) _
    | get =>
      simp only [State.advanceRead]
      split
      next b _ => exact doneRead_regsOk hw (by rw [← ho]; cases c <;> rfl)
      · exact fails (.refl s) _

/-- Taking an answer, the sequencer leaves the registers what the next place needs (R23). -/
theorem advance_regsOk {s : State} (hw : s.par.wf = true) (h : s.RegsOk) : s.advance.RegsOk := by
  refine (regsOk_withRet .ok).mpr ?_
  have hq := h
  cases hs : s.seq with
  | idle | ending => exact h
  | measDly => exact doneMeasDelay_regsOk hw hs h
  | writing c w =>
    simp only [State.RegsOk, hs, Seq.regsOk, Bool.and_eq_true] at hq
    exact advanceWrite_regsOk hw hq.1 hq.2
  | reading c r =>
    simp only [State.RegsOk, hs, Seq.regsOk, Bool.and_eq_true] at hq
    exact advanceRead_regsOk hw hq.1 hq.2

/-! The acceptance of a command. -/

theorem present_idle {s : State} (hs : s.seq = .idle) (w : CmdWord) (start : State → State) : s.present w start = start s := by
  simp [State.present, State.busy, hs]

theorem idle_regsOk {s : State} (hs : s.seq = .idle) : s.RegsOk := by
  simp [State.RegsOk, hs, Seq.regsOk]

theorem deviceByte_le_two {id : BitVec 2} (h : id ≠ 3) : (deviceByte id).toNat ≤ 2 := by
  have hid : (deviceByte id).toNat = id.toNat := BitVec.toNat_setWidth_of_le (by decide)
  bv_omega

/-- A command that an idle engine accepts finds its opcode and operands in the registers (R103). -/
theorem exec_command_regsOk {s t : State} {i : Instr} (hi : i.isCommand = true) (hs : s.seq = .idle)
    (hw : s.par.wf = true) (h : exec i s = .next t) :
    (t.seq ≠ .idle → t.regs.op = t.seq.top.opcode) ∧ t.RegsOk := by
  have refused {u : State} : (u.refuse.seq ≠ .idle → u.refuse.regs.op = u.refuse.seq.top.opcode) ∧ u.refuse.RegsOk :=
    ⟨fun hb => absurd rfl hb, idle_regsOk rfl⟩
  cases i with
  | reserved6 | reserved7 =>
    simp only [exec, execReserved6, execReserved7, present_idle hs] at h
    cases h
    exact refused
  | seldev id =>
    simp only [exec, execSeldev, present_idle hs] at h
    split at h <;> cases h
    · exact refused
    next hid => exact ⟨fun _ => rfl, regsOk_beginWrite hw (by simp [WCtx.operandsOk, deviceByte_le_two hid])⟩
  | rdflt base =>
    simp only [exec, execRdflt, present_idle hs] at h
    split at h <;> cases h
    next hb => exact ⟨fun _ => rfl, regsOk_beginRead hw (by simp [RCtx.operandsOk, hb])⟩
    · exact refused
  | wrvr =>
    simp only [exec, execWrvr, present_idle hs] at h
    cases h
    exact ⟨fun _ => rfl, regsOk_beginWrite hw rfl⟩
  | rdvr =>
    simp only [exec, execRdvr, present_idle hs] at h
    cases h
    exact ⟨fun _ => rfl, regsOk_beginRead hw rfl⟩
  | rdall =>
    simp only [exec, execRdall, present_idle hs] at h
    cases h
    exact ⟨fun _ => rfl, startDie_regsOk hw (by decide)⟩
  | meas =>
    simp only [exec, execMeas, present_idle hs] at h
    cases h
    exact ⟨fun _ => rfl, regsOk_beginRead hw (by simp [RCtx.operandsOk])⟩
  | _ => cases hi

theorem runWord_regsOk {s t : State} {w : CmdWord} {rest : List CmdWord} (hs : s.seq = .idle) (hw : s.par.wf = true)
    (h : s.runWord w rest = .next t) : (t.seq ≠ .idle → t.regs.op = t.seq.top.opcode) ∧ t.RegsOk := by
  unfold State.runWord at h
  split at h
  next i hd => exact exec_command_regsOk (s := s.takeWord w rest) (decodeCmd_isCommand hd) hs hw h
  · cases h
    exact ⟨fun hb => absurd rfl hb, idle_regsOk rfl⟩

/-- Settles O44: a call and the sequencer after it keep the invariant, an acceptance sets it up, and an idle engine needs
nothing of its registers. -/
theorem stepKeepsEngineInvariant : Obligations.StepKeepsEngineInvariant := by
  intro s t inv h
  obtain ⟨hw, hop, hregs, hvreg⟩ := inv
  have idle {u : State} (hu : u.seq = .idle) (hp : u.par = s.par) (he : u.env.sensor = s.env.sensor) : EngineInv u :=
    ⟨hp ▸ hw, fun hb => absurd hu hb, idle_regsOk hu, he ▸ hvreg⟩
  cases step_kind h with
  | reset | complete => exact idle rfl rfl rfl
  | nothing hr hs hc => exact idle hs rfl rfl
  | @call i u hr hi hu =>
    obtain ⟨⟨hpar, hseq, hregs', -⟩, -⟩ := issued_call hi hu
    have hb := issue_busy hi
    have hgo := call_goesOn hi hu
    refine ⟨hgo.par ▸ hw, fun _ => ?_, advance_regsOk (hpar ▸ hw) ?_, ?_⟩
    · rw [hgo.op, hgo.top, hop hb]
    · rw [State.RegsOk, hseq, hpar, hregs']; exact hregs
    · rw [(advance_env_busy (hseq ▸ hb)).1]; exact (issued_call_env hi hu).2 hvreg
  | @word w rest _ hr hs hc hword =>
    obtain ⟨hop', hregs'⟩ := runWord_regsOk hs hw hword
    obtain hword' | ⟨u, hword', hu⟩ := runWord_cases w rest hs <;> cases hword'.symm.trans hword
    · exact idle rfl rfl rfl
    · exact ⟨hu.par ▸ hw, hop', hregs', by rw [hu.env]; exact hvreg⟩

/-! Which registers a running command still reads. Two runs that agree on them do the same (R28). -/

/-- The two register files hold the same results of the channels below the flat index `n`. -/
def SameResults (n : Nat) (r r' : Regs) : Prop := ∀ i (h : i < 18), i < n → r'.res[i] = r.res[i]

/-- What a sweep reads of its registers when the channels below `n` are done. -/
structure SameSweep (n : Nat) (r r' : Regs) : Prop where
  op : r'.op = r.op
  dev : r'.dev = r.dev
  fail : r'.fail = r.fail
  res : SameResults n r r'

/-- What a command reads, from a write of this context on, beside OP, the operands and CNT. -/
def WCtx.Same (r r' : Regs) : WCtx → Prop
  | .wrvr | .seldev => True
  | .sweepSel => SameSweep (r.dev.toNat * 6) r r'
  | .ledonWr | .measWr => r'.ledsave = r.ledsave ∧ r'.err = r.err
  | .ledoffWr => r'.err = r.err

/-- What a command reads, from a read of this context on, beside OP, the operand and CNT. The first byte of a float
overwrites ACC. -/
def RCtx.Same (r r' : Regs) : RCtx → Prop
  | .rdvr | .ledonRd => True
  | .flt i => r'.base = r.base ∧ (i ≠ 0 → r'.acc = r.acc)
  | .sweepFlt i =>
    r'.base = r.base ∧ (i ≠ 0 → r'.acc = r.acc) ∧ r'.ch = r.ch ∧ SameSweep (flatIndex r.dev r.ch) r r'
  | .measRd => r'.ledsave = r.ledsave ∧ r'.err = r.err
  | .measPoll => r'.ledsave = r.ledsave ∧ r'.err = r.err ∧ r'.cnt2 = r.cnt2

/-- What the engine still reads of its registers at a place of the sequencer. -/
def Seq.Same (r r' : Regs) : Seq → Prop
  | .idle => True
  | .writing c _ => r'.op = r.op ∧ r'.a = r.a ∧ r'.d = r.d ∧ r'.cnt = r.cnt ∧ c.Same r r'
  | .reading c _ => r'.op = r.op ∧ r'.a = r.a ∧ r'.cnt = r.cnt ∧ c.Same r r'
  | .measDly => r'.op = r.op ∧ r'.ledsave = r.ledsave ∧ r'.err = r.err ∧ r'.cnt2 = r.cnt2
  | .ending c k => r'.op = r.op ∧ (k = codeOk → c.data r' = c.data r)

/-- Outside SEQ, the registers and the response the two states are the same. -/
structure Beside (s t : State) : Prop where
  par : t.par = s.par
  env : t.env = s.env
  cmds : t.cmds = s.cmds
  resetReq : t.resetReq = s.resetReq

/-- Two states that nothing to come can tell apart: they differ only in what the running command no longer reads, and an
idle engine shows the same response. -/
structure Agree (s t : State) : Prop extends Beside s t where
  seq : t.seq = s.seq
  regs : s.seq.Same s.regs t.regs
  response : s.seq = .idle → t.response = s.response

theorem Agree.busy {s t : State} (h : Beside s t) (hs : s.seq ≠ .idle) (hq : t.seq = s.seq)
    (hr : s.seq.Same s.regs t.regs) : Agree s t := ⟨h, hq, hr, fun hi => absurd hi hs⟩

theorem Beside.frame {s t s' t' : State} (h : Beside s t) (f : PollFrame s s') (g : PollFrame t t') (he : s'.env = s.env)
    (he' : t'.env = t.env) : Beside s' t' :=
  ⟨by rw [g.par, f.par, h.par], by rw [he', he, h.env], by rw [g.cmds, f.cmds, h.cmds], by rw [g.rst, f.rst, h.resetReq]⟩

theorem goto_agree {s t : State} {q : Seq} (hb : q ≠ .idle) (h : Beside s t) (hq : q.Same s.regs t.regs) :
    Agree (s.goto q) (t.goto q) := .busy ⟨h.par, h.env, h.cmds, h.resetReq⟩ hb rfl hq

/-! The starts of a handshake. -/

theorem beginWrite_agree {s t : State} {c : WCtx} {a : VAddr} {d : Byte} (h : Beside s t) (hop : t.regs.op = s.regs.op)
    (hc : c.Same { s.regs with a := a, d := d, cnt := 0 } { t.regs with a := a, d := d, cnt := 0 }) :
    Agree (s.beginWrite c a d) (t.beginWrite c a d) :=
  .busy ⟨h.par, h.env, h.cmds, h.resetReq⟩ nofun rfl ⟨hop, rfl, rfl, rfl, hc⟩

theorem beginRead_agree {s t : State} {c : RCtx} {a : VAddr} (h : Beside s t) (hop : t.regs.op = s.regs.op)
    (hc : c.Same { s.regs with a := a, cnt := 0 } { t.regs with a := a, cnt := 0 }) :
    Agree (s.beginRead c a) (t.beginRead c a) :=
  .busy ⟨h.par, h.env, h.cmds, h.resetReq⟩ nofun rfl ⟨hop, rfl, rfl, hc⟩

theorem endWith_agree {s t : State} {c : EndCtx} {k : BitVec 2} (h : Beside s t) (hop : t.regs.op = s.regs.op)
    (hc : k = codeOk → c.data t.regs = c.data s.regs) : Agree (s.endWith c k) (t.endWith c k) :=
  .busy ⟨h.par, h.env, h.cmds, h.resetReq⟩ nofun rfl ⟨hop, hc⟩

/-! The sweep: when it ends, all 18 results have been written. -/

/-- A channel written in both, the results below the next index are the same. -/
theorem SameSweep.setChannel {s t : State} (h : SameSweep (flatIndex s.regs.dev s.regs.ch) s.regs t.regs)
    (hch : t.regs.ch = s.regs.ch) (w : Word) (f : Bool) :
    SameSweep (flatIndex s.regs.dev s.regs.ch + 1) (s.setChannel w f).regs (t.setChannel w f).regs := by
  obtain ⟨hop, hdev, hfail, hres⟩ := h
  refine ⟨hop, hdev, ?_, fun i hi hn => ?_⟩
  · simp only [State.setChannel, hdev, hch, hfail]
  · simp only [State.setChannel, hdev, hch, Vector.getElem_setIfInBounds]
    split
    · rfl
    · exact hres i hi (by omega)

/-- The channel `c` of a lost die substituted in both. -/
theorem SameSweep.substitute {s t : State} {n : Nat} (h : SameSweep n s.regs t.regs) (c : BitVec 3)
    (hn : n = s.regs.dev.toNat * 6 + c.toNat) :
    SameSweep (n + 1) (State.substitute { s with regs := { s.regs with ch := c } }).regs
      (State.substitute { t with regs := { t.regs with ch := c } }).regs := by
  subst hn
  exact SameSweep.setChannel (s := { s with regs := { s.regs with ch := c } })
    (t := { t with regs := { t.regs with ch := c } }) ⟨h.op, h.dev, h.fail, h.res⟩ rfl _ _

/-- Consecutive channels of a lost die substituted in both, from the channel `k` on. -/
theorem SameSweep.substituteAll {channels : List (BitVec 3)} {s t : State} {k : Nat}
    (h : SameSweep (s.regs.dev.toNat * 6 + k) s.regs t.regs)
    (hk : ∀ j (hj : j < channels.length), channels[j].toNat = k + j) :
    SameSweep (s.regs.dev.toNat * 6 + k + channels.length)
      (channels.foldl (fun u c => State.substitute { u with regs := { u.regs with ch := c } }) s).regs
      (channels.foldl (fun u c => State.substitute { u with regs := { u.regs with ch := c } }) t).regs := by
  induction channels generalizing s t k with
  | nil => exact h
  | cons c channels ih =>
    have hc : c.toNat = k := hk 0 (by simp)
    have rest := ih (s := State.substitute { s with regs := { s.regs with ch := c } })
      (t := State.substitute { t with regs := { t.regs with ch := c } }) (k := k + 1) (h.substitute c (by rw [hc]))
      fun j hj => by
        have := hk (j + 1) (by simpa using hj)
        simp only [List.getElem_cons_succ] at this
        omega
    have hn : s.regs.dev.toNat * 6 + k + (channels.length + 1) = s.regs.dev.toNat * 6 + (k + 1) + channels.length := by
      omega
    rw [List.length_cons, hn]
    exact rest

theorem SameSweep.substituteDie {s t : State} (h : SameSweep (s.regs.dev.toNat * 6) s.regs t.regs) :
    SameSweep (s.regs.dev.toNat * 6 + 6) s.substituteDie.regs t.substituteDie.regs :=
  h.substituteAll (k := 0) (channels := [0, 1, 2, 3, 4, 5]) (by decide)

theorem Beside.substituteDie {s t : State} (h : Beside s t) : Beside s.substituteDie t.substituteDie := by
  obtain ⟨hpar, henv⟩ := substituteDie_env s
  obtain ⟨hpar', henv'⟩ := substituteDie_env t
  obtain ⟨-, -, hreset, -⟩ := substituteDie_frame s
  obtain ⟨-, -, hreset', -⟩ := substituteDie_frame t
  obtain ⟨-, hcmds, -⟩ := substituteDie_keeps s
  obtain ⟨-, hcmds', -⟩ := substituteDie_keeps t
  exact ⟨by rw [hpar, hpar', h.par], by rw [henv, henv', h.env], by rw [hcmds, hcmds', h.cmds],
    by rw [hreset, hreset', h.resetReq]⟩

theorem startDie_agree {s t : State} {d : BitVec 2} (h : Beside s t) (hop : t.regs.op = s.regs.op)
    (hfail : t.regs.fail = s.regs.fail) (hres : SameResults (d.toNat * 6) s.regs t.regs) :
    Agree (s.startDie d) (t.startDie d) :=
  beginWrite_agree ⟨h.par, h.env, h.cmds, h.resetReq⟩ hop ⟨hop, rfl, hfail, hres⟩

theorem startChannel_agree {s t : State} {c : BitVec 3} (h : Beside s t)
    (hs : SameSweep (flatIndex s.regs.dev c) s.regs t.regs) : Agree (s.startChannel c) (t.startChannel c) :=
  beginRead_agree ⟨h.par, h.env, h.cmds, h.resetReq⟩ hs.op ⟨rfl, fun h => absurd rfl h, rfl, hs.op, hs.dev, hs.fail, hs.res⟩

theorem SameSweep.mono {n m : Nat} {r r' : Regs} (h : SameSweep n r r') (hm : m ≤ n) : SameSweep m r r' :=
  ⟨h.op, h.dev, h.fail, fun i hi hn => h.res i hi (by omega)⟩

theorem nextDie_agree {s t : State} {n : Nat} (h : Beside s t) (hs : SameSweep n s.regs t.regs)
    (hn : s.regs.dev.toNat * 6 + 6 ≤ n) : Agree s.nextDie t.nextDie := by
  unfold State.nextDie
  rw [hs.dev]
  split
  · exact startDie_agree h hs.op hs.fail (hs.mono (by bv_omega)).res
  · refine endWith_agree h hs.op ?_
    have hres : t.regs.res = s.regs.res := Vector.ext fun i hi => hs.res i hi (by omega)
    exact fun _ => by simp only [EndCtx.data, hres, hs.fail]

theorem nextChannel_agree {s t : State} (h : Beside s t) (hch : t.regs.ch = s.regs.ch)
    (hs : SameSweep (flatIndex s.regs.dev s.regs.ch + 1) s.regs t.regs) : Agree s.nextChannel t.nextChannel := by
  unfold State.nextChannel
  rw [hch]
  split
  · exact startChannel_agree h (hs.mono (by unfold flatIndex; bv_omega))
  · exact nextDie_agree h hs (by unfold flatIndex; omega)

/-! The ends of a handshake. -/

theorem startLedOff_agree {s t : State} (h : Beside s t) (hop : t.regs.op = s.regs.op)
    (hled : t.regs.ledsave = s.regs.ledsave) (herr : t.regs.err = s.regs.err) : Agree s.startLedOff t.startLedOff := by
  unfold State.startLedOff
  rw [h.par, hled]
  exact beginWrite_agree h hop herr

theorem recordError_agree {s t : State} (h : Beside s t) (hop : t.regs.op = s.regs.op)
    (hled : t.regs.ledsave = s.regs.ledsave) (f : Failure) : Agree (s.recordError f) (t.recordError f) :=
  startLedOff_agree ⟨h.par, h.env, h.cmds, h.resetReq⟩ hop hled rfl

theorem failWrite_agree {s t : State} {c : WCtx} (h : Beside s t) (hop : t.regs.op = s.regs.op)
    (hc : c.Same s.regs t.regs) (f : Failure) : Agree (s.failWrite c f) (t.failWrite c f) := by
  cases c with
  | wrvr | seldev => exact endWith_agree h hop fun _ => rfl
  | sweepSel =>
    obtain ⟨-, -, -, hdev⟩ := substituteDie_frame s
    have : Agree s.substituteDie.nextDie t.substituteDie.nextDie :=
      nextDie_agree h.substituteDie hc.substituteDie (by rw [hdev])
    exact this
  | ledonWr | measWr => exact recordError_agree h hop hc.1 f
  | ledoffWr =>
    simp only [State.failWrite, show t.regs.err = s.regs.err from hc]
    exact endWith_agree h hop fun _ => rfl

theorem failRead_agree {s t : State} {c : RCtx} (h : Beside s t) (hop : t.regs.op = s.regs.op)
    (hc : c.Same s.regs t.regs) (f : Failure) : Agree (s.failRead c f) (t.failRead c f) := by
  cases c with
  | rdvr | flt | ledonRd => exact endWith_agree h hop fun hk => absurd hk f.code_ne_ok
  | sweepFlt i =>
    obtain ⟨-, -, hch, hs⟩ := hc
    exact nextChannel_agree ⟨h.par, h.env, h.cmds, h.resetReq⟩ hch (hs.setChannel hch _ _)
  | measRd | measPoll => exact recordError_agree h hop hc.1 f

theorem doneWrite_agree {s t : State} {c : WCtx} (h : Beside s t) (hop : t.regs.op = s.regs.op)
    (hc : c.Same s.regs t.regs) : Agree (s.doneWrite c) (t.doneWrite c) := by
  cases c with
  | wrvr | seldev => exact endWith_agree h hop fun _ => rfl
  | sweepSel => exact startChannel_agree h hc
  | ledonWr =>
    simp only [State.doneWrite, h.par]
    exact beginRead_agree h hop hc
  | measWr =>
    simp only [State.doneWrite, h.par]
    exact beginRead_agree ⟨rfl, h.env, h.cmds, h.resetReq⟩ hop ⟨hc.1, hc.2, rfl⟩
  | ledoffWr =>
    simp only [State.doneWrite, show t.regs.err = s.regs.err from hc]
    exact endWith_agree h hop fun _ => rfl

/-- ACC after a byte of a float is the same in both: the first byte overwrites it. -/
theorem mergeRead_acc_same {s t : State} {i : Fin 4} (h : Beside s t) (hacc : i ≠ 0 → t.regs.acc = s.regs.acc)
    (hrx : t.regs.rx = s.regs.rx) : (t.mergeRead i).regs.acc = (s.mergeRead i).regs.acc := by
  simp only [State.mergeRead_regs, h.par, hrx]
  unfold mergeByte
  split
  · rfl
  next hi => rw [hacc hi]

theorem doneRead_agree {s t : State} {c : RCtx} (h : Beside s t) (hop : t.regs.op = s.regs.op)
    (hc : c.Same s.regs t.regs) (hrx : t.regs.rx = s.regs.rx) : Agree (s.doneRead c) (t.doneRead c) := by
  have besideRegs {r r' : Regs} : Beside { s with regs := r } { t with regs := r' } := ⟨h.par, h.env, h.cmds, h.resetReq⟩
  have atPar {r r' : Regs} : Beside { s with regs := r } { t with par := s.par, regs := r' } :=
    ⟨rfl, h.env, h.cmds, h.resetReq⟩
  cases c with
  | rdvr => exact endWith_agree h hop fun _ => congrArg RspData.byte hrx
  | flt i =>
    obtain ⟨hbase, hacc⟩ := hc
    have hacc' := mergeRead_acc_same h hacc hrx
    simp only [State.doneRead, hbase]
    split
    · exact endWith_agree besideRegs hop fun _ => congrArg RspData.word hacc'
    · exact beginRead_agree besideRegs hop ⟨hbase, fun _ => hacc'⟩
  | sweepFlt i =>
    obtain ⟨hbase, hacc, hch, hs⟩ := hc
    have hacc' := mergeRead_acc_same h hacc hrx
    have hs' : SameSweep (flatIndex s.regs.dev s.regs.ch) (s.mergeRead i).regs (t.mergeRead i).regs :=
      ⟨hs.op, hs.dev, hs.fail, hs.res⟩
    simp only [State.doneRead, hbase, hacc']
    split
    · exact nextChannel_agree besideRegs hch (SameSweep.setChannel (s := s.mergeRead i) (t := t.mergeRead i) hs' hch _ _)
    · exact beginRead_agree besideRegs hop ⟨hbase, fun _ => hacc', hch, hs.op, hs.dev, hs.fail, hs.res⟩
  | ledonRd =>
    simp only [State.doneRead, h.par, hrx]
    exact beginWrite_agree atPar hop ⟨rfl, rfl⟩
  | measRd =>
    simp only [State.doneRead, h.par, hrx]
    exact beginWrite_agree atPar hop hc
  | measPoll =>
    obtain ⟨hled, herr, hcnt⟩ := hc
    simp only [State.doneRead, h.par, hrx, hcnt]
    split
    · exact .busy ⟨rfl, h.env, h.cmds, h.resetReq⟩ nofun rfl ⟨hop, hled, herr, rfl⟩
    · exact startLedOff_agree atPar hop hled herr

theorem doneMeasDelay_agree {s t : State} (h : Beside s t) (hm : Seq.measDly.Same s.regs t.regs) :
    Agree s.doneMeasDelay t.doneMeasDelay := by
  obtain ⟨hop, hled, herr, hcnt⟩ := hm
  unfold State.doneMeasDelay
  rw [hcnt, h.par]
  split
  · exact recordError_agree h hop hled .timeout
  · exact beginRead_agree h hop ⟨hled, herr, hcnt⟩

/-! The steps of a handshake. -/

theorem Seq.Same.cnt {q : Seq} {r r' : Regs} {k : PollKind} {p : PollPos} (h : q.Same r r') (hp : q.pollAt = some (k, p)) :
    r'.cnt = r.cnt := by
  cases q with
  | writing c w => obtain ⟨-, -, -, hcnt, -⟩ := h; exact hcnt
  | reading c r => obtain ⟨-, -, hcnt, -⟩ := h; exact hcnt
  | idle | measDly | ending => cases hp

/-- What a poll writes beside CNT, nobody reads again. -/
theorem Seq.Same.frame {q : Seq} {s t s' t' : State} (h : q.Same s.regs t.regs) (f : PollFrame s s')
    (g : PollFrame t t') (hcnt : t'.regs.cnt = s'.regs.cnt) : q.Same s'.regs t'.regs := by
  rw [f.regs, g.regs]
  cases q with
  | idle => trivial
  | measDly => exact h
  | ending c k => cases c <;> exact h
  | writing c w =>
    obtain ⟨hop, ha, hd, -, hc⟩ := h
    refine ⟨hop, ha, hd, hcnt, ?_⟩
    cases c with
    | sweepSel => exact ⟨hc.op, hc.dev, hc.fail, hc.res⟩
    | _ => exact hc
  | reading c r =>
    obtain ⟨hop, ha, -, hc⟩ := h
    refine ⟨hop, ha, hcnt, ?_⟩
    cases c with
    | sweepFlt =>
      obtain ⟨hbase, hacc, hch, hs⟩ := hc
      exact ⟨hbase, hacc, hch, hs.op, hs.dev, hs.fail, hs.res⟩
    | _ => exact hc

/-- A poll on the same answer with the same count makes the same move, with the same count after it (R150). -/
theorem pollMove_same {k : PollKind} {p : PollPos} {s t : State} (hp : t.par = s.par) (hr : t.ret = s.ret)
    (hc : t.regs.cnt = s.regs.cnt) : (t.pollMove k p).1 = (s.pollMove k p).1 ∧
    (t.pollMove k p).2.regs.cnt = (s.pollMove k p).2.regs.cnt := by
  unfold State.pollMove
  rw [hr, hp, hc]
  split
  case h_3 b _ => split <;> exact ⟨rfl, congrArg (· + 1) hc⟩
  case h_5 => split <;> exact ⟨rfl, hc⟩
  all_goals exact ⟨rfl, hc⟩

/-- At a place in a poll both states make the same move, and still agree after it. -/
theorem pollMove_both {q : Seq} {k : PollKind} {p : PollPos} {s t : State} (hq : q.Same s.regs t.regs)
    (hp : q.pollAt = some (k, p)) (h : Beside s t) (hr : t.ret = s.ret) : ∃ m s' t', s.pollMove k p = (m, s') ∧
    t.pollMove k p = (m, t') ∧ Beside s' t' ∧ q.Same s'.regs t'.regs := by
  obtain ⟨hm, hcnt⟩ := pollMove_same (k := k) (p := p) h.par hr (hq.cnt hp)
  rcases hs : s.pollMove k p with ⟨m, s'⟩
  rcases ht : t.pollMove k p with ⟨_, t'⟩
  rw [hs, ht] at hm hcnt
  cases hm
  obtain ⟨f, he⟩ := pollMove_frame hs
  obtain ⟨g, he'⟩ := pollMove_frame ht
  exact ⟨m, s', t', rfl, rfl, h.frame f g he he', hq.frame f g hcnt⟩

theorem Beside.clearCount {s t : State} (h : Beside s t) : Beside s.clearCount t.clearCount :=
  h.frame (.clearCount s) (.clearCount t) rfl rfl

theorem Seq.Same.clearCount {q : Seq} {s t : State} (h : q.Same s.regs t.regs) :
    q.Same s.clearCount.regs t.clearCount.regs := h.frame (.clearCount s) (.clearCount t) rfl

theorem advanceWrite_agree {s t : State} {c : WCtx} {w : WStep} (h : Beside s t) (hr : t.ret = s.ret)
    (hq : (Seq.writing c w).Same s.regs t.regs) : Agree (s.advanceWrite c w) (t.advanceWrite c w) := by
  have fails {u v : State} (h : Beside u v) (hq : (Seq.writing c w).Same u.regs v.regs) (f : Failure) :
      Agree (u.failWrite c f) (v.failWrite c f) := by
    obtain ⟨hop, -, -, -, hc⟩ := hq
    exact failWrite_agree h hop hc f
  cases w with
  | wB | wD =>
    simp only [State.advanceWrite, hr]
    split
    · exact goto_agree nofun h.clearCount hq.clearCount
    · exact fails h hq .busError
  | wA p | wC p =>
    obtain ⟨m, s', t', hs, ht, h', hq'⟩ := pollMove_both hq rfl h hr
    simp only [State.advanceWrite, hs, ht]
    cases m with
    | stay q => exact goto_agree nofun h' hq'
    | hit => exact goto_agree nofun h' hq'
    | fail f => exact fails h' hq' f
  | wE p =>
    obtain ⟨m, s', t', hs, ht, h', hq'⟩ := pollMove_both hq rfl h hr
    simp only [State.advanceWrite, hs, ht]
    cases m with
    | stay q => exact goto_agree nofun h' hq'
    | hit =>
      obtain ⟨hop, -, -, -, hc⟩ := hq'
      exact doneWrite_agree h' hop hc
    | fail f => exact fails h' hq' f

theorem RCtx.Same.latchRead {c : RCtx} {s t : State} (h : c.Same s.regs t.regs) (b : Byte) :
    c.Same (s.latchRead b).regs (t.latchRead b).regs := by
  cases c with
  | sweepFlt =>
    obtain ⟨hbase, hacc, hch, hs⟩ := h
    exact ⟨hbase, hacc, hch, hs.op, hs.dev, hs.fail, hs.res⟩
  | _ => exact h

theorem advanceRead_agree {s t : State} {c : RCtx} {r : RStep} (h : Beside s t) (hr : t.ret = s.ret)
    (hq : (Seq.reading c r).Same s.regs t.regs) : Agree (s.advanceRead c r) (t.advanceRead c r) := by
  have fails {u v : State} (h : Beside u v) (hq : (Seq.reading c r).Same u.regs v.regs) (f : Failure) :
      Agree (u.failRead c f) (v.failRead c f) := by
    obtain ⟨hop, -, -, hc⟩ := hq
    exact failRead_agree h hop hc f
  cases r with
  | rB =>
    simp only [State.advanceRead, hr]
    split
    · exact goto_agree nofun h.clearCount hq.clearCount
    · exact fails h hq .busError
  | rA p | rD p =>
    obtain ⟨m, s', t', hs, ht, h', hq'⟩ := pollMove_both hq rfl h hr
    simp only [State.advanceRead, hs, ht]
    cases m with
    | stay q => exact goto_agree nofun h' hq'
    | hit => exact goto_agree nofun h' hq'
    | fail f => exact fails h' hq' f
  | rC p =>
    obtain ⟨m, s', t', hs, ht, h', hq'⟩ := pollMove_both hq rfl h hr
    simp only [State.advanceRead, hs, ht]
    cases m with
    | stay q => exact goto_agree nofun h' hq'
    | hit => exact goto_agree nofun h'.clearCount hq'.clearCount
    | fail f => exact fails h' hq' f
  | rE p =>
    cases p with
    | ptr =>
      simp only [State.advanceRead, hr]
      split
      · exact goto_agree nofun h hq
      · exact fails h hq .busError
    | get =>
      simp only [State.advanceRead, hr]
      split
      next b _ =>
        obtain ⟨hop, -, -, hc⟩ := hq
        exact doneRead_agree ⟨h.par, h.env, h.cmds, h.resetReq⟩ hop (RCtx.Same.latchRead hc b) rfl
      · exact fails h hq .busError

theorem Agree.withRet {s t : State} (h : Agree s t) (r : Ret) : Agree (s.withRet r) (t.withRet r) :=
  ⟨⟨h.par, h.env, h.cmds, h.resetReq⟩, h.seq, h.regs, h.response⟩

/-- On the same answer the sequencer goes on to places that agree. -/
theorem advance_agree {s t : State} (h : Agree s t) (hr : t.ret = s.ret) : Agree s.advance t.advance := by
  refine Agree.withRet ?_ .ok
  rw [h.seq]
  have hq := h.regs
  cases hs : s.seq with
  | idle | ending => exact h
  | measDly => exact doneMeasDelay_agree h.toBeside (hs ▸ hq)
  | writing c w => exact advanceWrite_agree h.toBeside hr (hs ▸ hq)
  | reading c r => exact advanceRead_agree h.toBeside hr (hs ▸ hq)

/-! The call that is made, and the word at the port. -/

/-- The instructions that are one external call (R113, R146). -/
def isSingleCall : Instr → Bool
  | .vwra _ | .vrda _ | .vdata _ | .ptrStatus | .ptrRead | .get1 | .delay _ => true
  | _ => false

theorem isSingleCall_of_issue {s : State} {i : Instr} (h : s.issue = some i) : isSingleCall i = true := by
  have poll (k : PollKind) (p : PollPos) : isSingleCall (p.issue k) = true := by cases p <;> rfl
  unfold State.issue at h
  split at h <;> cases h
  next w _ =>
    cases w with
    | wA p | wC p | wE p => exact poll .tx p
    | wB | wD => rfl
  next r _ =>
    cases r with
    | rA p | rC p => exact poll .tx p
    | rD p => exact poll .rx p
    | rB => rfl
    | rE p => cases p <;> rfl
  · rfl

/-- What a call answers and does to the environment does not rest on the engine's registers. -/
theorem exec_singleCall_same {s t u : State} {i : Instr} (hi : isSingleCall i = true) (hp : t.par = s.par)
    (he : t.env = s.env) (h : exec i s = .next u) : exec i t = .next { t with ret := u.ret, env := u.env } := by
  have tx (bytes : Params → List Byte) (hs : exec i s = (s.xferTx (bytes s.par)).finish) :
      (t.xferTx (bytes t.par)).finish = .next { t with ret := u.ret, env := u.env } := by
    obtain ⟨a, e, ht, rfl⟩ := call_tx hs h
    rw [← hp, ← he] at ht
    simp only [State.xferTx, ht]
    rfl
  cases i with
  | ptrStatus => exact tx (fun p => [p.statusReg]) rfl
  | ptrRead => exact tx (fun p => [p.readReg]) rfl
  | vwra a => exact tx (fun p => [p.writeReg, vwraByte a]) rfl
  | vrda a => exact tx (fun p => [p.writeReg, vrdaByte a]) rfl
  | vdata d => exact tx (fun p => [p.writeReg, d]) rfl
  | get1 =>
    obtain ⟨a, e, hx, rfl⟩ := call_rx rfl h
    rw [← hp, ← he] at hx
    simp only [exec, execGet1, State.callGet1, State.xferRx, hx]
    rfl
  | delay iv =>
    cases h
    simp only [State.withRet_env, State.doDelay_env, ← hp, ← he]
    rfl
  | _ => cases hi

/-- The engine issues the same call in both. -/
theorem Agree.issue {s t : State} (h : Agree s t) : t.issue = s.issue := by
  have hq := h.regs
  unfold State.issue
  rw [h.seq]
  cases hs : s.seq with
  | idle | ending | measDly => rfl
  | writing c w =>
    rw [hs] at hq
    obtain ⟨-, ha, hd, -, -⟩ := hq
    simp only [WStep.issue, ha, hd]
  | reading c r =>
    rw [hs] at hq
    obtain ⟨-, ha, -, -⟩ := hq
    simp only [RStep.issue, ha]

theorem refuse_agree {s t : State} (h : Beside s t) : Agree s.refuse t.refuse where
  par := h.par
  env := by simp only [State.refuse, State.respond_env, h.env]
  cmds := h.cmds
  resetReq := h.resetReq
  seq := rfl
  regs := trivial
  response _ := rfl

theorem complete_agree {s t : State} {c : EndCtx} {k : BitVec 2} (h : Beside s t) (hq : (Seq.ending c k).Same s.regs t.regs) :
    Agree (s.complete c k) (t.complete c k) := by
  obtain ⟨hop, hdata⟩ := hq
  have hrsp : (t.complete c k).rsp = (s.complete c k).rsp := by
    simp only [State.complete_rsp, h.env]
    split
    next hk => rw [hdata hk]
    · rfl
  exact {
    par := h.par
    env := by simp only [State.complete_env, h.env]
    cmds := h.cmds
    resetReq := h.resetReq
    seq := rfl
    regs := trivial
    response := fun _ => by
      unfold State.response
      rw [hrsp, State.complete_regs, State.complete_regs, hop] }

/-- Idle engines that are the same outside their registers take a command the same way: it writes what it will read. -/
theorem exec_command_agree {s t s1 : State} {i : Instr} (hi : i.isCommand = true) (h : Beside s t) (hs : s.seq = .idle)
    (ht : t.seq = .idle) (he : exec i s = .next s1) : ∃ t1, exec i t = .next t1 ∧ Agree s1 t1 := by
  have latched (op : BitVec 3) : Beside (s.latchOp op) (t.latchOp op) := ⟨h.par, h.env, h.cmds, h.resetReq⟩
  cases i with
  | reserved6 | reserved7 =>
    simp only [exec, execReserved6, execReserved7, present_idle hs, present_idle ht] at he ⊢
    cases he
    exact ⟨_, rfl, refuse_agree h⟩
  | seldev id =>
    by_cases hid : id = 3 <;>
      simp only [exec, execSeldev, present_idle hs, present_idle ht, hid, if_true, if_false] at he ⊢ <;> cases he
    · exact ⟨_, rfl, refuse_agree h⟩
    · exact ⟨_, rfl, beginWrite_agree (latched _) rfl trivial⟩
  | rdflt base =>
    by_cases hb : base.toNat ≤ 0x7C <;>
      simp only [exec, execRdflt, present_idle hs, present_idle ht, hb, if_true, if_false] at he ⊢ <;> cases he
    · exact ⟨_, rfl, beginRead_agree ⟨h.par, h.env, h.cmds, h.resetReq⟩ rfl ⟨rfl, fun h0 => absurd rfl h0⟩⟩
    · exact ⟨_, rfl, refuse_agree h⟩
  | wrvr =>
    simp only [exec, execWrvr, present_idle hs, present_idle ht] at he ⊢
    cases he
    exact ⟨_, rfl, beginWrite_agree (latched 0) rfl trivial⟩
  | rdvr =>
    simp only [exec, execRdvr, present_idle hs, present_idle ht] at he ⊢
    cases he
    exact ⟨_, rfl, beginRead_agree (latched _) rfl trivial⟩
  | rdall =>
    simp only [exec, execRdall, present_idle hs, present_idle ht] at he ⊢
    cases he
    exact ⟨_, rfl, startDie_agree ⟨h.par, h.env, h.cmds, h.resetReq⟩ rfl rfl fun i _ hn => absurd hn (by simp)⟩
  | meas =>
    simp only [exec, execMeas, present_idle hs, present_idle ht, h.par] at he ⊢
    cases he
    exact ⟨_, rfl, beginRead_agree (latched _) rfl trivial⟩
  | _ => cases hi

theorem runWord_agree {s t s1 : State} {w : CmdWord} {rest : List CmdWord} (h : Beside s t) (hs : s.seq = .idle)
    (ht : t.seq = .idle) (he : s.runWord w rest = .next s1) : ∃ t1, t.runWord w rest = .next t1 ∧ Agree s1 t1 := by
  have h' : Beside (s.takeWord w rest) (t.takeWord w rest) :=
    ⟨h.par, by simp only [State.takeWord_env, h.env], rfl, h.resetReq⟩
  unfold State.runWord at he ⊢
  cases hd : decodeCmd w with
  | ok i =>
    simp only [hd] at he ⊢
    exact exec_command_agree (decodeCmd_isCommand hd) h' hs ht he
  | error e =>
    simp only [hd] at he ⊢
    cases he
    exact ⟨_, rfl, refuse_agree h'⟩

theorem engineReset_agree {s t : State} (h : Beside s t) : Agree s.engineReset t.engineReset where
  par := h.par
  env := by simp only [State.engineReset_env, h.env]
  cmds := h.cmds
  resetReq := rfl
  seq := rfl
  regs := trivial
  response _ := rfl

/-- States that agree step to states that agree. -/
theorem step_agree {s t s1 : State} (h : Agree s t) (he : step s = .next s1) : ∃ t1, step t = .next t1 ∧ Agree s1 t1 := by
  have idle (hs : s.seq = .idle) : t.seq = .idle := h.seq.trans hs
  cases step_kind he with
  | reset hr => exact ⟨_, step_reset (h.resetReq.trans hr), engineReset_agree h.toBeside⟩
  | nothing hr hs hc => exact ⟨_, step_idle (h.resetReq.trans hr) (idle hs) (h.cmds.trans hc), h⟩
  | @complete c k hr hs =>
    exact ⟨_, step_complete (h.resetReq.trans hr) (h.seq.trans hs), complete_agree h.toBeside (hs ▸ h.regs)⟩
  | word hr hs hc hw =>
    rw [step_word (h.resetReq.trans hr) (idle hs) (h.cmds.trans hc)]
    exact runWord_agree h.toBeside hs (idle hs) hw
  | @call i u hr hi hu =>
    have hu' := exec_singleCall_same (isSingleCall_of_issue hi) h.par h.env hu
    obtain ⟨⟨hpar, hseq, hregs, hrsp, hcmds, hreset⟩, -⟩ := issued_call hi hu
    have called : Agree u { t with ret := u.ret, env := u.env } :=
      .busy ⟨h.par.trans hpar.symm, rfl, h.cmds.trans hcmds.symm, h.resetReq.trans hreset.symm⟩
        (hseq ▸ issue_busy hi) (h.seq.trans hseq.symm) (by rw [hseq, hregs]; exact h.regs)
    refine ⟨_, ?_, advance_agree called rfl⟩
    rw [step_call (h.resetReq.trans hr) (h.issue.trans hi), State.runCall, hu']
    rfl

theorem runs_agree {n : Nat} {s t u : State} (h : Agree s t) (hu : runs n s = .next u) :
    ∃ v, runs n t = .next v ∧ Agree u v := by
  induction n generalizing s t with
  | zero => cases hu; exact ⟨t, rfl, h⟩
  | succ n ih =>
    rw [runs_succ] at hu ⊢
    cases hs : step s with
    | next s1 =>
      obtain ⟨t1, ht, h1⟩ := step_agree h hs
      rw [hs] at hu
      rw [ht]
      exact ih h1 hu
    | fault | refused => rw [hs] at hu; cases hu

/-- Settles O46: a command taken in both leaves states that agree, and every step keeps that. -/
theorem oldRegistersDoNotMatter : Obligations.OldRegistersDoNotMatter := by
  intro s t s1 u i n ⟨hpar, henv, hcmds, hreset, hs, ht⟩ hi he hu
  obtain ⟨t1, ht1, h1⟩ := exec_command_agree hi ⟨hpar, henv, hcmds, hreset⟩ hs ht he
  obtain ⟨v, hv, h⟩ := runs_agree h1 hu
  exact ⟨t1, v, ht1, hv, h.env, h.seq, h.cmds, h.response⟩

end Sys2Proof.Machine
end

section
/-! SUPPORT and proof of the statement about the discipline of the trace: a poll before every byte handed to WRITE and
before every access to READ (R77, R171). -/

namespace Sys2Proof.Machine

/-! The trace alone. -/

/-- The part of `Disciplined` that speaks of a trace: legal calls only, each byte and each access after its poll. -/
structure TraceDisciplined (p : Params) (tr : List Event) : Prop where
  legal : ∀ e ∈ tr, e.legal p = true
  polled : polledTrace p tr = true

/-- A legal event keeps the discipline where the polls that its kind needs have been made. -/
theorem TraceDisciplined.cons {p : Params} {tr : List Event} {e : Event} (h : TraceDisciplined p tr)
    (hlegal : e.legal p = true) (hwrite : e.isWrite p = true → statusRead p (fun b => !txValid b) tr = true)
    (hread : e.isReadAccess p = true → statusRead p rxValid tr = true) : TraceDisciplined p (e :: tr) where
  legal := List.forall_mem_cons.mpr ⟨hlegal, h.legal⟩
  polled := by
    simp only [polledTrace, h.polled, Bool.and_true, Bool.and_eq_true, Bool.or_eq_true, Bool.not_eq_true']
    exact ⟨Bool.eq_false_or_eq_true _ |>.symm.imp_right hwrite, Bool.eq_false_or_eq_true _ |>.symm.imp_right hread⟩

/-- The sub-addresses of STATUS and READ differ (D8). -/
theorem Params.statusReg_ne_readReg {p : Params} (hw : p.wf = true) : p.statusReg ≠ p.readReg := by
  simp only [Params.wf, Bool.and_eq_true, decide_eq_true_eq] at hw
  tauto

/-- A receive after a pointer frame of STATUS completes a STATUS read. -/
theorem statusRead_receive {p : Params} {good : Byte → Bool} {dev : BitVec 7} {n : Nat} {timeout : Duration} {b : Byte}
    {tr : List Event} (h : pointedAt p.statusReg tr = true) (hb : good b = true) :
    statusRead p good (.receive dev n timeout (.byte b) :: tr) = true := by
  unfold pointedAt at h
  split at h
  · simpa [statusRead, hb] using h
  · cases h

/-! What the places of a handshake need of the trace. -/

/-- The state's own trace keeps the discipline. -/
def State.TraceOk (s : State) : Prop := TraceDisciplined s.par s.env.trace

/-- SEQ stands where the trace allows it to be. -/
def State.Ready (s : State) : Prop := s.seq.traceReady s.par s.env.trace = true

/-- What a poll needs of the trace at each of its positions (R150). -/
def PollPos.Ready (p : Params) (tr : List Event) : PollPos → Prop
  | .ptr | .dly => True
  | .get => pointedAt p.statusReg tr = true

/-- The STATUS bytes that end each poll: TX_VALID clear, RX_VALID set (R148, R149). -/
def PollKind.passed : PollKind → Byte → Bool
  | .tx => fun b => !txValid b
  | .rx => rxValid

/-- What a poll hands on holds of the trace: the position it moves to is allowed, and a hit means its STATUS read. -/
def PollMove.Ready (k : PollKind) (p : Params) (tr : List Event) : PollMove → Prop
  | .stay q => q.Ready p tr
  | .hit => statusRead p k.passed tr = true
  | .fail _ => True

theorem PollKind.passed_of_pollHit {k : PollKind} {b : Byte} (h : pollHit k.mask k.want b = true) : k.passed b = true := by
  have hb : b &&& k.mask = k.want := of_decide_eq_true h
  cases k with
  | tx =>
    have hclear : b &&& Config.txValidMask = 0 := hb
    simp [PollKind.passed, txValid, hclear]
  | rx =>
    have hset : b &&& Config.rxValidMask = 1 := hb
    simp [PollKind.passed, rxValid, hset]

/-- A place inside a poll is allowed exactly when the poll's position is. -/
theorem traceReady_pollAt {q : Seq} {k : PollKind} {pos : PollPos} {p : Params} {tr : List Event}
    (h : q.pollAt = some (k, pos)) : q.traceReady p tr = true ↔ pos.Ready p tr := by
  cases q with
  | idle | measDly | ending => cases h
  | writing c w => cases w <;> cases h <;> cases pos <;> simp [Seq.traceReady, PollPos.Ready]
  | reading c r => cases r <;> cases h <;> cases pos <;> simp [Seq.traceReady, PollPos.Ready]

/-- Where a handshake ends the place that follows is allowed; after a write that ended Ok the trace ends in a STATUS read
with TX_VALID clear (R77 (c)). -/
theorem Quiet.ready {W : Prop} {u v : State} (h : Quiet W u v)
    (hw : W → statusRead u.par (fun b => !txValid b) u.env.trace = true) : v.Ready := by
  unfold State.Ready
  rw [h.par, h.env]
  obtain hv | ⟨c, hv⟩ | ⟨c, hv⟩ | ⟨c, k, hv, hk⟩ := h.fresh <;> rw [hv]
  · rfl
  · rfl
  · rfl
  · cases c with
    | rdvr | rdflt | rdall => rfl
    | wrvr | seldev | meas =>
      have hk' : W ∨ k ≠ codeOk := by simpa using hk
      simp only [Seq.traceReady, Bool.or_eq_true, decide_eq_true_eq]
      exact hk'.symm.imp_right hw

theorem failWrite_ready (c : WCtx) (f : Failure) (u : State) : (u.failWrite c f).Ready :=
  (Quiet.failWrite (W := False) u c f).ready nofun

theorem failRead_ready (c : RCtx) (f : Failure) (u : State) : (u.failRead c f).Ready :=
  (Quiet.failRead (W := False) u c f).ready nofun

theorem doneRead_ready (c : RCtx) (u : State) : (u.doneRead c).Ready :=
  (Quiet.doneRead (W := False) u c).ready nofun

/-! What each call of a handshake puts on the trace. -/

/-- What an instruction that is one `transmit` puts on the trace, and the result it hands on. -/
theorem call_tx_trace {i : Instr} {s u : State} {bytes : List Byte} (he : exec i s = (s.xferTx bytes).finish)
    (hu : exec i s = .next u) : u.par = s.par ∧
      ∃ a, u.ret = a.ret ∧ u.env.trace = .transmit Config.devAddr7 bytes s.par.xferTimeout a :: s.env.trace := by
  obtain ⟨a, e, ht, rfl⟩ := call_tx he hu
  exact ⟨rfl, a, rfl, (transmit_env ht).1⟩

/-- The same of an instruction that is one `receive`. -/
theorem call_rx_trace {i : Instr} {s u : State} (he : exec i s = (s.xferRx 1).finish) (hu : exec i s = .next u) :
    u.par = s.par ∧
      ∃ a, u.ret = a.ret ∧ u.env.trace = .receive Config.devAddr7 1 s.par.xferTimeout a :: s.env.trace := by
  obtain ⟨a, e, hx, rfl⟩ := call_rx he hu
  exact ⟨rfl, a, rfl, (receive_env hx).1⟩

/-- A byte handed to WRITE after a STATUS read with TX_VALID clear (R77 (a)). -/
theorem traceOk_write {i : Instr} {s u : State} {b : Byte} (he : exec i s = (s.callWrWrite b).finish)
    (hu : exec i s = .next u) (h : s.TraceOk) (hr : statusRead s.par (fun b => !txValid b) s.env.trace = true) :
    u.TraceOk := by
  obtain ⟨hp, a, -, ht⟩ := call_tx_trace he hu
  unfold State.TraceOk
  rw [hp, ht]
  exact h.cons (by simp [Event.legal]) (fun _ => hr) nofun

/-- A pointer frame of a register that is STATUS or READ. -/
theorem traceOk_pointer {i : Instr} {s u : State} {r : Byte} (he : exec i s = (s.xferTx [r]).finish)
    (hu : exec i s = .next u) (h : s.TraceOk) (hr : r = s.par.statusReg ∨ r = s.par.readReg)
    (hread : r = s.par.readReg → statusRead s.par rxValid s.env.trace = true) :
    u.par = s.par ∧ u.TraceOk ∧ (u.ret = .ok → pointedAt r u.env.trace = true) := by
  obtain ⟨hp, a, ha, ht⟩ := call_tx_trace he hu
  unfold State.TraceOk
  rw [hp, ht, ha]
  refine ⟨rfl, h.cons (by simpa [Event.legal] using hr) nofun
    fun hacc => hread (by simpa [Event.isReadAccess] using hacc), ?_⟩
  cases a <;> simp [TxAnswer.ret, pointedAt]

/-- The receive of a byte. -/
theorem traceOk_receive {s u : State} (hu : exec .get1 s = .next u) (h : s.TraceOk) :
    u.TraceOk ∧ ∀ {b good}, u.ret = .byte b → pointedAt s.par.statusReg s.env.trace = true → good b = true →
      statusRead u.par good u.env.trace = true := by
  obtain ⟨hp, a, ha, ht⟩ := call_rx_trace rfl hu
  unfold State.TraceOk
  rw [hp, ht, ha]
  refine ⟨h.cons (by simp [Event.legal]) nofun nofun, fun hb hptr hgood => ?_⟩
  cases a <;> cases hb
  exact statusRead_receive hptr hgood

theorem traceOk_delay {s u : State} {iv : Interval} (hu : exec (.delay iv) s = .next u) (h : s.TraceOk) : u.TraceOk := by
  cases hu
  unfold State.TraceOk
  rw [show ((s.doDelay iv).withRet .ok).env.trace = _ from (delay_env s.par iv s.env).1]
  exact h.cons (by simp [Event.legal]) nofun nofun

/-- A call of a poll keeps the discipline, and what the poll hands on its answer is what the trace shows (R147, R150). -/
theorem poll_disciplined {k : PollKind} {pos : PollPos} {s u : State} (hu : exec (pos.issue k) s = .next u)
    (hw : s.par.wf = true) (h : s.TraceOk) (hpos : pos.Ready s.par s.env.trace) :
    u.TraceOk ∧ (u.pollMove k pos).1.Ready k u.par u.env.trace := by
  cases pos with
  | ptr =>
    obtain ⟨hp, hok, hptr⟩ :=
      traceOk_pointer rfl hu h (.inl rfl) fun e => absurd e (Params.statusReg_ne_readReg hw)
    refine ⟨hok, ?_⟩
    unfold State.pollMove
    cases hret : u.ret with
    | ok => rw [hp]; exact hptr hret
    | byte | timeout | busError => trivial
  | get =>
    obtain ⟨hok, hread⟩ := traceOk_receive hu h
    refine ⟨hok, ?_⟩
    unfold State.pollMove
    cases hret : u.ret with
    | byte b =>
      dsimp only
      split
      next hit => exact hread hret hpos (PollKind.passed_of_pollHit hit)
      · trivial
    | ok | timeout | busError => trivial
  | dly =>
    refine ⟨traceOk_delay hu h, ?_⟩
    unfold State.pollMove
    dsimp only
    split <;> trivial

/-! The steps of a handshake. -/

/-- Where SEQ goes from a poll of the place `q`: another position of it, or on by `hit` or by `fail` (R150). Each poll
step of `advanceWrite` and `advanceRead` is this by definition, with its own `hit` and `fail`. -/
def State.afterPoll (q : PollPos → Seq) (hit : State → State) (fail : Failure → State → State) :
    PollMove × State → State
  | (.stay pos, t) => t.goto (q pos)
  | (.hit, t) => hit t
  | (.fail f, t) => fail f t

/-- A step inside a poll: its call keeps the discipline, and SEQ goes where the trace allows it, if a hit does after its
STATUS read and a failure does anyway. -/
theorem pollStep_disciplined {k : PollKind} {pos : PollPos} {s u : State} {q : PollPos → Seq} {hit : State → State}
    {fail : Failure → State → State} (hq : ∀ pos, (q pos).pollAt = some (k, pos)) (hw : s.par.wf = true) (h : s.TraceOk)
    (hr : (q pos).traceReady s.par s.env.trace = true) (hu : exec (pos.issue k) s = .next u)
    (hhit : ∀ t : State, statusRead t.par k.passed t.env.trace = true → (hit t).Ready)
    (hfail : ∀ f t, (fail f t).Ready) :
    u.TraceOk ∧ (State.afterPoll q hit fail (u.pollMove k pos)).Ready := by
  obtain ⟨hok, hmove⟩ := poll_disciplined hu hw h ((traceReady_pollAt (hq pos)).mp hr)
  refine ⟨hok, ?_⟩
  rcases hm : u.pollMove k pos with ⟨m, t⟩
  obtain ⟨hf, he⟩ := pollMove_frame hm
  rw [hm, ← hf.par, ← he] at hmove
  cases m with
  | stay pos' => exact (traceReady_pollAt (hq pos')).mpr hmove
  | hit => exact hhit t hmove
  | fail f => exact hfail f t

/-- A step of a write: its call keeps the discipline, and the rows of R161 go where the trace allows it. -/
theorem write_disciplined {s u : State} {c : WCtx} {w : WStep} (hs : s.seq = .writing c w) (hw : s.par.wf = true)
    (h : s.TraceOk) (hr : s.Ready) (hu : exec (w.issue s.regs) s = .next u) :
    u.TraceOk ∧ (u.advanceWrite c w).Ready := by
  rw [State.Ready, hs] at hr
  cases w with
  | wA pos =>
    exact pollStep_disciplined (q := fun p => .writing c (.wA p)) (hit := State.goto (.writing c .wB)) (fun _ => rfl) hw h
      hr hu (fun _ ht => ht) (failWrite_ready c)
  | wC pos =>
    exact pollStep_disciplined (q := fun p => .writing c (.wC p)) (hit := State.goto (.writing c .wD)) (fun _ => rfl) hw h
      hr hu (fun _ ht => ht) (failWrite_ready c)
  | wE pos =>
    exact pollStep_disciplined (q := fun p => .writing c (.wE p)) (fun _ => rfl) hw h hr hu
      (fun t ht => (Quiet.doneWrite t c).ready fun _ => ht) (failWrite_ready c)
  | wB | wD =>
    refine ⟨traceOk_write rfl hu h hr, ?_⟩
    simp only [State.advanceWrite]
    split
    · rfl
    · exact failWrite_ready c _ u

/-- A step of a read: its call keeps the discipline, and the rows of R166 go where the trace allows it. -/
theorem read_disciplined {s u : State} {c : RCtx} {r : RStep} (hs : s.seq = .reading c r) (hw : s.par.wf = true)
    (h : s.TraceOk) (hr : s.Ready) (hu : exec (r.issue s.regs) s = .next u) :
    u.TraceOk ∧ (u.advanceRead c r).Ready := by
  rw [State.Ready, hs] at hr
  cases r with
  | rA pos =>
    exact pollStep_disciplined (q := fun p => .reading c (.rA p)) (hit := State.goto (.reading c .rB)) (fun _ => rfl) hw h
      hr hu (fun _ ht => ht) (failRead_ready c)
  | rC pos =>
    exact pollStep_disciplined (q := fun p => .reading c (.rC p))
      (hit := fun t => t.clearCount.goto (.reading c (.rD .ptr))) (fun _ => rfl) hw h hr hu (fun _ _ => rfl)
      (failRead_ready c)
  | rD pos =>
    exact pollStep_disciplined (q := fun p => .reading c (.rD p)) (hit := State.goto (.reading c (.rE .ptr)))
      (fun _ => rfl) hw h hr hu (fun _ ht => ht) (failRead_ready c)
  | rB =>
    refine ⟨traceOk_write rfl hu h hr, ?_⟩
    simp only [State.advanceRead]
    split
    · rfl
    · exact failRead_ready c _ u
  | rE pos =>
    cases pos with
    | ptr =>
      obtain ⟨hp, hok, hptr⟩ := traceOk_pointer rfl hu h (.inr rfl) fun _ => hr
      refine ⟨hok, ?_⟩
      simp only [State.advanceRead]
      split
      next hret =>
        show pointedAt u.par.readReg u.env.trace = true
        rw [hp]
        exact hptr hret
      · exact failRead_ready c _ u
    | get =>
      refine ⟨(traceOk_receive hu h).1, ?_⟩
      simp only [State.advanceRead]
      split
      · exact doneRead_ready c _
      · exact failRead_ready c _ u

/-- A call of a running command with the sequencer after it. -/
theorem call_disciplined {s u : State} {i : Instr} (hi : s.issue = some i) (hw : s.par.wf = true) (h : s.TraceOk)
    (hr : s.Ready) (hu : exec i s = .next u) : u.TraceOk ∧ u.advance.Ready := by
  obtain ⟨⟨-, hseq, -⟩, -⟩ := issued_call hi hu
  unfold State.advance
  rw [hseq]
  cases hs : s.seq with
  | idle | ending => simp [State.issue, hs] at hi
  | writing c w =>
    obtain rfl : w.issue s.regs = i := by simpa [State.issue, hs] using hi
    exact write_disciplined hs hw h hr hu
  | reading c r =>
    obtain rfl : r.issue s.regs = i := by simpa [State.issue, hs] using hi
    exact read_disciplined hs hw h hr hu
  | measDly =>
    obtain rfl : Instr.delay .measPoll = i := by simpa [State.issue, hs] using hi
    exact ⟨traceOk_delay hu h, (Quiet.doneMeasDelay (W := False) u).ready nofun⟩

/-! The word at the port. -/

/-- An idle engine that takes a command is idle after it, or at the first step of a handshake (R103, R125). -/
theorem exec_command_ready {s t : State} {i : Instr} (hi : i.isCommand = true) (hs : s.seq = .idle)
    (h : exec i s = .next t) : t.Ready := by
  cases i with
  | reserved6 | reserved7 =>
    simp only [exec, execReserved6, execReserved7, present_idle hs] at h
    cases h; rfl
  | seldev =>
    simp only [exec, execSeldev, present_idle hs] at h
    split at h <;> cases h <;> rfl
  | rdflt =>
    simp only [exec, execRdflt, present_idle hs] at h
    split at h <;> cases h <;> rfl
  | wrvr | rdvr | rdall | meas =>
    simp only [exec, execWrvr, execRdvr, execRdall, execMeas, present_idle hs] at h
    cases h; rfl
  | _ => cases hi

theorem runWord_ready {s t : State} {w : CmdWord} {rest : List CmdWord} (hs : s.seq = .idle)
    (h : s.runWord w rest = .next t) : t.Ready := by
  unfold State.runWord at h
  split at h
  next i hd => exact exec_command_ready (s := s.takeWord w rest) (decodeCmd_isCommand hd) hs h
  · cases h; rfl

/-- Settles O42: a call goes where its own answer allows, and an acceptance, a completion and a reset log an event that is
no call. -/
theorem stepKeepsDiscipline : Obligations.StepKeepsDiscipline := by
  intro s t ⟨hw, hlegal, hpolled, hready⟩ h
  have hok : s.TraceOk := ⟨hlegal, hpolled⟩
  have build {u : State} (hp : u.par = s.par) (hu : TraceDisciplined s.par u.env.trace) (hr : u.Ready) : Disciplined u :=
    ⟨hp ▸ hw, hp ▸ hu.legal, hp ▸ hu.polled, hr⟩
  cases step_kind h with
  | nothing => exact ⟨hw, hlegal, hpolled, hready⟩
  | reset | complete => exact build rfl (hok.cons rfl nofun nofun) rfl
  | @call i u hr hi hu =>
    obtain ⟨⟨hpar, hseq, -⟩, -⟩ := issued_call hi hu
    obtain ⟨huok, hgo⟩ := call_disciplined hi hw hok hready hu
    refine build (call_goesOn hi hu).par ?_ hgo
    rw [(advance_env_busy (hseq ▸ issue_busy hi)).1, ← hpar]
    exact huok
  | @word w rest _ hr hs hc hword =>
    have taken : TraceDisciplined s.par (.accept w :: s.env.trace) := hok.cons rfl nofun nofun
    have hgo := runWord_ready hs hword
    obtain hword' | ⟨u, hword', hu⟩ := runWord_cases w rest hs <;> cases hword'.symm.trans hword
    · exact build rfl (taken.cons rfl nofun nofun) hgo
    · exact build hu.par (by rw [hu.env]; exact taken) hgo

end Sys2Proof.Machine
end

section
/-! SUPPORT and proof of the statement about the assembly of a float from its four bytes (R119, R185). -/

namespace Sys2Proof.Machine

/-- Four bytes side by side are the bytes shifted to their places and or-ed (R119). -/
theorem bytes_append_eq_shiftLeft_or (b0 b1 b2 b3 : Byte) :
    (b0 ++ b1 ++ b2 ++ b3 : Word) =
      (b0.setWidth 32 <<< 24) ||| (b1.setWidth 32 <<< 16) ||| (b2.setWidth 32 <<< 8) ||| b3.setWidth 32 :=
  (BitVec.setWidth_eq _).symm.trans BitVec.setWidth_append_append_append_eq_shiftLeft_setWidth_or

/-- Whatever ACC held, the first byte takes its place and the others are or-ed in (R185). -/
theorem mergeByte_four (o : ByteOrder) (acc : Word) (b0 b1 b2 b3 : Byte) :
    mergeByte o 3 (mergeByte o 2 (mergeByte o 1 (mergeByte o 0 acc b0) b1) b2) b3 =
      placeByte o 0 b0 ||| placeByte o 1 b1 ||| placeByte o 2 b2 ||| placeByte o 3 b3 := by
  simp [mergeByte]

/-- The four places big-endian: the first byte is the highest (R119). -/
theorem placeByte_be_four (b0 b1 b2 b3 : Byte) :
    placeByte .be 0 b0 ||| placeByte .be 1 b1 ||| placeByte .be 2 b2 ||| placeByte .be 3 b3 =
      (b0.setWidth 32 <<< 24) ||| (b1.setWidth 32 <<< 16) ||| (b2.setWidth 32 <<< 8) ||| b3.setWidth 32 := by
  simp [placeByte]

/-- The four places little-endian: the first byte is the lowest (R119). -/
theorem placeByte_le_four (b0 b1 b2 b3 : Byte) :
    placeByte .le 0 b0 ||| placeByte .le 1 b1 ||| placeByte .le 2 b2 ||| placeByte .le 3 b3 =
      (b3.setWidth 32 <<< 24) ||| (b2.setWidth 32 <<< 16) ||| (b1.setWidth 32 <<< 8) ||| b0.setWidth 32 := by
  simp [placeByte, BitVec.or_assoc, BitVec.or_comm]

/-- Settles O9: the merges or the bytes in at their places, and so does putting them side by side. -/
theorem floatAssembles : Obligations.FloatAssembles := by
  intro acc b0 b1 b2 b3
  simp only [mergeByte_four, placeByte_be_four, placeByte_le_four, assembleWord, bytes_append_eq_shiftLeft_or, and_self]

end Sys2Proof.Machine
end

section
/-! SUPPORT and proofs of the statements about single calls on the reference device (R88): a byte handed to WRITE, a
pointer frame, a receive. -/

namespace Sys2Proof.Machine

/-! A transport call on the reference device: it fails unseen, or the device answers it, or R88 gives it no meaning. -/

section
variable {s : State} {rd : RefDevice} {bytes : List Byte}

/-- A `transmit` that fails does not reach the device (RD+F). -/
theorem xferTx_fails (hb : s.env.bus = .reference rd) (hf : s.env.nextFails rd = true) :
    ∃ t, (s.xferTx bytes).finish = .next t ∧ t.ret = .busError ∧ t.env.sensor = s.env.sensor ∧
      Grew s t [.transmit Config.devAddr7 bytes s.par.xferTimeout .busError] := by
  simp only [State.xferTx, Env.transmit, hb, hf, if_true]
  exact ⟨_, rfl, rfl, rfl, rfl⟩

/-- A `transmit` that the device takes. -/
theorem xferTx_taken {x : Sensor} (hb : s.env.bus = .reference rd) (hf : s.env.nextFails rd = false)
    (hx : s.env.sensor.transmit s.par rd bytes = .ok x) :
    ∃ t, (s.xferTx bytes).finish = .next t ∧ t.ret = .ok ∧ t.env.sensor = x ∧
      Grew s t [.transmit Config.devAddr7 bytes s.par.xferTimeout .ok] := by
  simp only [State.xferTx, Env.transmit, hb, hf, hx, Bool.false_eq_true, if_false]
  exact ⟨_, rfl, rfl, rfl, rfl⟩

/-- A `transmit` to which R88 gives no meaning. -/
theorem xferTx_refused {f : Fault} (hb : s.env.bus = .reference rd) (hf : s.env.nextFails rd = false)
    (hx : s.env.sensor.transmit s.par rd bytes = .error f) : (s.xferTx bytes).finish = .fault f := by
  simp only [State.xferTx, Env.transmit, hb, hf, hx, Bool.false_eq_true, if_false]
  rfl

/-- A `receive` that fails does not reach the device (RD+F). -/
theorem xferRx_fails {n : Nat} (hb : s.env.bus = .reference rd) (hf : s.env.nextFails rd = true) :
    ∃ t, (s.xferRx n).finish = .next t ∧ t.ret = .busError ∧ t.env.sensor = s.env.sensor := by
  simp only [State.xferRx, Env.receive, hb, hf, if_true]
  exact ⟨_, rfl, rfl, rfl⟩

/-- A `receive` that the device answers. -/
theorem xferRx_answered {n : Nat} {b : Byte} {x : Sensor} (hb : s.env.bus = .reference rd)
    (hf : s.env.nextFails rd = false) (hx : s.env.sensor.receive s.par n = .ok (b, x)) :
    ∃ t, (s.xferRx n).finish = .next t ∧ t.ret = .byte b ∧ t.env.sensor = x := by
  simp only [State.xferRx, Env.receive, hb, hf, hx, Bool.false_eq_true, if_false]
  exact ⟨_, rfl, rfl, rfl⟩

/-- A `receive` to which R88 gives no meaning. -/
theorem xferRx_refused {n : Nat} {f : Fault} (hb : s.env.bus = .reference rd)
    (hf : s.env.nextFails rd = false) (hx : s.env.sensor.receive s.par n = .error f) : (s.xferRx n).finish = .fault f := by
  simp only [State.xferRx, Env.receive, hb, hf, hx, Bool.false_eq_true, if_false]
  rfl

end

/-! What the device does with a byte written to WRITE. -/

section
variable {p : Params} {rd : RefDevice} {b : Byte} {x : Sensor}

/-- The sensor once the byte `b` stands in WRITE, before the firmware looks at it (R88). -/
def Sensor.withWrite (p : Params) (rd : RefDevice) (b : Byte) (x : Sensor) : Sensor :=
  { x with ptr := p.writeReg, tc := rd.lt, write := b }

theorem Sensor.transmit_write (h : x.tc = 0) :
    x.transmit p rd [p.writeReg, b] = (x.withWrite p rd b).takeByte p rd b := by
  simp [Sensor.transmit, Sensor.withWrite, h]

theorem Sensor.transmit_write_pending (h : x.tc ≠ 0) : x.transmit p rd [p.writeReg, b] = .error .rdWriteWhilePending := by
  simp [Sensor.transmit, h]

/-- The data byte of a write to a register that is not the selector (R84). -/
theorem Sensor.takeByte_store {a : VAddr} (h : x.pend = .writeTo a) (ha : a ≠ Config.devselVaddr) :
    x.takeByte p rd b = .ok { x with
      vreg := Memory.write x.vreg (vregAddr x.sel a) b, bc := rd.startCount p a b x.bc, pend := .none } := by
  simp [Sensor.takeByte, Sensor.takeData, h, ha]

/-- The data byte of a write to the selector (R85). -/
theorem Sensor.takeByte_select {d : Die} (h : x.pend = .writeTo Config.devselVaddr) (hd : Die.ofByte b = some d) :
    x.takeByte p rd b = .ok { x with sel := d, pend := .none } := by
  simp [Sensor.takeByte, Sensor.takeData, h, hd]

theorem Sensor.takeByte_selectNone (h : x.pend = .writeTo Config.devselVaddr) (hd : Die.ofByte b = none) :
    x.takeByte p rd b = .error .rdSelectorOutOfRange := by
  simp [Sensor.takeByte, Sensor.takeData, h, hd]

/-- Bit 7 of a command byte tells a write from a read (R110). -/
theorem and_vwriteFlag_ne_zero (b : Byte) : b &&& Config.vwriteFlag ≠ 0 ↔ b.getLsbD 7 = true := by
  revert b
  decide

/-- A write command byte is remembered until its data byte comes (R84). -/
theorem Sensor.takeByte_writeCommand (h : x.pend = .none) (hb : b.getLsbD 7 = true) :
    x.takeByte p rd b = .ok { x with pend := .writeTo (b.extractLsb' 0 7) } := by
  simp only [Sensor.takeByte, h, and_vwriteFlag_ne_zero, hb, if_true]

/-- A read command byte is carried out at once (R83). -/
theorem Sensor.takeByte_readCommand (h : x.pend = .none) (hb : b.getLsbD 7 = false) :
    x.takeByte p rd b = .ok (x.takeRead p rd (b.extractLsb' 0 7)) := by
  simp only [Sensor.takeByte, h, and_vwriteFlag_ne_zero, hb, Bool.false_eq_true, if_false]

/-! The busy bit of RD+B. -/

/-- A start with the busy bit set sets the count. -/
theorem RefDevice.startCount_start {nb bc : Nat} (h : rd.busy = .times nb) (hb : b &&& p.measBusyMask ≠ 0) :
    rd.startCount p p.controlSetupVaddr b bc = nb := by
  have hm : measBusy p b = true := decide_eq_true hb
  simp [RefDevice.startCount, h, hm]

/-- A virtual-register read touches the register file and the busy counter only. -/
theorem Sensor.settleBusy_frame (x : Sensor) (a : VAddr) :
    (x.settleBusy p rd a).pend = x.pend ∧ (x.settleBusy p rd a).sel = x.sel := by
  unfold Sensor.settleBusy
  split
  · split
    · split <;> exact ⟨rfl, rfl⟩
    · exact ⟨rfl, rfl⟩
  · exact ⟨rfl, rfl⟩
  · exact ⟨rfl, rfl⟩

/-- Every register but CONTROL_SETUP under RD+B(nb) is simply read. -/
theorem Sensor.settleBusy_plain {a : VAddr} (h : ∀ nb, rd.busy = .times nb → a ≠ p.controlSetupVaddr) :
    x.settleBusy p rd a = x := by
  unfold Sensor.settleBusy
  split
  next nb hnb => exact if_neg fun hbusy => h nb hnb hbusy.1
  · rfl
  · rfl

/-- What a read of CONTROL_SETUP under RD+B(nb) does to it: nothing while its busy bit is clear, one read fewer to come
while the bit still stands, the bit cleared after the last (file 95). -/
theorem Sensor.settleBusy_controlSetup {nb : Nat} {v : Byte} (h : rd.busy = .times nb)
    (hv : Memory.read x.vreg (vregAddr x.sel p.controlSetupVaddr) = v) :
    (v &&& p.measBusyMask = 0 → (x.settleBusy p rd p.controlSetupVaddr).vreg = x.vreg) ∧
      (v &&& p.measBusyMask ≠ 0 → x.bc ≠ 0 → (x.settleBusy p rd p.controlSetupVaddr).vreg = x.vreg ∧
        (x.settleBusy p rd p.controlSetupVaddr).bc = x.bc - 1) ∧
      (v &&& p.measBusyMask ≠ 0 → x.bc = 0 → Memory.wf x.vreg = true →
        Memory.read (x.settleBusy p rd p.controlSetupVaddr).vreg (vregAddr x.sel p.controlSetupVaddr) =
          v &&& ~~~p.measBusyMask) := by
  refine ⟨fun hm => ?_, fun hm hc => ?_, fun hm hc hwf => ?_⟩
  · have notBusy : measBusy p v = false := decide_eq_false (not_not_intro hm)
    simp [Sensor.settleBusy, h, hv, notBusy]
  · have isBusy : measBusy p v = true := decide_eq_true hm
    simp [Sensor.settleBusy, h, hv, isBusy, Nat.pos_of_ne_zero hc]
  · have isBusy : measBusy p v = true := decide_eq_true hm
    simp [Sensor.settleBusy, h, hv, isBusy, hc, Memory.read_write_same hwf]

/-- What a read command leaves: the register's value in READ, not ready for `lr` STATUS reads, no die selected anew. -/
theorem Sensor.takeRead_result (a : VAddr) :
    (x.takeRead p rd a).pend = x.pend ∧ (x.takeRead p rd a).sel = x.sel ∧ (x.takeRead p rd a).rdv = true ∧
      (x.takeRead p rd a).rc = rd.lr ∧
      (x.takeRead p rd a).read = Memory.read (x.takeRead p rd a).vreg (vregAddr x.sel a) := by
  obtain ⟨hpend, hsel⟩ := x.settleBusy_frame (p := p) (rd := rd) a
  exact ⟨hpend, hsel, rfl, rfl, by rw [← hsel]; rfl⟩

end

/-! A byte handed to WRITE. -/

/-- The five instructions that hand the byte `b` to WRITE (R113, R141; log entry 19). -/
theorem exec_handsOver {i : Instr} {b : Byte}
    (hi : i = .wrWrite b ∨ i = .wrwrite b ∨ i = .vdata b ∨ (∃ a, i = .vwra a ∧ b = vwraByte a) ∨
      ∃ a, i = .vrda a ∧ b = vrdaByte a) (s : State) : exec i s = (s.xferTx [s.par.writeReg, b]).finish := by
  obtain rfl | rfl | rfl | ⟨a, rfl, rfl⟩ | ⟨a, rfl, rfl⟩ := hi <;> rfl

/-- Settles O52: a case for each thing the device can do with the byte. -/
theorem referenceTakesByte : Obligations.ReferenceTakesByte := by
  intro s rd i b hb hi x tx
  rw [exec_handsOver hi s]
  have taken {y : Sensor} (hf : s.env.nextFails rd = false) (hc : x.tc = 0)
      (hy : (x.withWrite s.par rd b).takeByte s.par rd b = .ok y) :
      ∃ t, (s.xferTx [s.par.writeReg, b]).finish = .next t ∧ t.ret = .ok ∧ t.env.sensor = y ∧ Grew s t [tx .ok] :=
    xferTx_taken hb hf ((Sensor.transmit_write hc).trans hy)
  refine ⟨xferTx_fails hb, fun hf hc => xferTx_refused hb hf (Sensor.transmit_write_pending hc), ?_, ?_, ?_, ?_⟩
  · intro hf hc a hp ha
    obtain ⟨t, ht, hret, hsen, hg⟩ := taken hf hc (Sensor.takeByte_store hp ha)
    refine ⟨t, ht, hret, ?_⟩
    rw [hsen]
    refine ⟨rfl, rfl, rfl, hg, fun hwf => Memory.read_write_same hwf, fun k hk => Memory.read_write_other hk, ?_⟩
    rintro nb hnb rfl hm
    exact RefDevice.startCount_start hnb hm
  · intro hf hc hp
    refine ⟨fun d hd => ?_, fun hd =>
      xferTx_refused hb hf ((Sensor.transmit_write hc).trans (Sensor.takeByte_selectNone hp hd))⟩
    obtain ⟨t, ht, hret, hsen, hg⟩ := taken hf hc (Sensor.takeByte_select hp hd)
    exact ⟨t, ht, hret, by rw [hsen], by rw [hsen], fun k => by rw [hsen]; rfl, hg⟩
  · intro hf hc hp h7
    obtain ⟨t, ht, hret, hsen, hg⟩ := taken hf hc (Sensor.takeByte_writeCommand hp h7)
    exact ⟨t, ht, hret, by rw [hsen], by rw [hsen]; rfl, fun k => by rw [hsen]; rfl, hg⟩
  · intro hf hc hp h7
    obtain ⟨t, ht, hret, hsen, hg⟩ := taken hf hc (Sensor.takeByte_readCommand hp h7)
    obtain ⟨hpend, hsel, hrdv, hrc, hread⟩ :=
      (x.withWrite s.par rd b).takeRead_result (p := s.par) (rd := rd) (b.extractLsb' 0 7)
    rw [← hsen] at hpend hsel hrdv hrc hread
    have hvreg : t.env.sensor.vreg = ((x.withWrite s.par rd b).settleBusy s.par rd (b.extractLsb' 0 7)).vreg := by
      rw [hsen]; rfl
    have hbc : t.env.sensor.bc = ((x.withWrite s.par rd b).settleBusy s.par rd (b.extractLsb' 0 7)).bc := by
      rw [hsen]; rfl
    have same (h : t.env.sensor.vreg = x.vreg) : SameVReg s t := fun k => congrArg (Memory.read · k) h
    refine ⟨t, ht, hret, hpend.trans hp, hsel, hrdv, hrc, hg, hread, fun k hk => ?_, fun hplain => same ?_, ?_⟩
    · rw [hvreg]
      exact Sensor.settleBusy_other hk
    · rw [hvreg, Sensor.settleBusy_plain hplain]
      rfl
    · intro nb hnb ha
      rw [ha] at hvreg hbc
      obtain ⟨clear, counts, ends⟩ := Sensor.settleBusy_controlSetup (p := s.par) (x := x.withWrite s.par rd b) hnb rfl
      rw [← hvreg] at clear counts ends
      rw [← hbc] at counts
      exact ⟨fun hm => same (clear hm), fun hm hn => (counts hm hn).imp_left same, ends⟩

/-! Pointer frames and receives. -/

/-- A STATUS byte of the device: bits 7:2 zero, bit 1 while a byte is pending, bit 0 while a result is ready (R40, R88). -/
theorem Sensor.rdStatusByte_bits (x : Sensor) : x.rdStatusByte &&& 0xFC = 0 ∧
    txValid x.rdStatusByte = decide (x.tc ≠ 0) ∧ rxValid x.rdStatusByte = x.ready := by
  have bits : ∀ tx rx : Bool, let b : Byte := (0 : BitVec 6) ++ BitVec.ofBool tx ++ BitVec.ofBool rx
      b &&& 0xFC = 0 ∧ txValid b = tx ∧ rxValid b = rx := by decide
  exact bits _ _

/-- A read of STATUS uses up a pending read or a not-ready read, and changes nothing else. -/
theorem Sensor.tick_frame (x : Sensor) : x.tick = { x with tc := x.tick.tc, rc := x.tick.rc } := by
  unfold Sensor.tick
  split
  · rfl
  · split <;> rfl

theorem Sensor.receive_status {p : Params} {x : Sensor} (h : x.ptr = p.statusReg) :
    x.receive p 1 = .ok (x.rdStatusByte, x.tick) := by
  simp [Sensor.receive, h]

theorem Sensor.receive_read {p : Params} {x : Sensor} (hw : p.wf = true) (h : x.ptr = p.readReg) :
    x.receive p 1 = if x.ready then .ok (x.read, { x with rdv := false }) else .error .rdReadNotReady := by
  simp [Sensor.receive, h, (Params.statusReg_ne_readReg hw).symm]

/-- Settles O53: a pointer frame is taken as it is, and a receive is answered by the register pointed at. -/
theorem referenceAnswersReads : Obligations.ReferenceAnswersReads := by
  intro s rd hb hw x
  have pointer (r : Byte) :
      (s.env.nextFails rd = false → ∃ t, (s.xferTx [r]).finish = .next t ∧ t.ret = .ok ∧
        t.env.sensor = { x with ptr := r }) ∧
      (s.env.nextFails rd = true → ∃ t, (s.xferTx [r]).finish = .next t ∧ t.ret = .busError ∧ t.env.sensor = x) := by
    constructor
    · intro hf
      obtain ⟨t, ht, hret, hsen, -⟩ := xferTx_taken (bytes := [r]) hb hf rfl
      exact ⟨t, ht, hret, hsen⟩
    · intro hf
      obtain ⟨t, ht, hret, hsen, -⟩ := xferTx_fails (bytes := [r]) hb hf
      exact ⟨t, ht, hret, hsen⟩
  refine ⟨?_, fun hf => xferRx_fails hb hf, fun hf hptr => ?_, fun hf hptr => ⟨fun hready => ?_, fun hready => ?_⟩⟩
  · intro y hy
    obtain rfl | rfl : y = (.ptrStatus, s.par.statusReg) ∨ y = (.ptrRead, s.par.readReg) := by simpa using hy
    · exact pointer _
    · exact pointer _
  · obtain ⟨t, ht, hret, hsen⟩ := xferRx_answered hb hf (Sensor.receive_status hptr)
    obtain ⟨hhigh, htx, hrx⟩ := x.rdStatusByte_bits
    exact ⟨t, ht, hret, hhigh, htx, hrx, by rw [hsen]; exact x.tick_frame⟩
  · exact xferRx_answered hb hf ((Sensor.receive_read hw hptr).trans (if_pos hready))
  · exact xferRx_refused hb hf ((Sensor.receive_read hw hptr).trans (if_neg (by simp [hready])))

end Sys2Proof.Machine
end

section
/-! SUPPORT and proofs of the statements of spec/30_encoding.md about codes: the fields of a command word, what each row
of the opcode table decodes from, and that decoding and encoding agree. -/

namespace Sys2Proof

/-! The fields of a command word as numbers (R101). -/

theorem toNat_cmdWord (op : BitVec 3) (a : VAddr) (d : Byte) :
    (cmdWord op a d).toNat = op.toNat * 2 ^ 15 + a.toNat * 2 ^ 8 + d.toNat := by
  rw [cmdWord, BitVec.toNat_append, BitVec.toNat_append, ← Nat.shiftLeft_add_eq_or_of_lt d.isLt,
    ← Nat.shiftLeft_add_eq_or_of_lt a.isLt, Nat.shiftLeft_eq, Nat.shiftLeft_eq]
  omega

theorem toNat_cmdOp (w : CmdWord) : (cmdOp w).toNat = w.toNat / 2 ^ 15 := by
  have := w.isLt
  simp only [cmdOp, BitVec.extractLsb'_toNat, Nat.shiftRight_eq_div_pow]
  omega

theorem toNat_cmdAddr (w : CmdWord) : (cmdAddr w).toNat = w.toNat / 2 ^ 8 % 2 ^ 7 := by
  simp only [cmdAddr, BitVec.extractLsb'_toNat, Nat.shiftRight_eq_div_pow]

theorem toNat_cmdData (w : CmdWord) : (cmdData w).toNat = w.toNat % 2 ^ 8 := by
  simp only [cmdData, BitVec.extractLsb'_toNat, Nat.shiftRight_zero]

/-! Assembling a word from its fields and taking it apart (R101). -/

section
variable (op : BitVec 3) (a : VAddr) (d : Byte) (r : BitVec 15)

@[simp] theorem cmdOp_cmdWord : cmdOp (cmdWord op a d) = op := by
  apply BitVec.eq_of_toNat_eq
  rw [toNat_cmdOp, toNat_cmdWord]
  omega

@[simp] theorem cmdAddr_cmdWord : cmdAddr (cmdWord op a d) = a := by
  apply BitVec.eq_of_toNat_eq
  rw [toNat_cmdAddr, toNat_cmdWord]
  omega

@[simp] theorem cmdData_cmdWord : cmdData (cmdWord op a d) = d := by
  apply BitVec.eq_of_toNat_eq
  rw [toNat_cmdData, toNat_cmdWord]
  omega

@[simp] theorem cmdOp_append : cmdOp (op ++ r) = op := BitVec.extractLsb'_append_eq_left

@[simp] theorem cmdRest_append : cmdRest (op ++ r) = r := BitVec.extractLsb'_append_eq_right

end

theorem cmdWord_fields (w : CmdWord) : cmdWord (cmdOp w) (cmdAddr w) (cmdData w) = w := by
  apply BitVec.eq_of_toNat_eq
  rw [toNat_cmdWord, toNat_cmdOp, toNat_cmdAddr, toNat_cmdData]
  omega

/-- A word is the one word of its three fields. -/
theorem cmdWord_eq_iff {op : BitVec 3} {a : VAddr} {d : Byte} {w : CmdWord} :
    cmdWord op a d = w ↔ cmdOp w = op ∧ cmdAddr w = a ∧ cmdData w = d := by
  constructor
  · rintro rfl
    simp
  · rintro ⟨rfl, rfl, rfl⟩
    exact cmdWord_fields w

/-- A word is the one word of its opcode and its other 15 bits. -/
theorem append_eq_iff_fields {op : BitVec 3} {r : BitVec 15} {w : CmdWord} :
    (op ++ r : BitVec 18) = w ↔ cmdOp w = op ∧ cmdRest w = r := by
  constructor
  · rintro rfl
    simp
  · rintro ⟨rfl, rfl⟩
    exact BitVec.extractLsb'_append_extractLsb'_eq_extractLsb' rfl |>.trans BitVec.extractLsb'_eq_self

@[simp] theorem cmdOp_and (w m : CmdWord) : cmdOp (w &&& m) = cmdOp w &&& cmdOp m := BitVec.extractLsb'_and

@[simp] theorem cmdAddr_and (w m : CmdWord) : cmdAddr (w &&& m) = cmdAddr w &&& cmdAddr m := BitVec.extractLsb'_and

@[simp] theorem cmdData_and (w m : CmdWord) : cmdData (w &&& m) = cmdData w &&& cmdData m := BitVec.extractLsb'_and

/-- A word under a mask, field by field (R122). -/
theorem and_cmdWord_eq_iff {w : CmdWord} {mo o : BitVec 3} {ma a : VAddr} {md d : Byte} :
    w &&& cmdWord mo ma md = cmdWord o a d ↔ cmdOp w &&& mo = o ∧ cmdAddr w &&& ma = a ∧ cmdData w &&& md = d := by
  rw [eq_comm, cmdWord_eq_iff]
  simp

/-- The data byte of SELDEV: its low two bits are the id, its high six are 0 (R122). -/
theorem setWidth_eq_iff_extract : ∀ (id : BitVec 2) (b : Byte),
    id.setWidth 8 = b ↔ b.extractLsb' 2 6 = 0 ∧ b.extractLsb' 0 2 = id := by
  decide

/-! A command word and the instruction it spells. -/

/-- The code of a well-formed command decodes to it (R122). -/
theorem decodeCmd_of_encode {p : Params} {w : CmdWord} {i : Instr} (hw : i.wf = true)
    (h : encode p i = some (.command w)) : decodeCmd w = .ok i := by
  cases i with
  | wrvr | rdvr | rdall | meas | reserved6 | reserved7 =>
    cases h
    simp [decodeCmd]
  | seldev id =>
    cases h
    have hid : id ≠ 3#2 := of_decide_eq_true hw
    obtain ⟨high, low⟩ := (setWidth_eq_iff_extract id _).mp rfl
    simp [decodeCmd, high, low, hid]
  | rdflt base =>
    cases h
    have hbase : base.toNat ≤ 0x7C := of_decide_eq_true hw
    simp [decodeCmd, hbase]
  | _ => cases h

/-- What a word decodes to is well formed and has that word as its code (R122, R124, R126). -/
theorem encode_of_decodeCmd {p : Params} {w : CmdWord} {i : Instr} (h : decodeCmd w = .ok i) :
    i.wf = true ∧ encode p i = some (.command w) := by
  have code {op : BitVec 3} {a : VAddr} {d : Byte} (hop : (cmdOp w).toNat = op.toNat) (ha : cmdAddr w = a)
      (hd : cmdData w = d) : some (Code.command (cmdWord op a d)) = some (.command w) :=
    congrArg (some ∘ Code.command) (cmdWord_eq_iff.mpr ⟨BitVec.eq_of_toNat_eq hop, ha, hd⟩)
  have reserved {op : BitVec 3} (hop : (cmdOp w).toNat = op.toNat) :
      some (Code.command (op ++ cmdRest w : BitVec 18)) = some (.command w) :=
    congrArg (some ∘ Code.command) (append_eq_iff_fields.mpr ⟨BitVec.eq_of_toNat_eq hop, rfl⟩)
  unfold decodeCmd at h
  split at h
  case h_1 hop =>
    cases h
    exact ⟨rfl, code hop rfl rfl⟩
  case h_2 hop =>
    split at h <;> cases h
    next hdata => exact ⟨rfl, code hop rfl hdata⟩
  case h_3 hop =>
    split at h <;> try cases h
    next haddr =>
      split at h <;> try cases h
      next hhigh =>
        split at h <;> cases h
        next hid =>
          exact ⟨decide_eq_true hid, code hop (not_not.mp haddr)
            ((setWidth_eq_iff_extract _ _).mpr ⟨not_not.mp hhigh, rfl⟩).symm⟩
  case h_4 hop =>
    split at h <;> try cases h
    next hdata =>
      split at h <;> cases h
      next hbase => exact ⟨decide_eq_true hbase, code hop rfl (not_not.mp hdata)⟩
  case h_5 hop | h_6 hop =>
    split at h <;> try cases h
    next haddr =>
      split at h <;> cases h
      next hdata => exact ⟨rfl, code hop (not_not.mp haddr) (not_not.mp hdata)⟩
  case h_7 hop =>
    cases h
    exact ⟨rfl, reserved hop⟩
  case h_8 h0 h1 h2 h3 h4 h5 h6 =>
    simp only [imp_false] at h0 h1 h2 h3 h4 h5 h6
    have hop : (cmdOp w).toNat = 7 := by omega
    cases h
    exact ⟨rfl, reserved hop⟩

/-- The command words: decoding and encoding agree. -/
theorem decodeCmd_ok_iff (p : Params) {w : CmdWord} {i : Instr} :
    decodeCmd w = .ok i ↔ i.wf = true ∧ encode p i = some (.command w) :=
  ⟨encode_of_decodeCmd, fun ⟨hw, h⟩ => decodeCmd_of_encode hw h⟩

/-! A wire byte, a frame or a receive and the instruction it spells. -/

/-- A write command byte has bit 7 set and the address below it (R115). -/
theorem extract_vwraByte : ∀ a : VAddr, (vwraByte a).getLsbD 7 = true ∧ (vwraByte a).extractLsb' 0 7 = a := by
  decide

/-- A read command byte has bit 7 clear and the address below it (R116). -/
theorem extract_vrdaByte : ∀ a : VAddr, (vrdaByte a).getLsbD 7 = false ∧ (vrdaByte a).extractLsb' 0 7 = a := by
  decide

/-- A byte with bit 7 set is the write command byte of its low seven bits (R110, R115). -/
theorem vwraByte_extract : ∀ b : Byte, b.getLsbD 7 = true → vwraByte (b.extractLsb' 0 7) = b := by
  decide

/-- A byte with bit 7 clear is the read command byte of its low seven bits (R110, R116). -/
theorem vrdaByte_extract : ∀ b : Byte, ¬b.getLsbD 7 = true → vrdaByte (b.extractLsb' 0 7) = b := by
  decide

/-- The wire bytes: by the position, decoding and encoding agree (R110 to R112). -/
theorem decodeWire_eq_iff (p : Params) {pos : WirePos} {b : Byte} {i : Instr} :
    decodeWire pos b = i ↔ encode p i = some (.wire pos b) := by
  constructor
  · rintro rfl
    cases pos with
    | data | status => rfl
    | command =>
      simp only [decodeWire, Machine.and_vwriteFlag_ne_zero]
      split
      next hbit => exact congrArg (some ∘ Code.wire .command) (vwraByte_extract b hbit)
      next hbit => exact congrArg (some ∘ Code.wire .command) (vrdaByte_extract b hbit)
  · intro h
    cases i with
    | vdata | status => cases h; rfl
    | vwra a =>
      cases h
      obtain ⟨hbit, haddr⟩ := extract_vwraByte a
      simp only [decodeWire, Machine.and_vwriteFlag_ne_zero, hbit, haddr, if_true]
    | vrda a =>
      cases h
      obtain ⟨hbit, haddr⟩ := extract_vrdaByte a
      simp only [decodeWire, Machine.and_vwriteFlag_ne_zero, hbit, haddr, Bool.false_eq_true, if_false]
    | _ => cases h

/-- Every byte on the wire is legal (R128). -/
theorem decodeWire_wf (pos : WirePos) (b : Byte) : (decodeWire pos b).wf = true := by
  cases pos with
  | data | status => rfl
  | command => simp only [decodeWire]; split <;> rfl

/-- A frame decodes to an instruction whose frame it is (R113). -/
theorem encode_of_decodeFrame {p : Params} {bytes : List Byte} {i : Instr} (h : decodeFrame p bytes = .ok i) :
    i.wf = true ∧ encode p i = some (.frame bytes) := by
  unfold decodeFrame at h
  split at h
  · split at h
    next hr => cases h; exact ⟨rfl, by rw [hr]; rfl⟩
    · split at h <;> cases h
      next hr => exact ⟨rfl, by rw [hr]; rfl⟩
  · split at h <;> cases h
    next hr => exact ⟨rfl, by rw [hr]; rfl⟩
  · cases h

/-- An instruction's frame decodes to it where the sub-addresses differ (R113, D8). -/
theorem decodeFrame_of_encode {p : Params} {bytes : List Byte} {i : Instr} (hp : p.wf = true)
    (h : encode p i = some (.frame bytes)) : decodeFrame p bytes = .ok i := by
  have hread : p.readReg ≠ p.statusReg := (Machine.Params.statusReg_ne_readReg hp).symm
  cases i with
  | ptrStatus | ptrRead | wrWrite =>
    cases h
    simp [decodeFrame, hread]
  | _ => cases h

/-- The receives: decoding and encoding agree (R114). -/
theorem decode_receive_iff {p : Params} {n : Nat} {i : Instr} :
    decode p (.receive n) = .ok i ↔ i.wf = true ∧ encode p i = some (.receive n) := by
  simp only [decode]
  constructor
  · intro h
    split at h <;> cases h
    next hn => exact ⟨rfl, by rw [hn]; rfl⟩
  · rintro ⟨-, h⟩
    cases i with
    | get1 => cases h; rfl
    | _ => cases h

/-- Settles O1: by the kind of code. -/
theorem encodeThenDecode : Obligations.EncodeThenDecode := by
  intro p i c hp hi h
  cases c with
  | command w => exact decodeCmd_of_encode hi h
  | wire pos b => exact congrArg Except.ok ((decodeWire_eq_iff p).mpr h)
  | frame bytes => exact decodeFrame_of_encode hp h
  | receive n => exact decode_receive_iff.mpr ⟨hi, h⟩

/-- Settles O2: by the kind of code. -/
theorem decodeThenEncode : Obligations.DecodeThenEncode := by
  intro p i c h
  cases c with
  | command w => exact encode_of_decodeCmd h
  | wire pos b =>
    cases h
    exact ⟨decodeWire_wf pos b, (decodeWire_eq_iff p).mp rfl⟩
  | frame bytes => exact encode_of_decodeFrame h
  | receive n => exact decode_receive_iff.mp h

/-! R122's match and mask values. -/

/-- A mask of the opcode alone. -/
theorem and_opcodeMask_eq_iff {w : CmdWord} {o : BitVec 3} : w &&& 0x38000 = cmdWord o 0#7 0#8 ↔ cmdOp w = o := by
  refine (and_cmdWord_eq_iff (mo := .allOnes 3) (ma := 0#7) (md := 0#8)).trans ?_
  simp only [BitVec.and_allOnes, BitVec.and_zero, and_true]

/-- A mask of the opcode and the data byte. -/
theorem and_opcodeDataMask_eq_iff {w : CmdWord} {o : BitVec 3} :
    w &&& 0x380FF = cmdWord o 0#7 0#8 ↔ cmdOp w = o ∧ cmdData w = 0#8 := by
  refine (and_cmdWord_eq_iff (mo := .allOnes 3) (ma := 0#7) (md := .allOnes 8)).trans ?_
  simp only [BitVec.and_allOnes, BitVec.and_zero, true_and]

/-- A mask of all bits but a device id's two. -/
theorem and_deviceMask_eq_iff {w : CmdWord} {o : BitVec 3} :
    w &&& 0x3FFFC = cmdWord o 0#7 0#8 ↔ cmdOp w = o ∧ cmdAddr w = 0#7 ∧ (cmdData w).extractLsb' 2 6 = 0#6 := by
  have high : ∀ d : Byte, d &&& 0xFC = 0#8 ↔ d.extractLsb' 2 6 = 0#6 := by decide
  refine (and_cmdWord_eq_iff (mo := .allOnes 3) (ma := .allOnes 7) (md := 0xFC)).trans ?_
  simp only [BitVec.and_allOnes, high]

/-- A mask of all 18 bits. -/
theorem and_fullMask_eq_iff {w : CmdWord} {o : BitVec 3} :
    w &&& 0x3FFFF = cmdWord o 0#7 0#8 ↔ cmdOp w = o ∧ cmdAddr w = 0#7 ∧ cmdData w = 0#8 := by
  refine (and_cmdWord_eq_iff (mo := .allOnes 3) (ma := .allOnes 7) (md := .allOnes 8)).trans ?_
  simp only [BitVec.and_allOnes]

/-- Under R124's zero bits the two spellings of R126's id 3 agree: the low two bits, or the whole data byte. -/
theorem deviceId_eq_three_iff : ∀ d : Byte, d.extractLsb' 2 6 = 0#6 → (d.extractLsb' 0 2 = 3#2 ↔ d = 3#8) := by
  decide

/-- The row of SELDEV by its fields. -/
theorem exists_decodeCmd_seldev_iff {w : CmdWord} : (∃ id, decodeCmd w = .ok (.seldev id)) ↔
    (cmdOp w = 2#3 ∧ cmdAddr w = 0#7 ∧ (cmdData w).extractLsb' 2 6 = 0#6) ∧ cmdData w ≠ 3#8 := by
  simp only [decodeCmd_ok_iff Params.default, Instr.wf, encode, Option.some.injEq, Code.command.injEq, cmdWord_eq_iff,
    decide_eq_true_eq, eq_comm (b := BitVec.setWidth 8 _), setWidth_eq_iff_extract]
  constructor
  · rintro ⟨id, hid, hop, haddr, hhigh, rfl⟩
    exact ⟨⟨hop, haddr, hhigh⟩, mt (deviceId_eq_three_iff _ hhigh).mpr hid⟩
  · rintro ⟨⟨hop, haddr, hhigh⟩, hdata⟩
    exact ⟨_, mt (deviceId_eq_three_iff _ hhigh).mp hdata, hop, haddr, hhigh, rfl⟩

/-- Settles O3: each row fixes the fields that its mask keeps. -/
theorem commandRowsMatchMask : Obligations.CommandRowsMatchMask := by
  intro w
  have row {i : Instr} := decodeCmd_ok_iff Params.default (w := w) (i := i)
  refine ⟨.trans ?wrvr (and_opcodeMask_eq_iff (o := 0)).symm, .trans ?rdvr (and_opcodeDataMask_eq_iff (o := 1)).symm,
    exists_decodeCmd_seldev_iff.trans (and_congr_left' (and_deviceMask_eq_iff (o := 2)).symm),
    .trans ?rdflt (and_congr_left' (and_opcodeDataMask_eq_iff (o := 3)).symm),
    .trans ?rdall (and_fullMask_eq_iff (o := 4)).symm, .trans ?meas (and_fullMask_eq_iff (o := 5)).symm,
    .trans ?reserved6 (and_opcodeMask_eq_iff (o := 6)).symm, .trans ?reserved7 (and_opcodeMask_eq_iff (o := 7)).symm⟩
  case rdflt => simp [row, Instr.wf, encode, cmdWord_eq_iff, and_comm]
  case wrvr | rdvr | rdall | meas => simp [row, Instr.wf, encode, cmdWord_eq_iff]
  case reserved6 | reserved7 => simp [row, Instr.wf, encode, append_eq_iff_fields]

/-- The two reserved opcodes (R124). -/
def Instr.isReserved : Instr → Bool
  | .reserved6 _ | .reserved7 _ => true
  | _ => false

end Sys2Proof
end

section
/-! SUPPORT and proofs of the statements of spec/30_encoding.md about execution: which words are refused, what an
acceptance leaves, that a busy engine lets words wait, and the single calls of the wire rows. -/

namespace Sys2Proof.Machine

/-! Acceptance and refusal. -/

/-- The refusal leaves an idle engine's SEQ as it is (R125). -/
theorem refuse_idle {s : State} (hs : s.seq = .idle) : s.refuse = { s with
    rsp := RspData.nothing.rsp codeRefused s.env.fresh
    env := ({ s.env with fresh := s.env.fresh + 1 }).log (.done codeRefused) } := by
  rw [State.refuse, State.respond, ← hs]

/-- Settles O13: an idle engine starts the command presented to it. -/
theorem commandsAccepted : Obligations.CommandsAccepted := by
  intro s hs
  refine ⟨fun a d => ?_, fun a => ?_, fun id hid => ?_, fun b hb => ?_, ?_, ?_, fun i hi => ?_⟩
  · simp only [exec, execWrvr, present_idle hs]; rfl
  · simp only [exec, execRdvr, present_idle hs]; rfl
  · simp only [exec, execSeldev, present_idle hs, if_neg hid]; rfl
  · have first : floatByteAddr b 0 = b := BitVec.add_zero b
    simp only [exec, execRdflt, present_idle hs, if_pos hb, first]; rfl
  · simp only [exec, execRdall, present_idle hs]; rfl
  · simp only [exec, execMeas, present_idle hs]; rfl
  · have refused : exec i s = .next s.refuse := by
      obtain rfl | ⟨b, rfl, hb⟩ | ⟨r, rfl⟩ | ⟨r, rfl⟩ := hi
      · simp only [exec, execSeldev, present_idle hs, if_true]
      · simp only [exec, execRdflt, present_idle hs, if_neg (Nat.not_le.mpr hb)]
      · simp only [exec, execReserved6, present_idle hs]
      · simp only [exec, execReserved7, present_idle hs]
    rw [refused, refuse_idle hs]
    rfl

/-- A word that spells no instruction is one R124 or R126 names. -/
theorem refusedWord_of_error {w : CmdWord} {e : DecodeError} (h : decodeCmd w = .error e) : refusedWord w := by
  have data (hop : cmdOp w = 1 ∨ cmdOp w = 3) (hd : cmdData w ≠ 0) : refusedWord w := .inr (.inr (.inl ⟨hop, hd⟩))
  have select (hop : cmdOp w = 2) (hz : cmdAddr w ≠ 0 ∨ (cmdData w).extractLsb' 2 6 ≠ 0) : refusedWord w :=
    .inr (.inr (.inr (.inl ⟨hop, hz⟩)))
  have operands (hop : cmdOp w = 4 ∨ cmdOp w = 5) (hz : cmdAddr w ≠ 0 ∨ cmdData w ≠ 0) : refusedWord w :=
    .inr (.inr (.inr (.inr (.inl ⟨hop, hz⟩))))
  have base (hop : cmdOp w = 3) (hb : ¬(cmdAddr w).toNat ≤ 0x7C) : refusedWord w :=
    .inr (.inr (.inr (.inr (.inr (.inl ⟨hop, Nat.not_le.mp hb⟩)))))
  have device (hop : cmdOp w = 2) (hd : cmdData w = 3) : refusedWord w :=
    .inr (.inr (.inr (.inr (.inr (.inr ⟨hop, hd⟩)))))
  unfold decodeCmd at h
  split at h
  case h_1 | h_7 | h_8 => cases h
  case h_2 hop =>
    split at h <;> cases h
    next hdata => exact data (.inl (BitVec.eq_of_toNat_eq hop)) hdata
  case h_3 hop =>
    split at h
    next haddr => exact select (BitVec.eq_of_toNat_eq hop) (.inl haddr)
    split at h
    next hhigh => exact select (BitVec.eq_of_toNat_eq hop) (.inr hhigh)
    next hhigh =>
      split at h <;> cases h
      next hid => exact device (BitVec.eq_of_toNat_eq hop) ((deviceId_eq_three_iff _ (not_not.mp hhigh)).mp hid)
  case h_4 hop =>
    split at h
    next hdata => exact data (.inr (BitVec.eq_of_toNat_eq hop)) hdata
    split at h <;> cases h
    next hbase => exact base (BitVec.eq_of_toNat_eq hop) hbase
  case h_5 hop | h_6 hop =>
    have hop : cmdOp w = 4 ∨ cmdOp w = 5 := by bv_omega
    split at h
    next haddr => exact operands hop (.inl haddr)
    split at h <;> cases h
    next hdata => exact operands hop (.inr hdata)

/-- A word that spells an instruction is one R124 names exactly when its opcode is reserved. -/
theorem refusedWord_iff_isReserved {w : CmdWord} {i : Instr} (h : decodeCmd w = .ok i) :
    refusedWord w ↔ i.isReserved = true := by
  obtain ⟨hi, hc⟩ := encode_of_decodeCmd (p := Params.default) h
  cases i with
  | wrvr | rdvr | rdall | meas | reserved6 | reserved7 =>
    cases hc
    simp [refusedWord, Instr.isReserved]
  | rdflt base =>
    cases hc
    have hbase : base.toNat ≤ 0x7C := of_decide_eq_true hi
    simp [refusedWord, Instr.isReserved, hbase]
  | seldev id =>
    cases hc
    obtain ⟨high, low⟩ := (setWidth_eq_iff_extract id _).mp rfl
    have hid : id.setWidth 8 ≠ 3#8 := fun h3 =>
      of_decide_eq_true hi (low.symm.trans ((deviceId_eq_three_iff _ high).mpr h3))
    simp [refusedWord, Instr.isReserved, high, hid]
  | _ => cases hc

theorem exec_reserved {s : State} {i : Instr} (hs : s.seq = .idle) (hi : i.isReserved = true) :
    exec i s = .next s.refuse := by
  cases i with
  | reserved6 | reserved7 => simp only [exec, execReserved6, execReserved7, present_idle hs]
  | _ => cases hi

/-- A well-formed command that is not reserved is begun (R103). -/
theorem exec_accepted {s : State} {i : Instr} (hs : s.seq = .idle) (hi : i.isCommand = true) (hw : i.wf = true)
    (hr : i.isReserved = false) : ∃ t, exec i s = .next t ∧ t.seq ≠ .idle := by
  obtain ⟨wrvr, rdvr, seldev, rdflt, rdall, meas, -⟩ := commandsAccepted s hs
  cases i with
  | wrvr a d => exact ⟨_, wrvr a d, nofun⟩
  | rdvr a => exact ⟨_, rdvr a, nofun⟩
  | seldev id => exact ⟨_, seldev id (of_decide_eq_true hw), nofun⟩
  | rdflt base => exact ⟨_, rdflt base (of_decide_eq_true hw), nofun⟩
  | rdall => exact ⟨_, rdall, nofun⟩
  | meas => exact ⟨_, meas, nofun⟩
  | reserved6 | reserved7 => cases hr
  | _ => cases hi

/-- Settles O4: a word that spells no instruction is refused, and of those that spell one the reserved opcodes alone. -/
theorem wordsRefusedExactly : Obligations.WordsRefusedExactly := by
  intro s w rest hs hr hc
  rw [step_word hr hs hc]
  cases hd : decodeCmd w with
  | error e => simp only [State.runWord, hd, refusedWord_of_error hd]
  | ok i =>
    rw [runWord_ok hd, refusedWord_iff_isReserved hd]
    refine ⟨fun h => ?_, exec_reserved hs⟩
    by_contra hres
    obtain ⟨hi, -⟩ := encode_of_decodeCmd (p := Params.default) hd
    obtain ⟨t, ht, hbusy⟩ := exec_accepted (s := s.takeWord w rest) hs (decodeCmd_isCommand hd) hi
      (Bool.eq_false_iff.mpr hres)
    cases ht.symm.trans h
    exact hbusy rfl

/-- Settles O5: the step is the refusal, whose every field is written out. -/
theorem refusedWordHasNoOtherEffect : Obligations.RefusedWordHasNoOtherEffect := by
  intro s w rest hs hr hc hw
  exact ⟨_, (wordsRefusedExactly s w rest hs hr hc).mpr hw,
    rfl, rfl, rfl, rfl, rfl, rfl, rfl, rfl, rfl, rfl, rfl, rfl, rfl⟩

/-! A busy engine. -/

theorem present_busy {s : State} (hs : s.seq ≠ .idle) (w : CmdWord) (start : State → State) :
    s.present w start = s.wait w := by
  simp [State.present, State.busy, hs]

/-- A command presented to a busy engine is its word, waiting (R102). -/
theorem exec_busy {p : Params} {s : State} {i : Instr} {w : CmdWord} (hs : s.seq ≠ .idle)
    (h : encode p i = some (.command w)) : exec i s = .next (s.wait w) := by
  cases i with
  | wrvr | rdvr | seldev | rdflt | rdall | meas | reserved6 | reserved7 =>
    cases h
    simp only [exec, execWrvr, execRdvr, execSeldev, execRdflt, execRdall, execMeas, execReserved6, execReserved7,
      present_busy hs, deviceByte]
  | _ => cases h

/-- Settles O14: a busy step is a call or a completion, and neither touches the waiting words. -/
theorem busyCommandWaits : Obligations.BusyCommandWaits := by
  intro s hs
  refine ⟨fun i w h => exec_busy hs h, fun t hr h => ?_⟩
  cases step_kind h with
  | reset hr' => simp [hr] at hr'
  | call _ hi hu => exact (call_goesOn hi hu).cmds
  | complete => rfl
  | word _ hidle | nothing _ hidle => exact absurd hidle hs

/-! Single calls under the oracle. -/

/-- A frame is sent, and its answer is the result (R113, R262). -/
theorem xferTx_oracle {s : State} (hb : s.env.bus = .oracle) (bytes : List Byte) :
    (s.xferTx bytes).finish = .next { s with
      ret := s.env.nextTx.ret,
      env := ({ s.env with txAnswers := s.env.txAnswers.tail }).called
        (.transmit 0x49 bytes s.par.xferTimeout s.env.nextTx) } := by
  simp only [State.xferTx, Env.transmit, hb]
  rfl

/-- A byte is received, or BusError (R114, R262). -/
theorem xferRx_oracle {s : State} (hb : s.env.bus = .oracle) (n : Nat) :
    (s.xferRx n).finish = .next { s with
      ret := s.env.nextRx.ret,
      env := ({ s.env with rxAnswers := s.env.rxAnswers.tail }).called
        (.receive 0x49 n s.par.xferTimeout s.env.nextRx) } := by
  simp only [State.xferRx, Env.receive, hb]
  rfl

/-- Bit 7 of a zero-extended address is already clear (R116). -/
theorem vrdaByte_eq : ∀ a : VAddr, vrdaByte a = a.setWidth 8 := by
  decide

/-- Settles O16: each row is the transmit of its frame. -/
theorem sendFramesComplete : Obligations.SendFramesComplete := by
  intro s a b hb x hx
  have row : exec x.1 s = (s.xferTx x.2).finish := by
    simp only [List.mem_cons, List.not_mem_nil, or_false] at hx
    obtain rfl | rfl | rfl | rfl | rfl | rfl | rfl := hx
    on_goal 7 => rw [← vrdaByte_eq]
    all_goals rfl
  exact row.trans (xferTx_oracle hb x.2)

/-- Settles O17: the row is the receive of one byte. -/
theorem receiveCompletes : Obligations.ReceiveCompletes :=
  fun _ hb => xferRx_oracle hb 1

/-- Settles O7: executing either row is WR_WRITE of its byte. -/
theorem commandBytesAssemble : Obligations.CommandBytesAssemble :=
  ⟨fun a _ => ⟨rfl, rfl, vrdaByte_eq a⟩, by decide⟩

/-! The STATUS byte. -/

/-- The two bits of a STATUS byte that the engine tests (R112). -/
theorem txValid_rxValid_bits : ∀ b : Byte, txValid b = b.getLsbD 1 ∧ rxValid b = b.getLsbD 0 := by
  decide

/-- Each poll tests one of the two bits (R147 to R149). -/
theorem pollHit_bits : ∀ b : Byte, pollHit PollKind.tx.mask PollKind.tx.want b = !txValid b ∧
    pollHit PollKind.rx.mask PollKind.rx.want b = rxValid b := by
  decide

/-- Settles O8: the mask of either poll lies inside the low two bits. -/
theorem statusByteFields : Obligations.StatusByteFields := by
  refine ⟨txValid_rxValid_bits, fun k b b' h => ?_, pollHit_bits, fun _ _ => rfl⟩
  have mask : ∀ k : PollKind, k.mask = 0x03 &&& k.mask := by rintro (_ | _) <;> rfl
  unfold pollHit
  rw [mask, ← BitVec.and_assoc, ← BitVec.and_assoc, h]

/-! Fixed words and addresses. -/

/-- Settles O6: ten codes evaluated. -/
theorem sampleCodesDecode : Obligations.SampleCodesDecode := by
  unfold Obligations.SampleCodesDecode
  decide

/-- Settles O11: the sums stay below their bounds, and an index below 6 is a remainder by 6. -/
theorem sweepAddresses : Obligations.SweepAddresses := by
  refine ⟨fun b i hb => ?_, fun c hc => ?_, fun d d' c c' hd hd' hc hc' => ⟨rfl, ?_, fun h => ?_⟩⟩
  · have hi := i.isLt
    rw [floatByteAddr, BitVec.toNat_add, BitVec.toNat_ofNat]
    omega
  · revert c
    decide
  · unfold flatIndex; omega
  · unfold flatIndex at h
    constructor <;> apply BitVec.eq_of_toNat_eq <;> omega

end Sys2Proof.Machine
end

section
/-! SUPPORT and proofs of the statements of spec/40_bus_primitives.md about calls, delays and reads: what
each micro-operation leaves unchanged whoever answers, and what a read amounts to under the oracle. -/

namespace Sys2Proof.Machine

/-! Whoever answers. -/

/-- An instruction that answers a next state is a run that ended, with its result in `ret` (R13). -/
theorem finish_next {x : Run} {t : State} (h : x.finish = .next t) : ∃ r u, x = .ok (r, u) ∧ t = u.withRet r := by
  rcases x with f | ⟨r, u⟩ <;> cases h
  exact ⟨r, u, rfl, rfl⟩

theorem xferTx_ok {s t : State} {bytes : List Byte} {r : Ret} (h : s.xferTx bytes = .ok (r, t)) :
    ∃ e, t = { s with env := e } ∧ e.bus = s.env.bus := by
  unfold State.xferTx at h
  rcases ht : s.env.transmit s.par bytes with f | ⟨a, e⟩ <;> rw [ht] at h <;> cases h
  exact ⟨e, rfl, (transmit_env ht).2.1⟩

theorem xferRx_ok {s t : State} {n : Nat} {r : Ret} (h : s.xferRx n = .ok (r, t)) :
    ∃ e, t = { s with env := e } ∧ e.bus = s.env.bus := by
  unfold State.xferRx at h
  rcases hx : s.env.receive s.par n with f | ⟨a, e⟩ <;> rw [hx] at h <;> cases h
  exact ⟨e, rfl, (receive_env hx).2.1⟩

/-- RDSTATUS and RDREAD are one read (R140, R142): the pointer frame of a register, the receive of a byte, and the
register update `upd` that takes the byte. -/
def State.readVia (reg : Byte) (upd : Byte → Regs → Regs) (s : State) : Run :=
  (s.xferTx [reg]).tryThen fun _ t =>
    t.callGet1.tryThen fun r u =>
      match r with
      | .byte b => .ok (.byte b, { u with regs := upd b u.regs })
      | .ok | .timeout | .busError => .ok (r, u)

theorem rdstatus_eq_readVia (s : State) :
    s.rdstatus = s.readVia s.par.statusReg fun b r => { r with st := b } := rfl

theorem rdread_eq_readVia (s : State) : s.rdread = s.readVia s.par.readReg fun b r => { r with rx := b } := rfl

/-- A pointed read leaves the engine alone but for the update by the byte it got. -/
theorem readVia_ok {s t : State} {reg : Byte} {upd : Byte → Regs → Regs} {r : Ret} (h : s.readVia reg upd = .ok (r, t)) :
    ∃ e, e.bus = s.env.bus ∧ (t = { s with env := e } ∨ ∃ b, t = { s with env := e, regs := upd b s.regs }) := by
  obtain ⟨r1, t1, h1, ⟨-, rfl, rfl⟩ | ⟨-, h⟩⟩ := tryThen_ok h <;> obtain ⟨e1, rfl, hb1⟩ := xferTx_ok h1
  · exact ⟨e1, hb1, .inl rfl⟩
  obtain ⟨r2, t2, h2, ⟨-, rfl, rfl⟩ | ⟨-, h⟩⟩ := tryThen_ok h <;> obtain ⟨e2, rfl, hb2⟩ := xferRx_ok h2 <;>
    have hb := hb2.trans hb1
  · exact ⟨e2, hb, .inl rfl⟩
  cases r2 with
  | byte b => cases h; exact ⟨e2, hb, .inr ⟨b, rfl⟩⟩
  | ok | timeout | busError => cases h; exact ⟨e2, hb, .inl rfl⟩

theorem rdstatus_bus {s t : State} {r : Ret} (h : s.rdstatus = .ok (r, t)) : t.env.bus = s.env.bus := by
  obtain ⟨e, hb, rfl | ⟨b, rfl⟩⟩ := readVia_ok (rdstatus_eq_readVia s ▸ h) <;> exact hb

theorem pollLoop_bus {mask want : Byte} {iv : Interval} {left : Nat} {s t : State} {r : Ret}
    (h : pollLoop mask want iv left s = .ok (r, t)) : t.env.bus = s.env.bus := by
  induction left generalizing s with
  | zero => cases h; rfl
  | succ left ih =>
    obtain ⟨r1, u, h1, ⟨-, rfl, rfl⟩ | ⟨-, h⟩⟩ := tryThen_ok h
    · exact rdstatus_bus h1
    · have hu := rdstatus_bus h1
      split at h
      · cases h; exact hu
      · exact (ih h).trans ((delay_env _ iv _).2.1.trans hu)

/-- What a poll may change is what its frame lets it, whatever result it hands on. -/
theorem PollFrame.sameButPoll {s t : State} (h : PollFrame s t) (r : Ret) : SameButPoll s (t.withRet r) :=
  ⟨h.par, h.seq, h.rsp, h.cmds, h.rst, h.regs⟩

/-- POLL within its operands is the loop from a cleared count (R147). -/
theorem exec_poll {mask want : Byte} {max : Count} {iv : Interval} (hmax : max ≠ 0) (s : State) :
    exec (.poll mask want max iv) s = (pollLoop mask want iv max.toNat s.clearCount).finish :=
  if_neg hmax

/-- Settles O25: the bound is tested first. -/
theorem zeroBoundPollStops : Obligations.ZeroBoundPollStops :=
  fun _ _ _ _ => rfl

theorem exec_waittx (s : State) : exec .waittx s = exec (.poll 0x02 0x00 s.par.txPollMax .txPoll) s := rfl

theorem exec_waitrx (s : State) : exec .waitrx s = exec (.poll 0x01 0x01 s.par.rxPollMax .rxPoll) s := rfl

theorem exec_poll_frame {mask want : Byte} {max : Count} {iv : Interval} {s t : State}
    (h : exec (.poll mask want max iv) s = .next t) : SameButPoll s t ∧ t.env.bus = s.env.bus := by
  by_cases hmax : max = 0
  · subst hmax
    rw [zeroBoundPollStops] at h
    cases h
  · rw [exec_poll hmax] at h
    obtain ⟨r, u, hu, rfl⟩ := finish_next h
    exact ⟨((PollFrame.clearCount s).trans (pollLoop_pollFrame hu)).sameButPoll r, (pollLoop_bus hu :)⟩

/-- A single call leaves the engine but for the result it hands on. -/
theorem exec_call_frame {s t : State} {i : Instr}
    (hi : (∃ bytes, exec i s = (s.xferTx bytes).finish) ∨ exec i s = (s.xferRx 1).finish ∨ ∃ iv, i = .delay iv)
    (h : exec i s = .next t) : SameEngine s t ∧ t.env.bus = s.env.bus := by
  obtain ⟨bytes, he⟩ | he | ⟨iv, rfl⟩ := hi
  · obtain ⟨a, e, ht, rfl⟩ := call_tx he h
    exact ⟨⟨rfl, rfl, rfl, rfl, rfl, rfl⟩, (transmit_env ht).2.1⟩
  · obtain ⟨a, e, hx, rfl⟩ := call_rx he h
    exact ⟨⟨rfl, rfl, rfl, rfl, rfl, rfl⟩, (receive_env hx).2.1⟩
  · cases h
    exact ⟨⟨rfl, rfl, rfl, rfl, rfl, rfl⟩, (delay_env s.par iv s.env).2.1⟩

/-- Settles O18: a row is one call, a latch, a pointed read, or a poll. -/
theorem microOperationFrames : Obligations.MicroOperationFrames := by
  intro s t a b mask want max iv
  refine ⟨fun i hi => exec_call_frame ?_, fun h => ?_, fun h => ?_, fun h => ?_, fun i hi h => ?_⟩
  · simp only [List.mem_cons, List.not_mem_nil, or_false] at hi
    obtain rfl | rfl | rfl | rfl | rfl | rfl | rfl | rfl | rfl := hi
    on_goal 9 => exact .inr (.inr ⟨iv, rfl⟩)
    on_goal 4 => exact .inr (.inl rfl)
    all_goals exact .inl ⟨_, rfl⟩
  · cases h
    exact ⟨⟨rfl, rfl, rfl, rfl, rfl, rfl⟩, rfl⟩
  · obtain ⟨r, u, hu, rfl⟩ := finish_next h
    obtain ⟨e, hb, rfl | ⟨b, rfl⟩⟩ := readVia_ok (rdstatus_eq_readVia s ▸ hu) <;>
      exact ⟨⟨rfl, rfl, rfl, rfl, rfl, rfl⟩, hb⟩
  · obtain ⟨r, u, hu, rfl⟩ := finish_next h
    obtain ⟨e, hb, rfl | ⟨b, rfl⟩⟩ := readVia_ok (rdread_eq_readVia s ▸ hu) <;>
      exact ⟨⟨rfl, rfl, rfl, rfl, rfl, rfl⟩, hb⟩
  · simp only [List.mem_cons, List.not_mem_nil, or_false] at hi
    obtain rfl | rfl | rfl := hi
    · exact exec_poll_frame h
    · exact exec_poll_frame (exec_waittx s ▸ h)
    · exact exec_poll_frame (exec_waitrx s ▸ h)

/-! Under the oracle: single calls and pointed reads. -/

/-- The state after a frame that the oracle answered with `a` (R262). -/
def State.sent (bytes : List Byte) (a : TxAnswer) (s : State) : State :=
  { s with env := ({ s.env with txAnswers := s.env.txAnswers.tail }).called (.transmit 0x49 bytes s.par.xferTimeout a) }

/-- The state after a receive that the oracle answered with `a` (R262). -/
def State.received (a : RxAnswer) (s : State) : State :=
  { s with env := ({ s.env with rxAnswers := s.env.rxAnswers.tail }).called (.receive 0x49 1 s.par.xferTimeout a) }

theorem xferTx_sent {s : State} {a : TxAnswer} (hb : s.env.bus = .oracle) (ha : s.env.nextTx = a) (bytes : List Byte) :
    s.xferTx bytes = .ok (a.ret, s.sent bytes a) := by
  subst ha
  simp only [State.xferTx, Env.transmit, State.sent, hb]
  rfl

theorem callGet1_received {s : State} {a : RxAnswer} (hb : s.env.bus = .oracle) (ha : s.env.nextRx = a) :
    s.callGet1 = .ok (a.ret, s.received a) := by
  subst ha
  simp only [State.callGet1, State.xferRx, Env.receive, State.received, hb]
  rfl

section
variable {s : State} {reg : Byte} {upd : Byte → Regs → Regs} (hb : s.env.bus = .oracle)
include hb

theorem readVia_transmitFails (ht : s.env.nextTx = .busError) :
    s.readVia reg upd = .ok (.busError, s.sent [reg] .busError) := by
  rw [State.readVia, xferTx_sent hb ht]
  rfl

/-- After the pointer frame a pointed read is its receive. -/
theorem readVia_receive {a : RxAnswer} (ht : s.env.nextTx = .ok) (ha : (s.sent [reg] .ok).env.nextRx = a) :
    s.readVia reg upd = match a with
      | .byte b => .ok (.byte b, { (s.sent [reg] .ok).received a with regs := upd b s.regs })
      | .busError => .ok (.busError, (s.sent [reg] .ok).received a) := by
  have hr : (s.sent [reg] .ok).callGet1 = _ := callGet1_received hb ha
  simp only [State.readVia, xferTx_sent hb ht, Run.tryThen, TxAnswer.ret, Ret.failure, hr]
  cases a <;> rfl

/-- A pointed read in its three ways: no receive after a failed transmit, BusError from the receive, a byte that the
update takes (R140, R142, R144). -/
theorem readVia_reads :
    let tx := Event.transmit 0x49 [reg] s.par.xferTimeout
    let rx := Event.receive 0x49 1 s.par.xferTimeout
    let next := ({ s.env with fresh := s.env.fresh + 1 }).nextRx
    (s.env.nextTx = .busError → ∃ t, (s.readVia reg upd).finish = .next t ∧ t.ret = .busError ∧ SameEngine s t ∧
      Grew s t [tx .busError]) ∧
    (s.env.nextTx = .ok → next = .busError → ∃ t, (s.readVia reg upd).finish = .next t ∧ t.ret = .busError ∧
      SameEngine s t ∧ Grew s t [rx .busError, tx .ok]) ∧
    (∀ b, s.env.nextTx = .ok → next = .byte b → ∃ t, (s.readVia reg upd).finish = .next t ∧ t.ret = .byte b ∧
      SameEngine { s with regs := upd b s.regs } t ∧ Grew s t [rx (.byte b), tx .ok]) := by
  refine ⟨fun ht => ?_, fun ht hx => ?_, fun b ht hx => ?_⟩
  · rw [readVia_transmitFails hb ht]
    exact ⟨_, rfl, rfl, ⟨rfl, rfl, rfl, rfl, rfl, rfl⟩, rfl⟩
  all_goals
    rw [readVia_receive hb ht hx]
    exact ⟨_, rfl, rfl, ⟨rfl, rfl, rfl, rfl, rfl, rfl⟩, rfl⟩

end

/-- Settles O19: RDSTATUS is the pointed read of STATUS into ST. -/
theorem rdstatusReads : Obligations.RdstatusReads :=
  fun s hb => readVia_reads (reg := s.par.statusReg) (upd := fun b r => { r with st := b }) hb

/-- Settles O20: RDREAD is the pointed read of READ into RX. -/
theorem rdreadReads : Obligations.RdreadReads :=
  fun s hb => readVia_reads (reg := s.par.readReg) (upd := fun b r => { r with rx := b }) hb

/-- Settles O21: either bus model's delay written out. -/
theorem delayCompletes : Obligations.DelayCompletes := by
  refine fun s iv => ⟨fun hb => ?_, fun rd hb => ?_⟩ <;>
    simp only [exec, execDelay, State.doDelay, Env.delay, Env.log, hb] <;> rfl

end Sys2Proof.Machine
end

section
/-! SUPPORT and proofs of the statements of spec/40_bus_primitives.md about polls: under the oracle, what an attempt of a
POLL spends and where it leads, and from that the cost and the end of the whole loop. -/

namespace Sys2Proof.Machine

/-! What part of a poll has spent. -/

/-- From `s` to `t` a poll made `calls` transport calls and `delays` delays, counted `n` attempts, and left everything
else of the engine as it was but ST (R147). -/
structure Spent (calls delays n : Nat) (s t : State) : Prop where
  frame : PollFrame s t
  bus : t.env.bus = s.env.bus
  cnt : t.regs.cnt = s.regs.cnt + BitVec.ofNat 16 n
  events : ∃ evs, Grew s t evs ∧ callsIn evs = calls ∧ delaysIn evs = delays

theorem Spent.refl (s : State) : Spent 0 0 0 s s :=
  ⟨.refl s, rfl, (BitVec.add_zero _).symm, [], rfl, rfl, rfl⟩

theorem Spent.trans {c d n c' d' n' : Nat} {s t u : State} (h : Spent c d n s t) (g : Spent c' d' n' t u) :
    Spent (c + c') (d + d') (n + n') s u := by
  obtain ⟨evs, hevs, hc, hd⟩ := h.events
  obtain ⟨evs', hevs', hc', hd'⟩ := g.events
  refine ⟨h.frame.trans g.frame, g.bus.trans h.bus, ?_, evs' ++ evs, ?_, ?_, ?_⟩
  · rw [g.cnt, h.cnt, BitVec.add_assoc, BitVec.ofNat_add]
  · exact hevs'.trans (by rw [hevs, List.append_assoc])
  · rw [callsIn, List.countP_append, Nat.add_comm, ← hc, ← hc']; rfl
  · rw [delaysIn, List.countP_append, Nat.add_comm, ← hd, ← hd']; rfl

theorem Spent.sent (s : State) (bytes : List Byte) (a : TxAnswer) : Spent 1 0 0 s (s.sent bytes a) :=
  ⟨.env, rfl, (BitVec.add_zero _).symm, [_], rfl, rfl, rfl⟩

theorem Spent.received (s : State) (a : RxAnswer) : Spent 1 0 0 s (s.received a) :=
  ⟨.env, rfl, (BitVec.add_zero _).symm, [_], rfl, rfl, rfl⟩

theorem Spent.latchStatus (s : State) (b : Byte) : Spent 0 0 0 s (s.latchStatus b) :=
  ⟨⟨rfl, rfl, rfl, rfl, rfl, rfl, rfl⟩, rfl, (BitVec.add_zero _).symm, [], rfl, rfl, rfl⟩

theorem Spent.countAttempt (s : State) : Spent 0 0 1 s s.countAttempt :=
  ⟨⟨rfl, rfl, rfl, rfl, rfl, rfl, rfl⟩, rfl, rfl, [], rfl, rfl, rfl⟩

theorem Spent.doDelay (s : State) (iv : Interval) : Spent 0 1 0 s (s.doDelay iv) :=
  have ⟨grew, bus, _⟩ := delay_env s.par iv s.env
  ⟨.env, bus, (BitVec.add_zero _).symm, [_], grew, rfl, rfl⟩

/-! One attempt. -/

/-- The state after a STATUS read that answered `b` (R140). -/
def State.statusGot (b : Byte) (s : State) : State :=
  ((s.sent [s.par.statusReg] .ok).received (.byte b)).latchStatus b

/-- The state after an attempt whose STATUS byte was `b`, before its test (R147). -/
def State.attempted (b : Byte) (s : State) : State := (s.statusGot b).countAttempt

/-- The state after an attempt that missed on `b`, and its delay (R147). -/
def State.missed (iv : Interval) (b : Byte) (s : State) : State := (s.attempted b).doDelay iv

theorem Spent.attempted (s : State) (b : Byte) : Spent 2 0 1 s (s.attempted b) :=
  (((Spent.sent s _ _).trans (.received _ _)).trans (.latchStatus _ b)).trans (.countAttempt _)

theorem Spent.missed (s : State) (iv : Interval) (b : Byte) : Spent 2 1 1 s (s.missed iv b) :=
  (Spent.attempted s b).trans (.doDelay _ iv)

section
variable {s : State} {mask want : Byte} {iv : Interval} {left : Nat} (hb : s.env.bus = .oracle)
include hb

theorem pollLoop_transmitFails (ht : s.env.nextTx = .busError) :
    pollLoop mask want iv (left + 1) s = .ok (.busError, s.sent [s.par.statusReg] .busError) := by
  rw [pollLoop, rdstatus_eq_readVia, readVia_transmitFails hb ht]
  rfl

theorem pollLoop_receiveFails (ht : s.env.nextTx = .ok) (hx : (s.sent [s.par.statusReg] .ok).env.nextRx = .busError) :
    pollLoop mask want iv (left + 1) s = .ok (.busError, (s.sent [s.par.statusReg] .ok).received .busError) := by
  rw [pollLoop, rdstatus_eq_readVia, readVia_receive hb ht hx]
  rfl

/-- An attempt that gets a byte counts it and tests it: Ok on a hit, else the delay and the attempts left (R147). -/
theorem pollLoop_byte {b : Byte} (ht : s.env.nextTx = .ok)
    (hx : (s.sent [s.par.statusReg] .ok).env.nextRx = .byte b) :
    pollLoop mask want iv (left + 1) s =
      if pollHit mask want b then .ok (.ok, s.attempted b) else pollLoop mask want iv left (s.missed iv b) := by
  rw [pollLoop, rdstatus_eq_readVia, readVia_receive hb ht hx]
  rfl

end

/-! POLL from its loop. -/

/-- The outcome of a POLL whose loop is known: its result, its count, its cost, and its frame. -/
theorem exec_poll_spent {mask want : Byte} {max : Count} {iv : Interval} {s u : State} {r : Ret} {c d n : Nat}
    (hmax : max ≠ 0) (hu : pollLoop mask want iv max.toNat s.clearCount = .ok (r, u)) (h : Spent c d n s.clearCount u)
    (hn : n ≤ max.toNat) :
    ∃ t evs, exec (.poll mask want max iv) s = .next t ∧ t.ret = r ∧ SameButPoll s t ∧ t.regs.st = u.regs.st ∧
      t.regs.cnt.toNat = n ∧ Grew s t evs ∧ callsIn evs = c ∧ delaysIn evs = d := by
  obtain ⟨evs, grew, calls, delays⟩ := h.events
  refine ⟨u.withRet r, evs, ?_, rfl, ((PollFrame.clearCount s).trans h.frame).sameButPoll r, rfl, ?_, grew, calls, delays⟩
  · rw [exec_poll hmax, hu]; rfl
  · have hcnt : u.regs.cnt = BitVec.ofNat 16 n := by rw [h.cnt]; exact BitVec.zero_add _
    rw [State.withRet_regs, hcnt, BitVec.toNat_ofNat, Nat.mod_eq_of_lt (hn.trans_lt max.isLt)]

/-! The cost by the attempt that decides. -/

/-- The oracle's coming answers begin with settled ones (R8). -/
structure Settled (ta : List TxAnswer) (ra : List RxAnswer) (s : State) : Prop where
  bus : s.env.bus = .oracle
  tx : s.env.txAnswers = ta
  rx : s.env.rxAnswers = ra

theorem Settled.nextTx {s : State} {a : TxAnswer} {ta : List TxAnswer} {ra : List RxAnswer} (h : Settled (a :: ta) ra s) :
    s.env.nextTx = a := by
  rw [Env.nextTx, h.tx]

/-- The answer that the receive of an attempt meets. -/
theorem Settled.nextRx {s : State} {a : RxAnswer} {ta : List TxAnswer} {ra : List RxAnswer} (h : Settled ta (a :: ra) s)
    (bytes : List Byte) (b : TxAnswer) : (s.sent bytes b).env.nextRx = a := by
  have hx : (s.sent bytes b).env.rxAnswers = a :: ra := h.rx
  rw [Env.nextRx, hx]

theorem delay_answers (p : Params) (iv : Interval) (e : Env) :
    (e.delay p iv).txAnswers = e.txAnswers ∧ (e.delay p iv).rxAnswers = e.rxAnswers := by
  unfold Env.delay
  split <;> exact ⟨rfl, rfl⟩

theorem Settled.missed {s : State} {ta : List TxAnswer} {ra : List RxAnswer} {m : Byte}
    (h : Settled (.ok :: ta) (.byte m :: ra) s) (iv : Interval) : Settled ta ra (s.missed iv m) := by
  obtain ⟨htx, hrx⟩ := delay_answers s.par iv (s.attempted m).env
  exact ⟨(Spent.missed s iv m).bus.trans h.bus, htx.trans (congrArg List.tail h.tx), hrx.trans (congrArg List.tail h.rx)⟩

/-- A loop that first misses once for each byte of `misses` goes on with the attempts left, two calls, a delay and a count
for each. -/
theorem pollLoop_misses {mask want : Byte} {iv : Interval} {left : Nat} {ta : List TxAnswer} {ra : List RxAnswer}
    {misses : List Byte} (hm : ∀ m ∈ misses, pollHit mask want m = false) {s : State}
    (h : Settled (List.replicate misses.length .ok ++ ta) (misses.map .byte ++ ra) s) :
    ∃ u, pollLoop mask want iv (misses.length + left) s = pollLoop mask want iv left u ∧
      Spent (2 * misses.length) misses.length misses.length s u ∧ Settled ta ra u := by
  induction misses generalizing s with
  | nil => exact ⟨s, by rw [List.length_nil, Nat.zero_add], .refl s, h⟩
  | cons m ms ih =>
    obtain ⟨hmiss, hms⟩ := List.forall_mem_cons.mp hm
    obtain ⟨u, hu, hspent, hset⟩ := ih hms (h.missed iv)
    refine ⟨u, ?_, ?_, hset⟩
    · rw [List.length_cons, Nat.add_right_comm, pollLoop_byte h.bus h.nextTx (h.nextRx _ _), hmiss, ← hu]
      rfl
    · rw [List.length_cons, Nat.mul_succ, Nat.add_comm _ 2, Nat.add_comm _ 1]
      exact (Spent.missed s iv m).trans hspent

/-- Settles O22: after the misses one more attempt decides, or none is left. -/
theorem pollCosts : Obligations.PollCosts := by
  intro s mask want max iv misses ta ra hb hm k
  have start {left : Nat} {ta' : List TxAnswer} {ra' : List RxAnswer} (hmax : max.toNat = k + left)
      (htx : s.env.txAnswers = List.replicate k .ok ++ ta') (hrx : s.env.rxAnswers = misses.map .byte ++ ra') :
      ∃ u, pollLoop mask want iv max.toNat s.clearCount = pollLoop mask want iv left u ∧
        Spent (2 * k) k k s.clearCount u ∧ Settled ta' ra' u := by
    rw [hmax]
    exact pollLoop_misses hm ⟨hb, htx, hrx⟩
  have attempts (hk : k < max.toNat) : max ≠ 0 ∧ ∃ left, max.toNat = k + (left + 1) :=
    ⟨fun h => by simp [h] at hk, max.toNat - k - 1, by omega⟩
  have okAnswers : List.replicate (k + 1) TxAnswer.ok ++ ta = List.replicate k .ok ++ .ok :: ta := by
    rw [List.replicate_succ', List.append_assoc]; rfl
  refine ⟨fun hit hhit hk htx hrx => ?_, fun hk hmax htx hrx => ?_, fun hk htx hrx => ?_, fun hk htx hrx => ?_⟩
  · obtain ⟨hmax, left, hleft⟩ := attempts hk
    obtain ⟨u, hu, hspent, hset⟩ := start hleft (htx.trans okAnswers) hrx
    rw [pollLoop_byte hset.bus hset.nextTx (hset.nextRx _ _), hhit] at hu
    exact exec_poll_spent hmax hu (hspent.trans (.attempted u hit)) hk
  · obtain ⟨u, hu, hspent, -⟩ := start (left := 0) hk.symm htx hrx
    obtain ⟨t, evs, ht, hret, hframe, -, hcnt, hevs, hc, hd⟩ := exec_poll_spent hmax hu hspent hk.le
    exact ⟨t, evs, ht, hret, hframe, BitVec.eq_of_toNat_eq (hcnt.trans hk), hevs, hk ▸ hc, hk ▸ hd⟩
  · obtain ⟨hmax, left, hleft⟩ := attempts hk
    obtain ⟨u, hu, hspent, hset⟩ := start hleft htx hrx
    rw [pollLoop_transmitFails hset.bus hset.nextTx] at hu
    obtain ⟨t, evs, ht, hret, hframe, -, hcnt, hevs, hc, hd⟩ :=
      exec_poll_spent hmax hu (hspent.trans (.sent u _ _)) hk.le
    exact ⟨t, evs, ht, hret, hframe, hcnt, hevs, hc, hd⟩
  · obtain ⟨hmax, left, hleft⟩ := attempts hk
    obtain ⟨u, hu, hspent, hset⟩ := start hleft (htx.trans okAnswers) hrx
    rw [pollLoop_receiveFails hset.bus hset.nextTx (hset.nextRx _ _)] at hu
    obtain ⟨t, evs, ht, hret, hframe, -, hcnt, hevs, hc, hd⟩ :=
      exec_poll_spent hmax hu ((hspent.trans (.sent u _ _)).trans (.received _ _)) hk.le
    exact ⟨t, evs, ht, hret, hframe, hcnt, hevs, hc, hd⟩

/-! The end, whatever the oracle answers. -/

/-- What the result of a loop with `left` attempts says when it counted `n` and ST is `st` (R147, R241, R242). -/
inductive PollVerdict (mask want : Byte) (left n : Nat) (st : Byte) : Ret → Prop
  | hit (hst : pollHit mask want st = true) (hpos : 1 ≤ n) (hn : n ≤ left) : PollVerdict mask want left n st .ok
  | timeout (hst : pollHit mask want st = false) (hn : n = left) : PollVerdict mask want left n st .timeout
  | busError (hn : n < left) : PollVerdict mask want left n st .busError

theorem PollVerdict.afterMiss {mask want st : Byte} {left n : Nat} {r : Ret} (h : PollVerdict mask want left n st r) :
    PollVerdict mask want (left + 1) (1 + n) st r := by
  cases h with
  | hit hst hpos hn => exact .hit hst (by omega) (by omega)
  | timeout hst hn => exact .timeout hst (by omega)
  | busError hn => exact .busError (by omega)

theorem PollVerdict.counted_le {mask want st : Byte} {left n : Nat} {r : Ret} (h : PollVerdict mask want left n st r) :
    n ≤ left := by
  cases h <;> omega

/-- The loop ends within two calls and one delay an attempt, and its result says what was seen. Where no attempt is left
the last STATUS byte has missed. -/
theorem pollLoop_ends (mask want : Byte) (iv : Interval) (left : Nat) {s : State} (hb : s.env.bus = .oracle)
    (hs : left = 0 → pollHit mask want s.regs.st = false) :
    ∃ r t c d n, pollLoop mask want iv left s = .ok (r, t) ∧ Spent c d n s t ∧ c ≤ 2 * left ∧ d ≤ left ∧
      PollVerdict mask want left n t.regs.st r := by
  induction left generalizing s with
  | zero => exact ⟨.timeout, s, 0, 0, 0, rfl, .refl s, le_rfl, le_rfl, .timeout (hs rfl) rfl⟩
  | succ left ih =>
    cases ht : s.env.nextTx with
    | busError =>
      exact ⟨_, _, _, _, _, pollLoop_transmitFails hb ht, .sent s _ _, by omega, by omega, .busError (by omega)⟩
    | ok =>
      cases hx : (s.sent [s.par.statusReg] .ok).env.nextRx with
      | busError =>
        exact ⟨_, _, _, _, _, pollLoop_receiveFails hb ht hx, (Spent.sent s _ _).trans (.received _ _), by omega, by omega,
          .busError (by omega)⟩
      | byte b =>
        rw [pollLoop_byte hb ht hx]
        cases hh : pollHit mask want b with
        | true => exact ⟨_, _, _, _, _, rfl, .attempted s b, by omega, by omega, .hit hh le_rfl (by omega)⟩
        | false =>
          have spent := Spent.missed s iv b
          obtain ⟨r, t, c, d, n, hu, hspent, hc, hd, hv⟩ := ih (spent.bus.trans hb) fun _ => hh
          exact ⟨r, t, _, _, _, hu, spent.trans hspent, by omega, by omega, hv.afterMiss⟩

/-- Settles O23: the loop from a cleared count ends, and the waits are two polls. -/
theorem pollAlwaysEnds : Obligations.PollAlwaysEnds := by
  refine ⟨fun s mask want max iv hb hmax => ?_, fun s => ⟨exec_waittx s, exec_waitrx s⟩⟩
  have hpos : max.toNat ≠ 0 := fun h => hmax (BitVec.eq_of_toNat_eq h)
  obtain ⟨r, u, c, d, n, hu, hspent, hc, hd, hv⟩ :=
    pollLoop_ends mask want iv max.toNat (s := s.clearCount) hb fun h => absurd h hpos
  obtain ⟨t, evs, ht, rfl, hframe, hst, rfl, hevs, rfl, rfl⟩ := exec_poll_spent hmax hu hspent hv.counted_le
  refine ⟨t, evs, ht, hframe, hevs, hc, hd, hv.counted_le, ?_⟩
  rw [← hst] at hv
  cases hret : t.ret <;> rw [hret] at hv <;> cases hv
  case ok.hit hhit hpos _ => exact .inl ⟨rfl, of_decide_eq_true hhit, hpos⟩
  case timeout.timeout hmiss hn => exact .inr (.inl ⟨rfl, of_decide_eq_false hmiss, BitVec.eq_of_toNat_eq hn⟩)
  case busError.busError hn => exact .inr (.inr ⟨rfl, hn⟩)

/-- A wait ends, and its result says whether its bit was seen. -/
theorem waitReady_ends (k : PollKind) {s : State} (hb : s.env.bus = .oracle) (hw : s.par.wf = true) :
    ∃ t, exec (.poll k.mask k.want (k.max s.par) k.interval) s = .next t ∧ SameButPoll s t ∧
      (t.ret = .ok ∨ t.ret = .timeout ∨ t.ret = .busError) ∧ (t.ret = .ok → pollHit k.mask k.want t.regs.st = true) ∧
      (t.ret = .timeout → pollHit k.mask k.want t.regs.st = false ∧ t.regs.cnt = k.max s.par) := by
  obtain ⟨t, -, ht, hframe, -, -, -, -, ⟨hret, hst, -⟩ | ⟨hret, hst, hcnt⟩ | ⟨hret, -⟩⟩ :=
    pollAlwaysEnds.1 s k.mask k.want (k.max s.par) k.interval hb (wf_max hw k) <;>
    refine ⟨t, ht, hframe, ?_⟩ <;> rw [hret]
  · exact ⟨.inl rfl, fun _ => decide_eq_true hst, nofun⟩
  · exact ⟨.inr (.inl rfl), nofun, fun _ => ⟨decide_eq_false hst, hcnt⟩⟩
  · exact ⟨.inr (.inr rfl), nofun, nofun⟩

/-- Settles O24: a hit of either wait is its STATUS bit. -/
theorem waitsComplete : Obligations.WaitsComplete := by
  intro s hb hw
  obtain ⟨t, ht, htframe, htret, htok, httimeout⟩ := waitReady_ends .tx hb hw
  obtain ⟨u, hu, huframe, huret, huok, hutimeout⟩ := waitReady_ends .rx hb hw
  rw [(pollHit_bits _).1] at htok httimeout
  rw [(pollHit_bits _).2] at huok hutimeout
  simp only [Bool.not_eq_true', Bool.not_eq_false'] at htok httimeout
  exact ⟨⟨t, ht, htframe, htret, htok, httimeout⟩, u, hu, huframe, huret, huok, hutimeout⟩

/-! The rows of the poll table. -/

/-- In a poll the coming call is the one of its position (R150). -/
theorem issue_pollAt {s : State} {k : PollKind} {p : PollPos} (h : s.seq.pollAt = some (k, p)) :
    s.issue = some (p.issue k) := by
  unfold Seq.pollAt at h
  unfold State.issue
  split at h <;> cases h <;> simp only [*] <;> rfl

/-- A row that stays in the poll moves SEQ inside it (R150). -/
theorem advance_stay {s t : State} {k : PollKind} {p q : PollPos} (h : s.seq.pollAt = some (k, p))
    (hm : s.pollMove k p = (.stay q, t)) : s.advance = (t.goto (s.seq.movePoll q)).withRet .ok := by
  unfold Seq.pollAt at h
  unfold State.advance
  split at h <;> cases h <;> simp only [*, State.advanceWrite, State.advanceRead] <;> rfl

theorem pollMove_miss {s : State} {k : PollKind} {b : Byte} (hret : s.ret = .byte b)
    (hmiss : pollHit k.mask k.want b = false) : s.pollMove k .get = (.stay .dly, (s.latchStatus b).countAttempt) := by
  simp [State.pollMove, hret, hmiss]

/-- Settles O26: each row is its call under the oracle and a move that stays. -/
theorem pollRows : Obligations.PollRows := by
  intro s k b hr hb
  refine ⟨fun hp ht => ?_, fun hp hx hmiss => ?_, fun hp hcnt => ?_⟩
  · exact ⟨_, (step_send hr hb (issue_pollAt hp) rfl ht).trans (congrArg _ (advance_stay hp rfl)), rfl, rfl⟩
  · exact ⟨_, (step_recv hr hb (issue_pollAt hp) rfl hx).trans
      (congrArg _ (advance_stay hp (pollMove_miss rfl hmiss))), rfl, rfl⟩
  · exact ⟨_, (step_delay hr hb (issue_pollAt hp)).trans (congrArg _ (advance_stay hp (if_neg hcnt))), rfl, rfl, rfl⟩

end Sys2Proof.Machine
end

section
/-! SUPPORT and proof of the statement that the machine, stepped call by call, comes to what the pseudocode of a command
gives (R160, R165, R180, R185, R195, R212). -/

namespace Sys2Proof.Machine

/-- A command run in one piece and completed: the response of its last result (R104, R106). -/
def Run.complete (c : EndCtx) (x : Run) : Except Fault State :=
  match x with
  | .error f => .error f
  | .ok (r, t) => .ok (t.complete c r.code)

theorem Ret.code_of_failure {r : Ret} {f : Failure} (h : r.failure = some f) : r.code = f.code := by
  rw [Ret.code, h]

theorem Ret.code_of_ok {r : Ret} (h : r.failure = none) : r.code = codeOk := by
  rw [Ret.code, h]

/-- A command that answers with a status alone is completed by its response (R106). -/
theorem Run.respond_eq_complete {c : EndCtx} (hc : ∀ r : Regs, c.data r = .nothing) (x : Run) :
    x.respond = x.complete c := by
  rcases x with f | ⟨r, t⟩
  · rfl
  · exact congrArg _ (t.complete_nothing r.code (hc t.regs)).symm

/-- A command that answers with data when it ends Ok, and with a status alone when it fails (R106). -/
theorem Run.complete_ok {c : EndCtx} {r : Ret} {t : State} :
    Run.complete c (.ok (r, t)) =
      .ok (if r.failure.isSome then t.respond r.code .nothing else t.respond codeOk (c.data t.regs)) := by
  cases hf : r.failure with
  | none => simp only [Run.complete, Ret.code_of_ok hf, State.complete]; rfl
  | some f =>
    rw [Run.complete, Ret.code_of_failure hf, State.complete_failed _ f.code_ne_ok]; rfl

theorem pseudoCommand_wrvr (s : State) (a : VAddr) (d : Byte) :
    s.pseudoCommand (.wrvr a d) = some (((s.latchOp 0).pseudoWrvr a d).complete .wrvr) :=
  congrArg some (Run.respond_eq_complete (fun _ => rfl) _)

theorem pseudoCommand_rdvr (s : State) (a : VAddr) :
    s.pseudoCommand (.rdvr a) = some (((s.latchOp 1).pseudoRdvr a).complete .rdvr) := by
  simp only [State.pseudoCommand]
  cases (s.latchOp 1).pseudoRdvr a with
  | error f => rfl
  | ok p => rw [Run.complete_ok]; rfl

theorem pseudoCommand_seldev (s : State) {id : BitVec 2} (hid : id ≠ 3) :
    s.pseudoCommand (.seldev id) = some (((s.latchOp 2).pseudoSeldev id).complete .seldev) := by
  rw [← Run.respond_eq_complete fun _ => rfl]
  exact congrArg some (if_neg hid)

theorem pseudoCommand_rdflt (s : State) {base : VAddr} (hbase : base.toNat ≤ 0x7C) :
    s.pseudoCommand (.rdflt base) = some (((s.latchOp 3).pseudoRdflt base).complete .rdflt) := by
  simp only [State.pseudoCommand, hbase, if_true]
  cases (s.latchOp 3).pseudoRdflt base with
  | error f => rfl
  | ok p => rw [Run.complete_ok]; rfl

/-- A run that ends in its command's end position is completed by one more step. -/
theorem reaches_complete {c : EndCtx} {n : Nat} {s : State} {x : Run}
    (h : Reaches n s (close (State.endWith c codeOk) (fun f t => t.endWith c f.code) x))
    (hx : ∀ r t, x = .ok (r, t) → t.ret = .ok ∧ t.resetReq = false) : Reaches (n + 1) s (x.complete c) := by
  rcases x with f | ⟨r, t⟩
  · exact reaches_mono h (Nat.le_succ n)
  · obtain ⟨hret, hr⟩ := hx r t rfl
    have ended : close (State.endWith c codeOk) (fun f t => t.endWith c f.code) (.ok (r, t)) =
        .ok (t.endWith c r.code) := by
      have kept (k : BitVec 2) : (t.endWith c k).withRet .ok = t.endWith c k := withRet_self hret
      cases hf : r.failure with
      | none => simp only [close, hf, kept, Ret.code_of_ok hf]
      | some f => simp only [close, hf, kept, Ret.code_of_failure hf]
    exact reaches_trans (ended ▸ h) (ending_runs t c r.code hr)

/-- A command that is one virtual-register write (WRVR, SELDEV). -/
theorem write_completes {c : WCtx} {e : EndCtx} (hdone : State.doneWrite c = State.endWith e codeOk)
    (hfail : (fun f t => State.failWrite c f t) = fun f t => t.endWith e f.code) (a : VAddr) (d : Byte)
    {s : State} (hr : s.resetReq = false) (hret : s.ret = .ok) (hw : s.par.wf = true) :
    Reaches (writeSteps s.par + 1) (s.beginWrite c a d) ((s.pseudoWrvr a d).complete e) := by
  refine reaches_complete (hdone ▸ hfail ▸ write_runs c a d s hr hret hw) fun r t h => ?_
  have frame := pseudoWrvr_opFrame h
  exact ⟨frame.ret.trans hret, frame.rst.trans hr⟩

/-- RDVR (R165). -/
theorem rdvr_completes (a : VAddr) {s : State} (hr : s.resetReq = false) (hret : s.ret = .ok) (hw : s.par.wf = true) :
    Reaches (readSteps s.par + 1) (s.beginRead .rdvr a) ((s.pseudoRdvr a).complete .rdvr) := by
  refine reaches_complete (read_runs .rdvr a s hr hret hw) fun r t h => ?_
  have frame := pseudoRdvr_opFrame h
  exact ⟨frame.ret.trans hret, frame.rst.trans hr⟩

/-- RDFLT (R185). -/
theorem rdflt_completes (base : VAddr) {s : State} (hr : s.resetReq = false) (hret : s.ret = .ok)
    (hw : s.par.wf = true) :
    Reaches (4 * readSteps s.par + 1)
      (State.beginRead (.flt 0) (floatByteAddr base 0) { s with regs := { s.regs with base := base } })
      ((s.pseudoRdflt base).complete .rdflt) := by
  have next (i : Fin 4) (hi : i ≠ 3) (t : State) :
      t.doneRead (.flt i) = (t.mergeRead i).beginRead (.flt (i + 1)) (floatByteAddr t.regs.base (i + 1)) := if_neg hi
  refine reaches_complete (float_runs .flt _ _ next (fun _ => rfl) (fun _ _ _ => rfl) base s hr hret hw) fun r t h => ?_
  obtain ⟨-, tret, treset, -⟩ := pseudoRdflt_frame h
  exact ⟨tret.trans hret, treset.trans hr⟩

/-- RDALL (R195). -/
theorem rdall_completes {s : State} {x : Except Fault State} (hx : s.pseudoCommand .rdall = some x)
    (hr : s.resetReq = false) (hw : s.par.wf = true) :
    Reaches (3 * writeSteps s.par + 72 * readSteps s.par + 1)
      (State.startDie 0 { s.latchOp 4 with regs := { (s.latchOp 4).regs with fail := 0 } }) x := by
  have sweep := sweep_runs { s.latchOp 4 with regs := { (s.latchOp 4).regs with fail := 0 } } hr rfl hw
  simp only [State.pseudoCommand, State.pseudoRdall] at hx
  cases hx
  cases hdies : pseudoDies [0, 1, 2] { s.latchOp 4 with regs := { (s.latchOp 4).regs with fail := 0 } } with
  | error f => rw [hdies] at sweep; exact reaches_mono sweep (Nat.le_succ _)
  | ok t =>
    rw [hdies, thenDo, withRet_self (s := t.endWith .rdall codeOk) (pseudoDies_ret hdies)] at sweep
    exact reaches_trans sweep (ending_runs t .rdall codeOk ((pseudoDies_rst hdies).trans hr))

/-- Settles O36: a refused command is done where it is accepted, the others are runs of their handshakes with the
completion after them. -/
theorem commandRefinesPseudocode : Obligations.CommandRefinesPseudocode := by
  intro i s s1 x hs hr hw hx h
  change Reaches (stepBound s.par i) s1 x
  have refused : Reaches 0 s.refuse (.ok s.refuse) := reaches_zero
  cases i with
  | wrvr a d =>
    simp only [exec, execWrvr, present_idle hs] at h
    rw [pseudoCommand_wrvr] at hx
    cases h; cases hx
    exact write_completes rfl rfl a d (s := s.latchOp 0) hr rfl hw
  | rdvr a =>
    simp only [exec, execRdvr, present_idle hs] at h
    rw [pseudoCommand_rdvr] at hx
    cases h; cases hx
    exact rdvr_completes a (s := s.latchOp 1) hr rfl hw
  | seldev id =>
    simp only [exec, execSeldev, present_idle hs] at h
    by_cases hid : id = 3
    · simp only [State.pseudoCommand, hid, if_true] at h hx
      cases h; cases hx
      exact reaches_mono refused (Nat.zero_le _)
    · rw [pseudoCommand_seldev s hid] at hx
      simp only [hid, if_false] at h
      cases h; cases hx
      exact write_completes rfl rfl _ _ (s := s.latchOp 2) hr rfl hw
  | rdflt base =>
    simp only [exec, execRdflt, present_idle hs] at h
    by_cases hbase : base.toNat ≤ 0x7C
    · rw [pseudoCommand_rdflt s hbase] at hx
      simp only [hbase, if_true] at h
      cases h; cases hx
      exact rdflt_completes base (s := s.latchOp 3) hr rfl hw
    · simp only [State.pseudoCommand, hbase, if_false] at h hx
      cases h; cases hx
      exact reaches_mono refused (Nat.zero_le _)
  | rdall =>
    simp only [exec, execRdall, present_idle hs] at h
    cases h
    exact rdall_completes hx hr hw
  | meas =>
    simp only [exec, execMeas, present_idle hs] at h
    cases h; cases hx
    exact meas_runs (s.latchOp 5) hr rfl hw
  | reserved6 | reserved7 =>
    simp only [exec, execReserved6, execReserved7, present_idle hs] at h
    cases h; cases hx
    exact refused
  | _ => cases hx

end Sys2Proof.Machine
end

section
/-! SUPPORT and proofs of the statements about the rows of the write and the read table (R161, R166). -/

namespace Sys2Proof.Machine

/-! Under the oracle: the row of a poll that hits, of a frame that is sent, of READ's receive. -/

/-- The state in which a poll leaves its receive on a hit: the byte in ST and the attempt counted (R147, R150). -/
def State.pollGot (b : Byte) (s : State) : State := ((s.received (.byte b)).latchStatus b).countAttempt

theorem pollMove_hit {s : State} {k : PollKind} {b : Byte} (hret : s.ret = .byte b) (hit : pollHit k.mask k.want b = true) :
    s.pollMove k .get = (.hit, (s.latchStatus b).countAttempt) := by
  simp [State.pollMove, hret, hit]

/-- A poll that hits goes on as its place says, wherever in the tables it stands (R150). -/
theorem PollSite.step_hit (S : PollSite) {s : State} {b : Byte} (hr : s.resetReq = false) (hb : s.env.bus = .oracle)
    (hs : s.seq = S.at_ .get) (hx : s.env.nextRx = .byte b) (hit : pollHit S.kind.mask S.kind.want b = true) :
    Machine.step s = .next ((S.hit (s.pollGot b)).withRet .ok) := by
  obtain ⟨u, hu⟩ : ∃ u, u = ((s.received (.byte b)).withRet (.byte b)).goto (S.at_ .get) := ⟨_, rfl⟩
  have issued : s.issue = some .get1 := by
    rw [← goto_self s, hs]
    exact S.issue s .get
  have stepped : Machine.step s = .next u.advance := by
    rw [step_recv hr hb issued rfl hx, hu, ← hs]
    rfl
  have moved : u.pollMove S.kind .get = (.hit, (u.latchStatus b).countAttempt) := pollMove_hit (by rw [hu]; rfl) hit
  rw [stepped, hu, S.adv, ← hu, moved]
  exact congrArg _ (hit_fwd S (q := S.at_ .get) (r := .byte b) (by rw [hu]; rfl))

/-- A frame that the bus takes hands SEQ on as its row says (R161, R166). -/
theorem step_sent {s : State} {i : Instr} {bytes : List Byte} {go : State → State} (hr : s.resetReq = false)
    (hb : s.env.bus = .oracle) (hi : s.issue = some i) (he : exec i s = (s.xferTx bytes).finish) (hx : s.env.nextTx = .ok)
    (hgo : ∀ t : State, t.seq = s.seq → t.ret = .ok → t.advance = (go t).withRet .ok) :
    step s = .next ((go ((s.sent bytes .ok).withRet .ok)).withRet .ok) :=
  (step_send hr hb hi he hx).trans (congrArg _ (hgo _ rfl rfl))

/-- The completion that follows an ended command (R23 (d), R104). -/
theorem endsWith_complete {t : State} {c : EndCtx} {k : BitVec 2} (hr : t.resetReq = false) (hs : t.seq = .ending c k) :
    EndsWith t (t.complete c k) k :=
  ⟨step_complete hr hs, rfl, rfl, rfl, rfl, rfl⟩

theorem pollHit_tx_of_clear {b : Byte} (h : txValid b = false) : pollHit PollKind.tx.mask PollKind.tx.want b = true := by
  rw [(pollHit_bits b).1, h]; rfl

theorem issue_writing {s : State} {c : WCtx} {w : WStep} (hs : s.seq = .writing c w) : s.issue = some (w.issue s.regs) := by
  simp only [State.issue, hs]

theorem issue_reading {s : State} {c : RCtx} {r : RStep} (hs : s.seq = .reading c r) : s.issue = some (r.issue s.regs) := by
  simp only [State.issue, hs]

/-- After a byte handed to WRITE in a write, a fresh poll waits for the device to take it (R161). -/
theorem advance_sentByte_writing {t : State} {c : WCtx} (hret : t.ret = .ok) :
    (t.seq = .writing c .wB → t.advance = (t.clearCount.goto (.writing c (.wC .ptr))).withRet .ok) ∧
      (t.seq = .writing c .wD → t.advance = (t.clearCount.goto (.writing c (.wE .ptr))).withRet .ok) := by
  constructor <;> intro hs <;> simp only [State.advance, State.advanceWrite, hs, hret]

/-- The same in a read, and after the pointer frame of READ its receive (R166). -/
theorem advance_sent_reading {t : State} {c : RCtx} (hret : t.ret = .ok) :
    (t.seq = .reading c .rB → t.advance = (t.clearCount.goto (.reading c (.rC .ptr))).withRet .ok) ∧
      (t.seq = .reading c (.rE .ptr) → t.advance = (t.goto (.reading c (.rE .get))).withRet .ok) := by
  constructor <;> intro hs <;> simp only [State.advance, State.advanceRead, hs, hret]

/-- Settles O27: three polls that hit and two bytes sent. -/
theorem writeRows : Obligations.WriteRows := by
  intro s c b hr hb
  refine ⟨fun hs hx h => ?_, fun hs hx => ?_, fun hs hx h => ?_, fun hs hx => ?_, fun hs hc hx h => ?_⟩
  · exact ⟨_, (siteWA c).step_hit hr hb hs hx (pollHit_tx_of_clear h), rfl, rfl⟩
  · exact ⟨_, step_sent hr hb (issue_writing hs) rfl hx fun t ht hret => (advance_sentByte_writing hret).1 (ht.trans hs),
      rfl, rfl, rfl⟩
  · exact ⟨_, (siteWC c).step_hit hr hb hs hx (pollHit_tx_of_clear h), rfl, rfl⟩
  · exact ⟨_, step_sent hr hb (issue_writing hs) rfl hx fun t ht hret => (advance_sentByte_writing hret).2 (ht.trans hs),
      rfl, rfl, rfl⟩
  · have stepped := (siteWE c).step_hit hr hb hs hx (pollHit_tx_of_clear h)
    obtain rfl | rfl := hc <;> exact ⟨_, _, stepped, rfl, rfl, rfl, endsWith_complete hr rfl⟩

/-- Settles O28: three polls that hit, the read command sent, and the two calls of the read of READ. -/
theorem readRows : Obligations.ReadRows := by
  intro s c b hr hb
  refine ⟨fun hs hx h => ?_, fun hs hx => ?_, fun hs hx h => ?_, fun hs hx h => ?_, fun hs hx => ?_, fun hs hx => ?_⟩
  · exact ⟨_, (siteRA c).step_hit hr hb hs hx (pollHit_tx_of_clear h), rfl, rfl⟩
  · rw [← vrdaByte_eq]
    exact ⟨_, step_sent hr hb (issue_reading hs) rfl hx fun t ht hret => (advance_sent_reading hret).1 (ht.trans hs),
      rfl, rfl, rfl⟩
  · exact ⟨_, (siteRC c).step_hit hr hb hs hx (pollHit_tx_of_clear h), rfl, rfl⟩
  · exact ⟨_, (siteRD c).step_hit hr hb hs hx ((pollHit_bits b).2.trans h), rfl, rfl⟩
  · exact ⟨_, step_sent hr hb (issue_reading hs) rfl hx fun t ht hret => (advance_sent_reading hret).2 (ht.trans hs),
      rfl, rfl, rfl⟩
  · have taken : step s = .next ((((s.received (.byte b)).latchRead b).endWith .rdvr codeOk).withRet .ok) := by
      rw [step_recv hr hb (issue_reading hs) rfl hx]
      simp only [State.advance, hs]
      rfl
    exact ⟨_, _, taken, rfl, rfl, rfl, endsWith_complete hr rfl, rfl⟩

end Sys2Proof.Machine
end

section
/-! SUPPORT and proofs of the statements about the traffic of WRVR and RDVR: how many external calls, delays, bytes to
WRITE and accesses to READ a handshake makes under the oracle (R164, R170, R171). -/

namespace Sys2Proof.Machine

/-! What a piece of trace holds. -/

/-- The kinds of event that R164, R170 and R171 count. -/
inductive Traffic where
  | call
  | delay
  | write
  | access

def Traffic.counts (p : Params) : Traffic → Event → Bool
  | .call => Event.isCall
  | .delay => Event.isDelay
  | .write => Event.isWrite p
  | .access => Event.isReadAccess p

/-- The most a poll of `n` attempts makes: two calls and a delay an attempt (R152). -/
def Traffic.ofPoll (n : Nat) : Traffic → Nat
  | .call => 2 * n
  | .delay => n
  | .write | .access => 0

/-- A byte handed to WRITE (R141). -/
def Traffic.ofSend : Traffic → Nat
  | .call | .write => 1
  | .delay | .access => 0

/-- The pointer frame of the register `reg`: an access if that is READ (R113). -/
def Traffic.ofPointer (p : Params) (reg : Byte) : Traffic → Nat
  | .call => 1
  | .delay | .write => 0
  | .access => if reg = p.readReg then 1 else 0

/-- The receive of a byte (R113). -/
def Traffic.ofReceive : Traffic → Nat
  | .call => 1
  | .delay | .write | .access => 0

/-- A delay (R146). -/
def Traffic.ofDelay : Traffic → Nat
  | .delay => 1
  | .call | .write | .access => 0

/-! Runs under the oracle. -/

/-- The oracle answers, under the legal parameter record `p`. -/
structure OnOracle (p : Params) (s : State) : Prop where
  par : s.par = p
  bus : s.env.bus = .oracle
  wf : p.wf = true

/-- The run `x` from `s` ends under the oracle, with no more traffic than `most`; where it ends Ok it has made at least
`least` calls. -/
def Run.Within (p : Params) (most : Traffic → Nat) (least : Nat) (s : State) (x : Run) : Prop :=
  ∃ r t evs, x = .ok (r, t) ∧ OnOracle p t ∧ Grew s t evs ∧ (∀ k, evs.countP (Traffic.counts p k) ≤ most k) ∧
    (r.failure = none → least ≤ callsIn evs)

section
variable {p : Params} {s : State} {x : Run} {most most' : Traffic → Nat} {least least' : Nat}

theorem Run.Within.mono (h : x.Within p most least s) (hm : ∀ k, most k ≤ most' k) (hl : least' ≤ least) :
    x.Within p most' least' s := by
  obtain ⟨r, t, evs, hx, ho, grew, count, calls⟩ := h
  exact ⟨r, t, evs, hx, ho, grew, fun k => (count k).trans (hm k), fun hr => hl.trans (calls hr)⟩

/-- The traffic of a run and of what follows it add up (R12). -/
theorem Run.Within.tryThen {k : Ret → State → Run} (h : x.Within p most least s)
    (hk : ∀ r t, OnOracle p t → (k r t).Within p most' least' t) :
    (x.tryThen k).Within p (most + most') (least + least') s := by
  obtain ⟨r, t, evs, rfl, ho, grew, count, calls⟩ := h
  simp only [Run.tryThen]
  cases hr : r.failure with
  | some f => exact ⟨r, t, evs, rfl, ho, grew, fun k => (count k).trans (Nat.le_add_right _ _), by simp [hr]⟩
  | none =>
    obtain ⟨r', u, evs', hu, ho', grew', count', calls'⟩ := hk r t ho
    refine ⟨r', u, evs' ++ evs, hu, ho', grew'.trans (by rw [grew, List.append_assoc]), fun k => ?_, fun hr' => ?_⟩
    · rw [List.countP_append, Nat.add_comm]
      exact Nat.add_le_add (count k) (count' k)
    · rw [callsIn, List.countP_append, Nat.add_comm least]
      exact Nat.add_le_add (calls' hr') (calls hr)

theorem within_done (ho : OnOracle p s) (r : Ret) : Run.Within p 0 0 s (.ok (r, s)) :=
  ⟨r, s, [], rfl, ho, rfl, fun _ => le_rfl, fun _ => le_rfl⟩

theorem doDelay_within (ho : OnOracle p s) (iv : Interval) :
    Run.Within p Traffic.ofDelay 0 s (.ok (.ok, s.doDelay iv)) := by
  obtain ⟨grew, bus, -⟩ := delay_env s.par iv s.env
  refine ⟨_, _, [_], rfl, ⟨ho.par, bus.trans ho.bus, ho.wf⟩, grew, fun k => ?_, fun _ => Nat.zero_le _⟩
  cases k <;> exact le_rfl

theorem xferTx_within (ho : OnOracle p s) {bytes : List Byte}
    (h : ∀ a k, [Event.transmit 0x49 bytes s.par.xferTimeout a].countP (Traffic.counts p k) ≤ most k) :
    (s.xferTx bytes).Within p most 1 s :=
  ⟨_, _, [_], xferTx_sent ho.bus rfl bytes, ⟨ho.par, ho.bus, ho.wf⟩, rfl, h _, fun _ => le_rfl⟩

theorem pointer_within (ho : OnOracle p s) (reg : Byte) : (s.xferTx [reg]).Within p (Traffic.ofPointer p reg) 1 s := by
  refine xferTx_within ho fun a k => ?_
  cases k with
  | access => simp [Traffic.counts, Traffic.ofPointer, Event.isReadAccess, List.countP_singleton]
  | call | delay | write => exact le_rfl

theorem callWrWrite_within (ho : OnOracle p s) (b : Byte) : (s.callWrWrite b).Within p Traffic.ofSend 1 s := by
  refine xferTx_within ho fun a k => ?_
  cases k with
  | call | write => exact List.countP_le_length
  | delay | access => exact le_rfl

theorem callGet1_within (ho : OnOracle p s) : s.callGet1.Within p Traffic.ofReceive 1 s := by
  refine ⟨_, _, [_], callGet1_received ho.bus rfl, ⟨ho.par, ho.bus, ho.wf⟩, rfl, fun k => ?_, fun _ => le_rfl⟩
  cases k <;> exact le_rfl

/-- A pointed read: its two calls, and the register update (R140, R142). -/
theorem readVia_within (ho : OnOracle p s) (reg : Byte) (upd : Byte → Regs → Regs) :
    (s.readVia reg upd).Within p (Traffic.ofPointer p reg + Traffic.ofReceive) (1 + (1 + 0)) s := by
  refine (pointer_within ho reg).tryThen fun _ t ht => ?_
  refine (callGet1_within ht).tryThen (most' := 0) (least' := 0) fun r u hu => ?_
  cases r with
  | byte b => exact within_done (s := { u with regs := upd b u.regs }) ⟨hu.par, hu.bus, hu.wf⟩ _
  | ok | timeout | busError => exact within_done hu _

/-- A poll keeps within two calls and a delay for each attempt it is allowed, and Ok takes a read of STATUS (R147, R152). -/
theorem pollLoop_within (mask want : Byte) (iv : Interval) (left : Nat) (ho : OnOracle p s) :
    (pollLoop mask want iv left s).Within p (Traffic.ofPoll left) 2 s := by
  induction left generalizing s with
  | zero => exact ⟨.timeout, s, [], rfl, ho, rfl, fun k => Nat.zero_le _, nofun⟩
  | succ left ih =>
    have read := readVia_within ho p.statusReg fun b r => { r with st := b }
    have attempt : (pollLoop mask want iv (left + 1) s).Within p
        (Traffic.ofPointer p p.statusReg + Traffic.ofReceive + (Traffic.ofDelay + Traffic.ofPoll left)) (2 + 0) s := by
      rw [pollLoop, rdstatus_eq_readVia, ho.par]
      refine read.tryThen fun _ u hu => ?_
      have counted : OnOracle p u.countAttempt := ⟨hu.par, hu.bus, hu.wf⟩
      split
      · exact (within_done counted _).mono (fun _ => Nat.zero_le _) le_rfl
      · exact ((doDelay_within counted iv).tryThen fun _ t ht => ih ht).mono (fun _ => le_rfl) (Nat.zero_le _)
    refine attempt.mono (fun k => ?_) le_rfl
    have hne := Params.statusReg_ne_readReg ho.wf
    cases k <;> simp [Traffic.ofPointer, Traffic.ofReceive, Traffic.ofDelay, Traffic.ofPoll, hne] <;> omega

theorem waitReady_within (k : PollKind) (ho : OnOracle p s) :
    (s.waitReady k).Within p (Traffic.ofPoll (k.max p).toNat) 2 s := by
  rw [← ho.par]
  exact pollLoop_within _ _ _ _ (s := s.clearCount) ⟨rfl, ho.bus, ho.par ▸ ho.wf⟩

/-- WRVR: three waits and two bytes (R160, R164). -/
theorem pseudoWrvr_within (a : VAddr) (d : Byte) (ho : OnOracle p s) :
    (s.pseudoWrvr a d).Within p (Traffic.ofPoll p.txPollMax.toNat + (Traffic.ofSend + (Traffic.ofPoll p.txPollMax.toNat +
      (Traffic.ofSend + Traffic.ofPoll p.txPollMax.toNat)))) (2 + (1 + (2 + (1 + 2)))) s := by
  refine (waitReady_within .tx (s := s.loadWrite a d) ⟨ho.par, ho.bus, ho.wf⟩).tryThen fun _ t ht => ?_
  refine (callWrWrite_within ht _).tryThen fun _ t ht => ?_
  refine (waitReady_within .tx ht).tryThen fun _ t ht => ?_
  exact (callWrWrite_within ht _).tryThen fun _ t ht => waitReady_within .tx ht

/-- RDVR: three waits, a byte, and the read of READ (R165, R170). -/
theorem pseudoRdvr_within (a : VAddr) (ho : OnOracle p s) :
    (s.pseudoRdvr a).Within p (Traffic.ofPoll p.txPollMax.toNat + (Traffic.ofSend + (Traffic.ofPoll p.txPollMax.toNat +
      (Traffic.ofPoll p.rxPollMax.toNat + (Traffic.ofPointer p p.readReg + Traffic.ofReceive)))))
      (2 + (1 + (2 + (2 + 2)))) s := by
  refine (waitReady_within .tx (s := s.loadRead a) ⟨ho.par, ho.bus, ho.wf⟩).tryThen fun _ t ht => ?_
  refine (callWrWrite_within ht _).tryThen fun _ t ht => ?_
  refine (waitReady_within .tx ht).tryThen fun _ t ht => ?_
  refine (waitReady_within .rx ht).tryThen fun _ t ht => ?_
  rw [rdread_eq_readVia, ht.par]
  exact readVia_within ht _ _

end

/-! The command around its handshake. -/

theorem response_wrvr {u : State} (hop : u.regs.op = 0) : (u.complete .wrvr codeOk).response = .ok := by
  simp [State.response, hop, codeOk]

theorem response_rdvr {u : State} (hop : u.regs.op = 1) : (u.complete .rdvr codeOk).response = .okByte u.regs.rx := by
  simp [State.response, hop, codeOk, EndCtx.data]

/-- A command whose run ends is completed with its result. -/
theorem command_completes {i : Instr} {s s1 u : State} {c : EndCtx} {x : Run} {r : Ret} (hs : s.seq = .idle)
    (hr : s.resetReq = false) (hw : s.par.wf = true) (hx : s.pseudoCommand i = some (x.complete c))
    (h : exec i s = .next s1) (hu : x = .ok (r, u)) : ∃ n, runs n s1 = .next (u.complete c r.code) := by
  obtain ⟨n, -, hn⟩ := commandRefinesPseudocode i s s1 _ hs hr hw hx h
  subst hu
  exact ⟨n, hn⟩

/-- A command that ends within its traffic, from acceptance to response: the response is one event more, and OK answers an
Ok of the run. -/
theorem command_traffic {i : Instr} {s s1 : State} {c : EndCtx} {x : Run} {most : Traffic → Nat} {least : Nat}
    (hs : s.seq = .idle) (hr : s.resetReq = false) (hw : s.par.wf = true)
    (hx : s.pseudoCommand i = some (x.complete c)) (h : exec i s = .next s1) (h1 : s1.env = s.env)
    (hin : x.Within s.par most least s) :
    ∃ n t evs, runs n s1 = .next t ∧ t.seq = .idle ∧ Grew s1 t (.done t.rsp.status :: evs) ∧
      (∀ k, evs.countP (Traffic.counts s.par k) ≤ most k) ∧
      (t.rsp.status = 0 → least ≤ callsIn evs ∧
        ∃ r u, x = .ok (r, u) ∧ r.failure = none ∧ Grew s u evs ∧ t = u.complete c codeOk) := by
  obtain ⟨r, u, evs, hu, -, grew, count, calls⟩ := hin
  obtain ⟨n, hn⟩ := command_completes hs hr hw hx h hu
  refine ⟨n, u.complete c r.code, evs, hn, rfl, ?_, count, fun hok => ?_⟩
  · exact (congrArg (Event.done r.code :: ·) grew).trans (by rw [h1]; rfl)
  · cases hf : r.failure with
    | none => exact ⟨calls hf, r, u, hu, hf, grew, by rw [Ret.code_of_ok hf]⟩
    | some f => exact absurd ((Ret.code_of_failure hf).symm.trans hok) f.code_ne_ok

/-- A run that ended Ok ended each of its pieces Ok (R12). -/
theorem tryThen_done {x : Run} {k : Ret → State → Run} {r : Ret} {t : State} (h : x.tryThen k = .ok (r, t))
    (hr : r.failure = none) : ∃ r' u, x = .ok (r', u) ∧ r'.failure = none ∧ k r' u = .ok (r, t) := by
  obtain ⟨r', u, hx, ⟨hf, rfl, -⟩ | ⟨hf, hk⟩⟩ := tryThen_ok h
  · simp [hr] at hf
  · exact ⟨r', u, hx, hf, hk⟩

/-- A frame that is answered stands on the trace with its answer. -/
theorem xferTx_trace {s t : State} {bytes : List Byte} {r : Ret} (h : s.xferTx bytes = .ok (r, t)) :
    ∃ a, r = a.ret ∧ t.env.trace = .transmit Config.devAddr7 bytes s.par.xferTimeout a :: s.env.trace := by
  unfold State.xferTx at h
  rcases ht : s.env.transmit s.par bytes with f | ⟨a, e⟩ <;> rw [ht] at h <;> cases h
  exact ⟨a, rfl, (transmit_env ht).1⟩

/-- A receive that is answered stands on the trace with its answer. -/
theorem xferRx_trace {s t : State} {n : Nat} {r : Ret} (h : s.xferRx n = .ok (r, t)) :
    ∃ a, r = a.ret ∧ t.env.trace = .receive Config.devAddr7 n s.par.xferTimeout a :: s.env.trace := by
  unfold State.xferRx at h
  rcases hx : s.env.receive s.par n with f | ⟨a, e⟩ <;> rw [hx] at h <;> cases h
  exact ⟨a, rfl, (receive_env hx).1⟩

/-- A STATUS read that ended Ok stands on the trace, with the byte that is in ST (R140). -/
theorem rdstatus_statusRead {s u : State} {r : Ret} {good : Byte → Bool} (h : s.rdstatus = .ok (r, u))
    (hr : r.failure = none) (hgood : good u.regs.st = true) : statusRead s.par good u.env.trace = true := by
  obtain ⟨r1, t, h1, hr1, h⟩ := tryThen_done h hr
  obtain ⟨r2, v, h2, hr2, h⟩ := tryThen_done h hr
  obtain ⟨a1, rfl, ht⟩ := xferTx_trace h1
  obtain ⟨a2, rfl, hv⟩ := xferRx_trace h2
  cases a1 with
  | busError => cases hr1
  | ok =>
    cases a2 with
    | busError => cases hr2
    | byte b =>
      cases h
      simpa [statusRead, hv, ht] using hgood

/-- A poll that ends Ok ends on a STATUS read that passes its test (R147). -/
theorem pollLoop_statusRead {k : PollKind} {iv : Interval} {left : Nat} {s t : State} {r : Ret}
    (h : pollLoop k.mask k.want iv left s = .ok (r, t)) (hr : r.failure = none) :
    statusRead t.par k.passed t.env.trace = true := by
  induction left generalizing s with
  | zero => cases h; cases hr
  | succ left ih =>
    obtain ⟨r1, u, hread, hr1, h⟩ := tryThen_done h hr
    split at h
    next hit =>
      cases h
      have := rdstatus_statusRead hread hr1 (PollKind.passed_of_pollHit hit)
      rwa [← (rdstatus_pollFrame hread).par] at this
    · exact ih h

/-- WRVR ends Ok on a STATUS read with TX_VALID clear (R171 (P5)). -/
theorem pseudoWrvr_statusRead {s t : State} {a : VAddr} {d : Byte} {r : Ret} (h : s.pseudoWrvr a d = .ok (r, t))
    (hr : r.failure = none) : statusRead s.par (fun b => !txValid b) t.env.trace = true := by
  rw [← (pseudoWrvr_opFrame h).par]
  obtain ⟨_, _, -, -, h⟩ := tryThen_done h hr
  obtain ⟨_, _, -, -, h⟩ := tryThen_done h hr
  obtain ⟨_, _, -, -, h⟩ := tryThen_done h hr
  obtain ⟨_, _, -, -, h⟩ := tryThen_done h hr
  exact pollLoop_statusRead (k := .tx) h hr

/-- The newest two events of a trace are those of the piece it grew by, if that holds two. -/
theorem statusRead_of_append {p : Params} {good : Byte → Bool} {evs tr : List Event} (hlen : 2 ≤ evs.length)
    (h : statusRead p good (evs ++ tr) = true) : statusRead p good evs = true := by
  obtain _ | ⟨e, _ | ⟨e', evs⟩⟩ := evs
  · simp at hlen
  · simp at hlen
  · unfold statusRead at h
    split at h
    next heq =>
      obtain ⟨rfl, rfl, -⟩ : _ ∧ _ ∧ _ := by simpa using heq
      exact h
    · cases h

/-- Settles O40: the traffic of the write, and its last STATUS read as the newest of its own events. -/
theorem writeTraffic : Obligations.WriteTraffic := by
  intro s s1 a d hs hr hw hb h
  have h1 : s1.env = s.env := by
    simp only [exec, execWrvr, present_idle hs] at h
    cases h; rfl
  obtain ⟨n, t, evs, hn, ht, grew, count, hok⟩ := command_traffic hs hr hw (pseudoCommand_wrvr s a d) h h1
    (pseudoWrvr_within a d (s := s.latchOp 0) ⟨rfl, hb, hw⟩)
  have hcalls := count .call
  have hdelays := count .delay
  simp only [Pi.add_apply, Traffic.ofPoll, Traffic.ofSend] at hcalls hdelays
  refine ⟨n, t, evs, hn, ht, grew, ?_, ?_, count .write, Nat.le_zero.mp (count .access), fun h0 => ?_⟩
  · exact hcalls.trans (by omega)
  · exact hdelays.trans (by omega)
  obtain ⟨hleast, r, u, hu, hf, grew', -⟩ := hok h0
  refine ⟨hleast, ?_⟩
  have hread := pseudoWrvr_statusRead hu hf
  rw [grew'] at hread
  exact statusRead_of_append (le_trans (by omega) (hleast.trans List.countP_le_length)) hread

/-- Settles O41: the traffic of the read, and its byte in RX. -/
theorem readTraffic : Obligations.ReadTraffic := by
  intro s s1 a hs hr hw hb h
  have h1 : s1.env = s.env := by
    simp only [exec, execRdvr, present_idle hs] at h
    cases h; rfl
  obtain ⟨n, t, evs, hn, ht, grew, count, hok⟩ := command_traffic hs hr hw (pseudoCommand_rdvr s a) h h1
    (pseudoRdvr_within a (s := s.latchOp 1) ⟨rfl, hb, hw⟩)
  have hcalls := count .call
  have hdelays := count .delay
  have haccess := count .access
  simp only [Pi.add_apply, Traffic.ofPoll, Traffic.ofSend, Traffic.ofPointer, Traffic.ofReceive] at hcalls hdelays haccess
  refine ⟨n, t, evs, hn, ht, grew, ?_, ?_, count .write, ?_, fun h0 => ?_⟩
  · exact hcalls.trans (by omega)
  · exact hdelays.trans (by omega)
  · exact haccess.trans (by simp)
  obtain ⟨hleast, r, u, hu, hf, -, rfl⟩ := hok h0
  have hop : u.regs.op = 1 := by rw [(pseudoRdvr_opFrame hu).regs]; rfl
  exact ⟨hleast, response_rdvr hop⟩

end Sys2Proof.Machine
end

section
/-! SUPPORT and proof of the statement that on the reference device a byte written is the byte read back (R172): the waits,
the two handshakes and the device they leave (R88, R160, R165). -/

namespace Sys2Proof.Machine

/-! The sensor of the reference device. -/

/-- The device is between transactions, with the die `d` selected and the register file `m` (R45, R48). -/
structure Sensor.Between (d : Die) (m : Memory) (x : Sensor) : Prop where
  pend : x.pend = .none
  sel : x.sel = d
  vreg : x.vreg = m

/-- The sensor that WAITTX leaves: the pointer at STATUS, the pending byte taken, a read result one read nearer (R88). -/
def Sensor.drained (p : Params) (x : Sensor) : Sensor :=
  { x with ptr := p.statusReg, tc := 0, rc := if x.rdv then x.rc - 1 else x.rc }

theorem Sensor.Between.drained {d : Die} {m : Memory} {x : Sensor} (h : x.Between d m) (p : Params) :
    (x.drained p).Between d m :=
  ⟨h.pend, h.sel, h.vreg⟩

theorem Sensor.tick_pending {x : Sensor} (h : x.tc ≠ 0) : x.tick = { x with tc := x.tc - 1 } :=
  if_pos (Nat.pos_of_ne_zero h)

theorem Sensor.tick_taken {x : Sensor} (h : x.tc = 0) : x.tick = { x with rc := if x.rdv then x.rc - 1 else x.rc } := by
  obtain ⟨ptr, statusHi, write, read, rdv, pend, sel, vreg, tc, rc, bc⟩ := x
  cases rdv <;> cases rc <;> simp_all [Sensor.tick]

section
variable {p : Params} {rd : RefDevice} {x : Sensor} {a : VAddr}

/-- The write command byte of `a` (R84, R115). -/
theorem Sensor.takeByte_vwra (h : x.pend = .none) : x.takeByte p rd (vwraByte a) = .ok { x with pend := .writeTo a } := by
  have bits : ∀ a : VAddr, (vwraByte a).getLsbD 7 = true ∧ (vwraByte a).extractLsb' 0 7 = a := by decide
  rw [Sensor.takeByte_writeCommand h (bits a).1, (bits a).2]

/-- The read command byte of a register that is simply read (R83, R116). -/
theorem Sensor.takeByte_vrda (h : x.pend = .none) (ha : ∀ nb, rd.busy = .times nb → a ≠ p.controlSetupVaddr) :
    x.takeByte p rd (vrdaByte a) =
      .ok { x with read := Memory.read x.vreg (vregAddr x.sel a), rdv := true, rc := rd.lr } := by
  have bits : ∀ a : VAddr, (vrdaByte a).getLsbD 7 = false ∧ (vrdaByte a).extractLsb' 0 7 = a := by decide
  rw [Sensor.takeByte_readCommand h (bits a).1, (bits a).2, Sensor.takeRead, Sensor.settleBusy_plain ha]

end

/-! Runs on the device. -/

/-- The reference device answers, its sensor is `x`, and the parameters are `p`. -/
structure OnDevice (rd : RefDevice) (p : Params) (x : Sensor) (s : State) : Prop where
  par : s.par = p
  bus : s.env.bus = .reference rd
  sensor : s.env.sensor = x

/-- A delay passes the device by (log entry 9). -/
theorem doDelay_onDevice {rd : RefDevice} {p : Params} {x : Sensor} {s : State} (h : OnDevice rd p x s)
    (iv : Interval) : OnDevice rd p x (s.doDelay iv) := by
  obtain ⟨rfl, hb, rfl⟩ := h
  refine ⟨rfl, ?_, ?_⟩ <;> simp only [State.doDelay_env, Env.delay, hb, Env.log]

/-- A piece that ended Ok goes on to the next (R12). -/
theorem tryThen_of_done {x : Run} {k : Ret → State → Run} {r : Ret} {t : State} (h : x = .ok (r, t))
    (hr : r.failure = none) : x.tryThen k = k r t := by
  simp [h, Run.tryThen, hr]

section
variable {rd : RefDevice} {p : Params} {x y : Sensor} {s : State} (hf : rd.failAt = []) (h : OnDevice rd p x s)
include hf h

theorem xferTx_onDevice {bytes : List Byte} (hx : x.transmit p rd bytes = .ok y) :
    ∃ t, s.xferTx bytes = .ok (.ok, t) ∧ OnDevice rd p y t := by
  obtain ⟨rfl, hb, rfl⟩ := h
  simp only [State.xferTx, Env.transmit, Env.nextFails, hb, hf, hx]
  exact ⟨_, rfl, rfl, rfl, rfl⟩

theorem callGet1_onDevice {b : Byte} (hx : x.receive p 1 = .ok (b, y)) :
    ∃ t, s.callGet1 = .ok (.byte b, t) ∧ OnDevice rd p y t := by
  obtain ⟨rfl, hb, rfl⟩ := h
  simp only [State.callGet1, State.xferRx, Env.receive, Env.nextFails, hb, hf, hx]
  exact ⟨_, rfl, rfl, rfl, rfl⟩

/-- A pointed read takes what the device answers at that pointer (R140, R142). -/
theorem readVia_onDevice {reg b : Byte} {upd : Byte → Regs → Regs}
    (hx : Sensor.receive p 1 { x with ptr := reg } = .ok (b, y)) :
    ∃ t, s.readVia reg upd = .ok (.byte b, t) ∧ OnDevice rd p y t ∧ t.regs = upd b s.regs := by
  obtain ⟨t, ht, hdt⟩ := xferTx_onDevice hf h (bytes := [reg]) rfl
  obtain ⟨u, hu, hdu⟩ := callGet1_onDevice hf hdt hx
  obtain ⟨_, rfl, -⟩ := xferTx_ok ht
  obtain ⟨_, rfl, -⟩ := xferRx_ok hu
  exact ⟨_, (tryThen_of_done ht rfl).trans (tryThen_of_done hu rfl), ⟨hdu.par, hdu.bus, hdu.sensor⟩, rfl⟩

/-- An attempt of a poll tests the STATUS byte of the device and uses up a read (R88, R147). -/
theorem pollLoop_onDevice (mask want : Byte) (iv : Interval) (left : Nat) :
    ∃ u, pollLoop mask want iv (left + 1) s =
        (if pollHit mask want x.rdStatusByte then .ok (.ok, u) else pollLoop mask want iv left (u.doDelay iv)) ∧
      OnDevice rd p (Sensor.tick { x with ptr := p.statusReg }) u := by
  obtain ⟨t, ht, hd, hregs⟩ := readVia_onDevice hf h (upd := fun b r => { r with st := b }) (reg := p.statusReg)
    (Sensor.receive_status rfl)
  refine ⟨t.countAttempt, ?_, ⟨hd.par, hd.bus, hd.sensor⟩⟩
  rw [pollLoop, rdstatus_eq_readVia, h.par, tryThen_of_done ht rfl]
  have hst : t.countAttempt.regs.st = x.rdStatusByte := by rw [State.countAttempt_regs, hregs]; rfl
  rw [hst]

/-- The loop of WAITTX ends Ok when the pending byte is taken within the attempts (R148). -/
theorem pollLoop_tx_onDevice (iv : Interval) {left : Nat} (hl : x.tc < left) :
    ∃ t, pollLoop PollKind.tx.mask PollKind.tx.want iv left s = .ok (.ok, t) ∧ OnDevice rd p (x.drained p) t := by
  induction left generalizing x s with
  | zero => cases hl
  | succ left ih =>
    obtain ⟨u, hu, hd⟩ := pollLoop_onDevice hf h PollKind.tx.mask PollKind.tx.want iv left
    rw [(pollHit_bits _).1, x.rdStatusByte_bits.2.1] at hu
    by_cases htc : x.tc = 0
    · rw [Sensor.tick_taken (x := { x with ptr := p.statusReg }) htc] at hd
      refine ⟨u, by simpa [htc] using hu, ?_⟩
      rw [Sensor.drained, ← htc]
      exact hd
    · rw [Sensor.tick_pending (x := { x with ptr := p.statusReg }) htc] at hd
      obtain ⟨t, ht, hdt⟩ := ih (doDelay_onDevice hd iv) (by dsimp only; omega)
      exact ⟨t, by simpa [htc, ht] using hu, hdt⟩

/-- The loop of WAITRX ends Ok when the read result is ready within the attempts (R149). -/
theorem pollLoop_rx_onDevice (iv : Interval) {left : Nat} (htc : x.tc = 0) (hrdv : x.rdv = true) (hl : x.rc < left) :
    ∃ t, pollLoop PollKind.rx.mask PollKind.rx.want iv left s = .ok (.ok, t) ∧
      OnDevice rd p { x with ptr := p.statusReg, rc := 0 } t := by
  induction left generalizing x s with
  | zero => cases hl
  | succ left ih =>
    obtain ⟨u, hu, hd⟩ := pollLoop_onDevice hf h PollKind.rx.mask PollKind.rx.want iv left
    rw [(pollHit_bits _).2, x.rdStatusByte_bits.2.2] at hu
    rw [Sensor.tick_taken (x := { x with ptr := p.statusReg }) htc] at hd
    rw [if_pos hrdv] at hd
    by_cases hrc : x.rc = 0
    · refine ⟨u, by simpa [Sensor.ready, htc, hrdv, hrc] using hu, ?_⟩
      rwa [show x.rc - 1 = 0 by omega] at hd
    · obtain ⟨t, ht, hdt⟩ := ih (doDelay_onDevice hd iv) htc hrdv (by dsimp only; omega)
      exact ⟨t, by simpa [Sensor.ready, htc, hrdv, hrc, ht] using hu, hdt⟩

theorem waitTx_onDevice (htc : x.tc < p.txPollMax.toNat) :
    ∃ t, s.waitReady .tx = .ok (.ok, t) ∧ OnDevice rd p (x.drained p) t := by
  rw [← h.par] at htc
  exact pollLoop_tx_onDevice (s := s.clearCount) hf ⟨h.par, h.bus, h.sensor⟩ _ htc

theorem waitRx_onDevice (htc : x.tc = 0) (hrdv : x.rdv = true) (hrc : x.rc < p.rxPollMax.toNat) :
    ∃ t, s.waitReady .rx = .ok (.ok, t) ∧ OnDevice rd p { x with ptr := p.statusReg, rc := 0 } t := by
  rw [← h.par] at hrc
  exact pollLoop_rx_onDevice (s := s.clearCount) hf ⟨h.par, h.bus, h.sensor⟩ _ htc hrdv hrc

/-- A byte handed to WRITE once the byte before it is taken (R86, R88). -/
theorem callWrWrite_onDevice {b : Byte} (htc : x.tc = 0) (hy : (x.withWrite p rd b).takeByte p rd b = .ok y) :
    ∃ t, s.callWrWrite b = .ok (.ok, t) ∧ OnDevice rd p y t := by
  unfold State.callWrWrite
  rw [h.par]
  exact xferTx_onDevice hf h ((Sensor.transmit_write htc).trans hy)

/-- WRVR on a device fast enough for its waits ends Ok and leaves the device between transactions; `hdata` says what its
data byte does there, a store or a selection (R160, R84, R85). -/
theorem pseudoWrvr_onDevice {sel sel' : Die} {m m' : Memory} {a : VAddr} {d : Byte} (hx : x.Between sel m)
    (htc : x.tc < p.txPollMax.toNat) (hlt : rd.lt < p.txPollMax.toNat)
    (hdata : ∀ y : Sensor, y.pend = .writeTo a → y.sel = sel → y.vreg = m →
      ∃ z, y.takeByte p rd d = .ok z ∧ z.tc = y.tc ∧ z.Between sel' m') :
    ∃ y t, s.pseudoWrvr a d = .ok (.ok, t) ∧ OnDevice rd p y t ∧ y.tc = 0 ∧ y.Between sel' m' := by
  obtain ⟨t1, h1, d1⟩ := waitTx_onDevice (s := s.loadWrite a d) hf ⟨h.par, h.bus, h.sensor⟩ htc
  have ha : t1.regs.a = a := by rw [(waitReady_pollFrame h1).regs]; rfl
  obtain ⟨t2, h2, d2⟩ := callWrWrite_onDevice (b := vwraByte t1.regs.a) hf d1 rfl
    (by rw [ha]; exact Sensor.takeByte_vwra hx.pend)
  obtain ⟨t3, h3, d3⟩ := waitTx_onDevice hf d2 hlt
  have hdreg : t3.regs.d = d := by
    rw [(waitReady_pollFrame h3).regs, (xferTx_pollFrame h2).regs, (waitReady_pollFrame h1).regs]; rfl
  have taken : t3.env.sensor.tc = 0 ∧ t3.env.sensor.pend = .writeTo a ∧ t3.env.sensor.sel = sel ∧
      t3.env.sensor.vreg = m := by
    rw [d3.sensor]
    exact ⟨rfl, rfl, hx.sel, hx.vreg⟩
  obtain ⟨htc3, hpend3, hsel3, hvreg3⟩ := taken
  obtain ⟨z, hz, hztc, hzb⟩ := hdata (t3.env.sensor.withWrite p rd d) hpend3 hsel3 hvreg3
  obtain ⟨t4, h4, d4⟩ := callWrWrite_onDevice (b := t3.regs.d) hf ⟨d3.par, d3.bus, rfl⟩ htc3 (by rw [hdreg]; exact hz)
  obtain ⟨t5, h5, d5⟩ := waitTx_onDevice hf d4 (hztc.trans_lt hlt)
  exact ⟨_, t5, (tryThen_of_done h1 rfl).trans ((tryThen_of_done h2 rfl).trans ((tryThen_of_done h3 rfl).trans
    ((tryThen_of_done h4 rfl).trans h5))), d5, rfl, hzb.drained p⟩

/-- RDVR on a device fast enough for its waits answers the register's value (R165). -/
theorem pseudoRdvr_onDevice {sel : Die} {m : Memory} {a : VAddr} (hw : p.wf = true) (hx : x.Between sel m)
    (htc : x.tc < p.txPollMax.toNat) (hlt : rd.lt < p.txPollMax.toNat) (hlr : rd.lr ≤ p.rxPollMax.toNat)
    (ha : ∀ nb, rd.busy = .times nb → a ≠ p.controlSetupVaddr) :
    ∃ t, s.pseudoRdvr a = .ok (.byte (Memory.read m (vregAddr sel a)), t) ∧
      t.regs.rx = Memory.read m (vregAddr sel a) := by
  obtain ⟨hpend, rfl, rfl⟩ := hx
  have hmax : 0 < p.rxPollMax.toNat := Nat.pos_of_ne_zero fun h0 => wf_max hw .rx (BitVec.eq_of_toNat_eq h0)
  obtain ⟨t1, h1, d1⟩ := waitTx_onDevice (s := s.loadRead a) hf ⟨h.par, h.bus, h.sensor⟩ htc
  have hareg : t1.regs.a = a := by rw [(waitReady_pollFrame h1).regs]; rfl
  obtain ⟨t2, h2, d2⟩ := callWrWrite_onDevice (b := vrdaByte t1.regs.a) hf d1 rfl
    (by rw [hareg]; exact Sensor.takeByte_vrda hpend ha)
  obtain ⟨t3, h3, d3⟩ := waitTx_onDevice hf d2 hlt
  obtain ⟨t4, h4, d4⟩ := waitRx_onDevice hf d3 rfl rfl (show rd.lr - 1 < _ by omega)
  obtain ⟨t5, h5, -, h5regs⟩ := readVia_onDevice hf d4 (reg := p.readReg) (upd := fun b r => { r with rx := b })
    (Sensor.receive_read hw rfl)
  refine ⟨t5, (tryThen_of_done h1 rfl).trans ((tryThen_of_done h2 rfl).trans ((tryThen_of_done h3 rfl).trans
    ((tryThen_of_done h4 rfl).trans ?_))), by rw [h5regs]; rfl⟩
  rw [rdread_eq_readVia, d4.par]
  exact h5

end

/-! The two commands. -/

/-- Settles O55: the write leaves the device between transactions with the byte in the file, and the read finds it there. -/
theorem writeThenReadRoundTrip : Obligations.WriteThenReadRoundTrip := by
  intro s rd a d hs hr hw hb hf hlt hlr hpend htc hwf ha hplain
  have hdata (y : Sensor) (hy : y.pend = .writeTo a) (hsel : y.sel = s.env.sensor.sel) (hvreg : y.vreg = s.env.sensor.vreg) :
      ∃ z, y.takeByte s.par rd d = .ok z ∧ z.tc = y.tc ∧ z.Between s.env.sensor.sel
        (Memory.write s.env.sensor.vreg (vregAddr s.env.sensor.sel a) d) :=
    ⟨_, Sensor.takeByte_store hy ha, rfl, rfl, hsel, by rw [← hsel, ← hvreg]⟩
  obtain ⟨y, u, hu, hd, hytc, hy⟩ := pseudoWrvr_onDevice (s := s.latchOp 0) hf ⟨rfl, hb, rfl⟩ ⟨hpend, rfl, rfl⟩ htc hlt hdata
  obtain ⟨n, hn⟩ := command_completes hs hr hw (pseudoCommand_wrvr s a d) rfl hu
  have frame := pseudoWrvr_opFrame hu
  have hop : u.regs.op = 0 := by rw [frame.regs]; rfl
  obtain ⟨v, hv, hrx⟩ := pseudoRdvr_onDevice (s := (u.complete .wrvr codeOk).latchOp 1) hf ⟨hd.par, hd.bus, hd.sensor⟩
    hw hy (hytc ▸ (Nat.zero_le _).trans_lt hlt) hlt hlr hplain
  obtain ⟨m, hm⟩ := command_completes (s := u.complete .wrvr codeOk) rfl (frame.rst.trans hr) (hd.par ▸ hw)
    (pseudoCommand_rdvr _ a) rfl hv
  have hop' : v.regs.op = 1 := by rw [(pseudoRdvr_opFrame hv).regs]; rfl
  refine ⟨_, n, u.complete .wrvr codeOk, _, m, _, rfl, hn, rfl, response_wrvr hop, rfl, hm, rfl, ?_⟩
  rw [← Memory.read_write_same (b := d) hwf, ← hrx]
  exact response_rdvr hop'

end Sys2Proof.Machine
end

section
/-! SUPPORT and proof of the statement about the reading of a 32-bit pattern as a binary32 number (R187, R191). -/

namespace Sys2Proof.Machine

/-- The three fields side by side are the pattern. -/
theorem f32_fields_append (w : Word) : (f32Sign w ++ f32Exponent w ++ f32Fraction w : Word) = w := by
  unfold f32Sign f32Exponent f32Fraction
  rw [BitVec.extractLsb'_append_extractLsb'_eq_extractLsb' (by rfl),
    BitVec.extractLsb'_append_extractLsb'_eq_extractLsb' (by rfl)]
  exact BitVec.extractLsb'_eq_self

/-- The sign, exponent and fraction that a reading still shows; a normal number carries its hidden bit (R187). -/
def F32.fields : F32 → BitVec 1 × BitVec 8 × BitVec 23
  | .finite negative m e =>
    (BitVec.ofBool negative, if m < 2 ^ 23 then 0 else BitVec.ofNat 8 (e + 150).toNat, BitVec.ofNat 23 m)
  | .infinite negative => (BitVec.ofBool negative, 0xFF, 0)
  | .nan sign payload => (sign, 0xFF, payload)

theorem ofBool_decide_eq_one (b : BitVec 1) : BitVec.ofBool (decide (b = 1)) = b := by
  revert b
  decide

/-- A reading shows all three fields of its pattern. -/
theorem bits32ToF32_fields (w : Word) : (bits32ToF32 w).fields = (f32Sign w, f32Exponent w, f32Fraction w) := by
  have hfrac := (f32Fraction w).isLt
  unfold bits32ToF32
  split
  next special =>
    split
    next infinite => simp only [F32.fields, ofBool_decide_eq_one, special, infinite]
    next nan => simp only [F32.fields, special]
  next =>
    split
    next subnormal =>
      simp only [F32.fields, ofBool_decide_eq_one, subnormal, hfrac, if_true, BitVec.ofNat_toNat, BitVec.setWidth_eq]
    next normal =>
      have hidden : ¬ 2 ^ 23 + (f32Fraction w).toNat < 2 ^ 23 := by omega
      have exponent : ((f32Exponent w).toNat - 150 + 150 : Int).toNat = (f32Exponent w).toNat := by omega
      have fraction : BitVec.ofNat 23 (2 ^ 23 + (f32Fraction w).toNat) = f32Fraction w :=
        BitVec.eq_of_toNat_eq (by rw [BitVec.toNat_ofNat]; omega)
      simp only [F32.fields, ofBool_decide_eq_one, hidden, if_false, exponent, fraction, BitVec.ofNat_toNat,
        BitVec.setWidth_eq]

theorem bits32ToF32_injective : Function.Injective bits32ToF32 := by
  intro w v h
  have fields := congrArg F32.fields h
  rw [bits32ToF32_fields, bits32ToF32_fields] at fields
  obtain ⟨hsign, hexponent, hfraction⟩ : _ ∧ _ ∧ _ := by simpa only [Prod.mk.injEq] using fields
  rw [← f32_fields_append w, hsign, hexponent, hfraction, f32_fields_append]

/-- Settles O10: a reading shows the fields of its pattern, and the fields make up the pattern. -/
theorem wordsReinterpret : Obligations.WordsReinterpret :=
  ⟨f32_fields_append, fun _ _ => bits32ToF32_injective.eq_iff, ⟨_, _, rfl, rfl, rfl⟩, rfl, rfl⟩

end Sys2Proof.Machine
end

section
/-! SUPPORT and proofs of the statements about the rows of RDFLT and RDALL (R186, R195 to R201): what the end of a
handshake writes into RES and FAIL, and where the sweep goes on. -/

namespace Sys2Proof.Machine

/-! What the sweep writes into RES and FAIL. -/

/-- From `r` to `r'` the entries of RES and FAIL that `picked` picks became `w` and `f`, the others stayed. -/
structure Written (picked : Nat → Prop) [DecidablePred picked] (w : Word) (f : Bool) (r r' : Regs) : Prop where
  res : ∀ (j : Nat) (h : j < 18), r'.res[j] = if picked j then w else r.res[j]
  fail : ∀ j < 18, r'.fail.getLsbD j = if picked j then f else r.fail.getLsbD j

theorem Written.trans {p q pq : Nat → Prop} [DecidablePred p] [DecidablePred q] [DecidablePred pq] {w : Word} {f : Bool}
    {r r' r'' : Regs} (h : Written p w f r r') (g : Written q w f r' r'') (hpq : ∀ j, pq j ↔ p j ∨ q j) :
    Written pq w f r r'' := by
  refine ⟨fun j hj => ?_, fun j hj => ?_⟩
  · rw [g.res j hj, h.res j hj]
    by_cases hp : p j <;> by_cases hq : q j <;> simp [hpq, hp, hq]
  · rw [g.fail j hj, h.fail j hj]
    by_cases hp : p j <;> by_cases hq : q j <;> simp [hpq, hp, hq]

theorem getLsbD_channelBit {i j : Nat} (hj : j < 18) : (1#18 <<< i).getLsbD j = decide (j = i) := by
  rw [← BitVec.twoPow_eq, BitVec.getLsbD_twoPow]
  by_cases h : i = j
  · simp [h, hj]
  · simp [h, Ne.symm h]

/-- Writing a channel writes its entry alone (R195). -/
theorem setChannel_written (s : State) (w : Word) (f : Bool) :
    Written (· = flatIndex s.regs.dev s.regs.ch) w f s.regs (s.setChannel w f).regs := by
  refine ⟨fun j hj => ?_, fun j hj => ?_⟩
  · simp only [State.setChannel, Vector.getElem_setIfInBounds, eq_comm (a := j)]
  · cases f with
    | true =>
      simp only [State.setChannel, if_true, BitVec.getLsbD_or, getLsbD_channelBit hj]
      split <;> simp [*]
    | false =>
      simp only [State.setChannel, Bool.false_eq_true, if_false, BitVec.getLsbD_and, BitVec.getLsbD_not,
        getLsbD_channelBit hj, hj]
      split <;> simp [*]

/-- Consecutive channels of a lost die, from the channel `k` on, are substituted and flagged (R198). -/
theorem substituteAll_written {channels : List (BitVec 3)} {s : State} {k : Nat}
    (hk : ∀ j (hj : j < channels.length), channels[j].toNat = k + j) :
    Written (fun j => s.regs.dev.toNat * 6 + k ≤ j ∧ j < s.regs.dev.toNat * 6 + k + channels.length) 0 true s.regs
      (channels.foldl (fun u c => State.substitute { u with regs := { u.regs with ch := c } }) s).regs := by
  induction channels generalizing s k with
  | nil => exact ⟨fun j _ => (if_neg (by simp)).symm, fun j _ => (if_neg (by simp)).symm⟩
  | cons c channels ih =>
    have hc : c.toNat = k := hk 0 (by simp)
    have head := setChannel_written { s with regs := { s.regs with ch := c } } 0 true
    have rest := ih (s := State.substitute { s with regs := { s.regs with ch := c } }) (k := k + 1) fun j hj => by
      have := hk (j + 1) (by simpa using hj)
      simp only [List.getElem_cons_succ] at this
      omega
    refine Written.trans (r' := (State.substitute { s with regs := { s.regs with ch := c } }).regs)
      ⟨head.res, head.fail⟩ rest fun j => ?_
    have hdev : (State.substitute { s with regs := { s.regs with ch := c } }).regs.dev = s.regs.dev := rfl
    simp only [flatIndex, hdev, hc, List.length_cons]
    omega

theorem substituteDie_written (s : State) :
    Written (fun j => s.regs.dev.toNat * 6 ≤ j ∧ j < s.regs.dev.toNat * 6 + 6) 0 true s.regs s.substituteDie.regs :=
  substituteAll_written (k := 0) (channels := [0, 1, 2, 3, 4, 5]) (by decide)

/-! Where the sweep goes on. -/

/-- Going on to the next die writes no result. -/
theorem Written.nextDie {p : Nat → Prop} [DecidablePred p] {w : Word} {f : Bool} {r : Regs} {s : State}
    (h : Written p w f r s.regs) : Written p w f r s.nextDie.regs := by
  unfold State.nextDie
  split <;> exact ⟨h.res, h.fail⟩

/-- Going on to the next channel writes no result. -/
theorem Written.nextChannel {p : Nat → Prop} [DecidablePred p] {w : Word} {f : Bool} {r : Regs} {s : State}
    (h : Written p w f r s.regs) : Written p w f r s.nextChannel.regs := by
  unfold State.nextChannel
  split
  · exact ⟨h.res, h.fail⟩
  · exact h.nextDie

/-- `t` begins the die after `d`, or after the last one stands before the completion with OK (R195, R200). -/
structure DieFollows (d : BitVec 2) (t : State) : Prop where
  next : d.toNat < 2 → t.seq = .writing .sweepSel (.wA .ptr) ∧ t.regs.dev = d + 1 ∧ t.regs.a = 0x4F ∧
    t.regs.d = (d + 1).setWidth 8
  last : d.toNat = 2 → t.seq = .ending .rdall codeOk

theorem nextDie_follows (s : State) : DieFollows s.regs.dev (s.nextDie.withRet .ok) := by
  refine ⟨fun h => ?_, fun h => ?_⟩
  · have begun : s.nextDie = s.startDie (s.regs.dev + 1) := if_pos h
    rw [begun]
    exact ⟨rfl, rfl, rfl, rfl⟩
  · have ended : s.nextDie = s.endWith .rdall codeOk := if_neg (by omega)
    rw [ended]
    rfl

/-- After a channel the sweep reads the next one, or goes on with the next die (R195, R201). -/
theorem nextChannel_follows (s : State) :
    (s.regs.ch.toNat < 5 → s.nextChannel.seq = .reading (.sweepFlt 0) (.rA .ptr) ∧
      s.nextChannel.regs.ch = s.regs.ch + 1 ∧ s.nextChannel.regs.dev = s.regs.dev ∧
      s.nextChannel.regs.base = channelBase (s.regs.ch + 1) ∧ s.nextChannel.regs.a = channelBase (s.regs.ch + 1)) ∧
    (s.regs.ch.toNat = 5 → DieFollows s.regs.dev (s.nextChannel.withRet .ok)) := by
  refine ⟨fun h => ?_, fun h => ?_⟩
  · have begun : s.nextChannel = s.startChannel (s.regs.ch + 1) := if_pos h
    rw [begun]
    exact ⟨rfl, rfl, rfl, rfl, BitVec.add_zero _⟩
  · have last : s.nextChannel = s.nextDie := if_neg (by omega)
    rw [last]
    exact nextDie_follows s

/-- What the end of a channel leaves, whichever way it ended, from `s` to `t`: its entry of RES and FAIL written, and
the next channel begun, or the next die, or the completion with OK still to come (R195, R197, R200). -/
def ChannelEnded (w : Word) (f : Bool) (s t : State) : Prop :=
  (∀ (j : Nat) (h : j < 18), t.regs.res[j] = if j = flatIndex s.regs.dev s.regs.ch then w else s.regs.res[j]) ∧
  (∀ j < 18, t.regs.fail.getLsbD j = if j = flatIndex s.regs.dev s.regs.ch then f else s.regs.fail.getLsbD j) ∧
  (s.regs.ch.toNat < 5 → t.seq = .reading (.sweepFlt 0) (.rA .ptr) ∧ t.regs.ch = s.regs.ch + 1 ∧
    t.regs.dev = s.regs.dev ∧ t.regs.base = channelBase (s.regs.ch + 1) ∧ t.regs.a = channelBase (s.regs.ch + 1)) ∧
  (s.regs.ch.toNat = 5 → s.regs.dev.toNat < 2 → t.seq = .writing .sweepSel (.wA .ptr) ∧
    t.regs.dev = s.regs.dev + 1 ∧ t.regs.a = 0x4F ∧ t.regs.d = (s.regs.dev + 1).setWidth 8) ∧
  (s.regs.ch.toNat = 5 → s.regs.dev.toNat = 2 → t.seq.top = .rdall ∧ t.rsp = s.rsp ∧ ∃ u, EndsWith t u 0)

theorem setChannel_nextChannel_ended {s : State} (hr : s.resetReq = false) (w : Word) (f : Bool) :
    ChannelEnded w f s ((s.setChannel w f).nextChannel.withRet .ok) := by
  have written := (setChannel_written s w f).nextChannel
  obtain ⟨more, last⟩ := nextChannel_follows (s.setChannel w f)
  have goesOn := setChannel_nextChannel_goesOn w f s
  exact ⟨written.res, written.fail, more, fun h => (last h).next,
    fun h h2 => ⟨goesOn.top, goesOn.rsp, _, endsWith_complete (goesOn.resetReq.trans hr) ((last h).last h2)⟩⟩

/-! The rows of the sweep and of the float reads, under the oracle. -/

/-- Settles O33: the failing step substitutes the die and goes on. -/
theorem selectFailureSubstitutesDie : Obligations.SelectFailureSubstitutesDie := by
  intro s f w hr hb hf hs _
  obtain ⟨_, hstep, e, ret, hwrite, -⟩ := step_coming hr hb hf
  obtain rfl := hwrite _ _ hs
  obtain ⟨-, -, -, hdev⟩ := substituteDie_frame { s with env := e, ret := ret }
  have written := (substituteDie_written { s with env := e, ret := ret }).nextDie
  have follows := nextDie_follows (State.substituteDie { s with env := e, ret := ret })
  have goesOn := failWrite_goesOn .sweepSel f { s with env := e, ret := ret }
  rw [hdev] at follows
  refine ⟨_, hstep, written.res, written.fail, fun h => ?_,
    fun h => ⟨goesOn.top, goesOn.rsp, _, endsWith_complete (goesOn.resetReq.trans hr) (follows.last h)⟩⟩
  obtain ⟨hseq, hdev', ha, hd⟩ := follows.next h
  exact ⟨hseq, hdev', ha, hd, goesOn.rsp⟩

/-- Settles O34: the failing step substitutes the channel and goes on. -/
theorem channelFailureSubstitutes : Obligations.ChannelFailureSubstitutes := by
  intro s f i r hr hb hf hs _ _
  obtain ⟨_, hstep, e, ret, -, hread, -⟩ := step_coming hr hb hf
  obtain rfl := hread _ _ hs
  exact ⟨_, hstep, setChannel_nextChannel_ended (s := { s with env := e, ret := ret }) hr _ _⟩

/-- The step in which a read takes its byte and goes on in its context (R166). -/
theorem step_readDone {s : State} {c : RCtx} {b : Byte} (hr : s.resetReq = false) (hb : s.env.bus = .oracle)
    (hs : s.seq = .reading c (.rE .get)) (hx : s.env.nextRx = .byte b) :
    step s = .next ((((s.received (.byte b)).latchRead b).doneRead c).withRet .ok) := by
  rw [← doneRead_ret c (.byte b), step_recv hr hb (issue_reading hs) rfl hx]
  simp only [State.advance, hs]
  rfl

/-- Settles O29: each row is the end of a read or of the select, in its context. -/
theorem floatAndSweepRows : Obligations.FloatAndSweepRows := by
  intro s i b hr hb hx
  refine ⟨fun hs hi => ?_, fun hs => ?_, fun hs h => ?_, fun hs hi => ?_, fun hs _ _ => ?_⟩
  · have merged : ((s.received (.byte b)).latchRead b).doneRead (.flt i) = _ := if_neg hi
    exact ⟨_, merged ▸ step_readDone hr hb hs hx, rfl, rfl⟩
  · exact ⟨_, _, step_readDone hr hb hs hx, rfl, rfl, rfl, endsWith_complete hr rfl, rfl⟩
  · exact ⟨_, (siteWE .sweepSel).step_hit hr hb hs hx (pollHit_tx_of_clear h), rfl, rfl⟩
  · have merged : ((s.received (.byte b)).latchRead b).doneRead (.sweepFlt i) = _ := if_neg hi
    exact ⟨_, merged ▸ step_readDone hr hb hs hx, rfl, rfl⟩
  · exact ⟨_, step_readDone hr hb hs hx,
      setChannel_nextChannel_ended (s := ((s.received (.byte b)).latchRead b).mergeRead 3) hr _ _⟩

end Sys2Proof.Machine
end

section
/-! SUPPORT and proofs of the statements about the whole sweep of RDALL under the oracle: it answers OK whatever fails,
with 0.0 wherever it flags, and on a dead bus it takes one call for each die (R197 to R200). -/

namespace Sys2Proof.Machine

/-! What a sweep keeps. -/

/-- A sweep is under way on the oracle: OP is RDALL's, and every flagged result is 0.0 (R197). -/
structure Sweeping (p : Params) (s : State) : Prop extends OnOracle p s where
  op : s.regs.op = 4
  flagged : ∀ (j : Nat) (h : j < 18), s.regs.fail.getLsbD j = true → s.regs.res[j] = 0

/-- A virtual-register operation writes nothing a sweep keeps. -/
theorem Sweeping.opFrame {p : Params} {s t : State} (h : Sweeping p s) (f : OpFrame s t) (ho : OnOracle p t) :
    Sweeping p t := by
  refine ⟨ho, ?_, ?_⟩ <;> rw [f.regs]
  · exact h.op
  · exact h.flagged

/-- A channel written with a value, or flagged with 0.0. -/
theorem Sweeping.setChannel {p : Params} {s : State} (h : Sweeping p s) {w : Word} {f : Bool} (hw : f = true → w = 0) :
    Sweeping p (s.setChannel w f) := by
  have written := setChannel_written s w f
  refine ⟨⟨h.par, h.bus, h.wf⟩, h.op, fun j hj => ?_⟩
  rw [written.res j hj, written.fail j hj]
  split
  · exact hw
  · exact h.flagged j hj

/-- The run `x` ends in a state of a sweep. -/
def Run.Sweeps (p : Params) (x : Run) : Prop := ∃ r t, x = .ok (r, t) ∧ Sweeping p t

theorem Run.Sweeps.tryThen {p : Params} {x : Run} {k : Ret → State → Run} (h : x.Sweeps p)
    (hk : ∀ r t, Sweeping p t → (k r t).Sweeps p) : (x.tryThen k).Sweeps p := by
  obtain ⟨r, t, rfl, ht⟩ := h
  simp only [Run.tryThen]
  split
  · exact ⟨r, t, rfl, ht⟩
  · exact hk r t ht

theorem pseudoWrvr_sweeps {p : Params} {s : State} (h : Sweeping p s) (a : VAddr) (d : Byte) :
    (s.pseudoWrvr a d).Sweeps p := by
  obtain ⟨r, t, -, hx, ho, -⟩ := pseudoWrvr_within a d h.toOnOracle
  exact ⟨r, t, hx, h.opFrame (pseudoWrvr_opFrame hx) ho⟩

theorem pseudoRdvr_sweeps {p : Params} {s : State} (h : Sweeping p s) (a : VAddr) : (s.pseudoRdvr a).Sweeps p := by
  obtain ⟨r, t, -, hx, ho, -⟩ := pseudoRdvr_within a h.toOnOracle
  exact ⟨r, t, hx, h.opFrame (pseudoRdvr_opFrame hx) ho⟩

/-- A float read: four reads, each merged into ACC (R185). -/
theorem pseudoRdflt_sweeps {p : Params} {s : State} (h : Sweeping p s) (base : VAddr) :
    (s.pseudoRdflt base).Sweeps p := by
  have merged {t : State} (ht : Sweeping p t) (i : Fin 4) : Sweeping p (t.mergeRead i) :=
    ⟨⟨ht.par, ht.bus, ht.wf⟩, ht.op, ht.flagged⟩
  have based : Sweeping p { s with regs := { s.regs with base := base } } := ⟨⟨h.par, h.bus, h.wf⟩, h.op, h.flagged⟩
  refine (pseudoRdvr_sweeps based _).tryThen fun _ t ht => ?_
  refine (pseudoRdvr_sweeps (merged ht 0) _).tryThen fun _ t ht => ?_
  refine (pseudoRdvr_sweeps (merged ht 1) _).tryThen fun _ t ht => ?_
  refine (pseudoRdvr_sweeps (merged ht 2) _).tryThen fun _ t ht => ?_
  exact ⟨_, _, rfl, merged ht 3⟩

/-- The channels of a die, read or substituted (R195, R197, R198). -/
theorem pseudoChannels_sweeps {p : Params} (sel : Ret) (channels : List (BitVec 3)) {s : State} (h : Sweeping p s) :
    ∃ t, pseudoChannels sel channels s = .ok t ∧ Sweeping p t := by
  induction channels generalizing s with
  | nil => exact ⟨s, rfl, h⟩
  | cons c channels ih =>
    have chosen : Sweeping p { s with regs := { s.regs with ch := c } } := ⟨⟨h.par, h.bus, h.wf⟩, h.op, h.flagged⟩
    unfold pseudoChannels
    dsimp only
    split
    · exact ih (chosen.setChannel fun _ => rfl)
    · obtain ⟨r, t, hx, ht⟩ := pseudoRdflt_sweeps chosen (channelBase c)
      rw [hx]
      dsimp only
      split
      · exact ih (ht.setChannel fun _ => rfl)
      · exact ih (ht.setChannel nofun)

theorem pseudoDies_sweeps {p : Params} (dies : List (BitVec 2)) {s : State} (h : Sweeping p s) :
    ∃ t, pseudoDies dies s = .ok t ∧ Sweeping p t := by
  induction dies generalizing s with
  | nil => exact ⟨s, rfl, h⟩
  | cons d dies ih =>
    have chosen : Sweeping p { s with regs := { s.regs with dev := d } } := ⟨⟨h.par, h.bus, h.wf⟩, h.op, h.flagged⟩
    obtain ⟨r, t, hx, ht⟩ := pseudoWrvr_sweeps chosen Config.devselVaddr (deviceByte d)
    obtain ⟨u, hy, hu⟩ := pseudoChannels_sweeps r [0, 1, 2, 3, 4, 5] ht
    rw [pseudoDies, State.pseudoSeldev, hx]
    dsimp only
    rw [hy]
    exact ih hu

/-! The response. -/

theorem response_rdall {t : State} (hop : t.regs.op = 4) :
    (t.complete .rdall codeOk).response = .okAll t.regs.res t.regs.fail := by
  simp [State.response, hop, codeOk, EndCtx.data]

/-- The state that takes RDALL, before its first select (R103, R195). -/
def State.rdallTaken (s : State) : State := { s.latchOp 4 with regs := { (s.latchOp 4).regs with fail := 0 } }

theorem exec_rdall {s : State} (hs : s.seq = .idle) : exec .rdall s = .next (s.rdallTaken.startDie 0) :=
  congrArg Host.Outcome.next (present_idle hs _ _)

/-- The loops over the dies are the whole of RDALL but its response (R195, R106). -/
theorem pseudoCommand_rdall {s t : State} (h : pseudoDies [0, 1, 2] s.rdallTaken = .ok t) :
    s.pseudoCommand .rdall = some (.ok (t.complete .rdall codeOk)) := by
  have loops : (s.latchOp 4).pseudoRdall = .ok t := h
  rw [State.pseudoCommand, loops]
  rfl

/-- Settles O38: the sweep's loops end with the flagged results 0.0, and the completion answers with RES and FAIL. -/
theorem sweepAlwaysAnswersOk : Obligations.SweepAlwaysAnswersOk := by
  intro s hs hr hw hb
  have begun : Sweeping s.par s.rdallTaken := ⟨⟨rfl, hb, hw⟩, rfl, fun j _ h => by simp [State.rdallTaken] at h⟩
  obtain ⟨t, ht, kept⟩ := pseudoDies_sweeps [0, 1, 2] begun
  obtain ⟨n, hn, hrun⟩ := rdall_completes (pseudoCommand_rdall ht) hr hw
  exact ⟨_, exec_rdall hs, n, hn, _, hrun, rfl, rfl, rfl, response_rdall kept.op, kept.flagged⟩

/-! A dead bus. -/

theorem Grew.trans {s u v : State} {evs evs' : List Event} (h : Grew s u evs) (g : Grew u v evs') :
    Grew s v (evs' ++ evs) :=
  Eq.trans g (by rw [h, List.append_assoc])

/-- RDALL runs on the oracle, whose coming `transmit` answers are `ta`. -/
structure RdallRuns (ta : List TxAnswer) (s : State) : Prop where
  resetReq : s.resetReq = false
  bus : s.env.bus = .oracle
  txAnswers : s.env.txAnswers = ta
  op : s.regs.op = 4

/-- The step from `s` to `t` lost the die `d` at the first call of its select: its results are substituted and the sweep
goes on (R198). -/
structure DieLost (d : BitVec 2) (s t : State) : Prop where
  stepped : step s = .next t
  written : Written (fun j => d.toNat * 6 ≤ j ∧ j < d.toNat * 6 + 6) 0 true s.regs t.regs
  follows : DieFollows d t
  grew : Grew s t [.transmit 0x49 [s.par.statusReg] s.par.xferTimeout .busError]

/-- A select whose first pointer frame fails is lost in that step. -/
theorem select_lost {s : State} {ta : List TxAnswer} {d : BitVec 2} (h : RdallRuns (.busError :: ta) s)
    (hs : s.seq = .writing .sweepSel (.wA .ptr)) (hd : s.regs.dev = d) : ∃ t, DieLost d s t ∧ RdallRuns ta t := by
  obtain ⟨hr, hb, htx, hop⟩ := h
  have hx : s.env.nextTx = .busError := by rw [Env.nextTx, htx]
  have failed (t : State) (ht : t.seq = .writing .sweepSel (.wA .ptr)) (hret : t.ret = .busError) :
      t.advance = (t.failWrite .sweepSel .busError).withRet .ok := by
    simp only [State.advance, ht, State.advanceWrite, State.pollMove, hret]
  obtain ⟨v, hv⟩ : ∃ v, v = s.sent [s.par.statusReg] .busError := ⟨_, rfl⟩
  have stepped : step s = .next ((v.failWrite .sweepSel .busError).withRet .ok) := by
    rw [hv, ← failWrite_ret .sweepSel .busError .busError]
    exact (step_send hr hb (issue_writing hs) rfl hx).trans (congrArg _ (failed _ hs rfl))
  have goesOn := failWrite_goesOn .sweepSel .busError v
  have env : (v.failWrite .sweepSel .busError).env = v.env := (Quiet.failWrite (W := True) v _ _).env
  have written := (substituteDie_written v).nextDie
  have follows := nextDie_follows v.substituteDie
  obtain ⟨-, -, -, hdev⟩ := substituteDie_frame v
  rw [hdev] at follows
  subst hv hd
  have lost : DieLost s.regs.dev s _ := ⟨stepped, written, follows, congrArg Env.trace env⟩
  exact ⟨_, lost, goesOn.resetReq.trans hr, (congrArg Env.bus env).trans hb,
    (congrArg Env.txAnswers env).trans (congrArg List.tail htx), goesOn.op.trans hop⟩

/-- When all 18 entries are substituted every value is 0.0 and every flag is set. -/
theorem Written.all {p : Nat → Prop} [DecidablePred p] {r r' : Regs} (h : Written p 0 true r r') (hp : ∀ j < 18, p j) :
    r'.res = Vector.replicate 18 0 ∧ r'.fail = 0x3FFFF := by
  refine ⟨Vector.ext fun j hj => ?_, BitVec.eq_of_getLsbD_eq fun j hj => ?_⟩
  · rw [h.res j hj, if_pos (hp j hj), Vector.getElem_replicate]
  · have allOnes : (0x3FFFF : BitVec 18) = BitVec.allOnes 18 := by decide
    rw [h.fail j hj, if_pos (hp j hj), allOnes, BitVec.getLsbD_allOnes, decide_eq_true hj]

/-- Settles O39: each select is lost at its first call, and the three dies are all 18 entries. -/
theorem deadBusSweep : Obligations.DeadBusSweep := by
  intro s ta hs hr hb htx
  obtain ⟨t0, lost0, runs0⟩ := select_lost (s := s.rdallTaken.startDie 0) (d := 0) ⟨hr, hb, htx, rfl⟩ rfl rfl
  obtain ⟨seq0, dev0, -⟩ := lost0.follows.next (by decide)
  obtain ⟨t1, lost1, runs1⟩ := select_lost (d := 1) runs0 seq0 dev0
  obtain ⟨seq1, dev1, -⟩ := lost1.follows.next (by decide)
  obtain ⟨t2, lost2, runs2⟩ := select_lost (d := 2) runs1 seq1 dev1
  have ended : runs 4 (s.rdallTaken.startDie 0) = .next (t2.complete .rdall codeOk) := by
    simp only [runs_succ, runs_zero, Out.andThen, lost0.stepped, lost1.stepped, lost2.stepped,
      step_complete runs2.resetReq (lost2.follows.last rfl)]
  have grew := ((lost0.grew.trans lost1.grew).trans lost2.grew).trans (v := t2.complete .rdall codeOk) (evs' := [_]) rfl
  have twoDies := lost0.written.trans lost1.written (pq := (· < 12)) fun j => by simp; omega
  have allDies := twoDies.trans lost2.written (pq := (· < 18)) fun j => by simp; omega
  obtain ⟨res, fail⟩ := allDies.all fun _ h => h
  exact ⟨_, _, _, exec_rdall hs, ended, grew, rfl, rfl, by rw [response_rdall runs2.op, res, fail]⟩

end Sys2Proof.Machine
end

section
/-! SUPPORT and proof of the statement that SELDEV selects its die on the reference device (R180, R181, R85). -/

namespace Sys2Proof.Machine

theorem response_seldev {u : State} (hop : u.regs.op = 2) : (u.complete .seldev codeOk).response = .ok := by
  simp [State.response, hop, codeOk]

/-- Id 3 spells no die (R73, R126). -/
theorem ne_three_of_ofByte {id : BitVec 2} {d : Die} (h : Die.ofByte (id.setWidth 8) = some d) : id ≠ 3 := by
  rintro rfl
  cases h

/-- Settles O54: the write to the selector ends Ok, its data byte selects the die, and the register file stays. -/
theorem seldevSelectsDie : Obligations.SeldevSelectsDie := by
  intro s rd id d hs hr hw hb hf hlt hpend htc hd
  have hid := ne_three_of_ofByte hd
  have hdata (y : Sensor) (hy : y.pend = .writeTo Config.devselVaddr) (_ : y.sel = s.env.sensor.sel)
      (hvreg : y.vreg = s.env.sensor.vreg) :
      ∃ z, y.takeByte s.par rd (deviceByte id) = .ok z ∧ z.tc = y.tc ∧ z.Between d s.env.sensor.vreg :=
    ⟨_, Sensor.takeByte_select hy hd, rfl, rfl, rfl, hvreg⟩
  obtain ⟨y, u, hu, hdev, -, hy⟩ :=
    pseudoWrvr_onDevice (s := s.latchOp 2) hf ⟨rfl, hb, rfl⟩ ⟨hpend, rfl, rfl⟩ htc hlt hdata
  have accepted :
      exec (.seldev id) s = .next ((s.latchOp 2).beginWrite .seldev Config.devselVaddr (deviceByte id)) := by
    simp only [exec, execSeldev, present_idle hs, hid, if_false]
  obtain ⟨n, hn⟩ := command_completes hs hr hw (pseudoCommand_seldev s hid) accepted hu
  have hop : u.regs.op = 2 := by rw [(pseudoWrvr_opFrame hu).regs]; rfl
  have left : u.env.sensor.Between d s.env.sensor.vreg := hdev.sensor ▸ hy
  exact ⟨_, n, _, accepted, hn, rfl, response_seldev hop, left.sel, left.pend,
    fun a => congrArg (Memory.read · a) left.vreg⟩

end Sys2Proof.Machine
end

section
/-! SUPPORT and proofs of the statements about MEAS: the rows of its table on Ok, and that once its first read is over
only the LedOff write leads out of it (R212, R213, R217). -/

namespace Sys2Proof.Machine

/-! The rows of the table, under the oracle. -/

/-- A byte with the busy bit clear ends the busy poll: LedOff begins (R213, R216). -/
theorem doneRead_measPoll_ready {s : State} (h : s.regs.rx &&& s.par.measBusyMask = 0) :
    s.doneRead .measPoll =
      State.startLedOff { s with regs := { s.regs with cs := s.regs.rx, cnt2 := s.regs.cnt2 + 1 } } :=
  if_neg fun busy : measBusy s.par s.regs.rx = true => absurd h (of_decide_eq_true busy)

/-- A byte with the busy bit set leads into the delay (R213, R216). -/
theorem doneRead_measPoll_busy {s : State} (h : s.regs.rx &&& s.par.measBusyMask ≠ 0) :
    s.doneRead .measPoll =
      State.goto .measDly { s with regs := { s.regs with cs := s.regs.rx, cnt2 := s.regs.cnt2 + 1 } } :=
  if_pos (decide_eq_true h)

/-- The step that delays between two reads of CONTROL_SETUP (R216). -/
theorem step_measDly {s : State} (hr : s.resetReq = false) (hb : s.env.bus = .oracle) (hs : s.seq = .measDly) :
    step s = .next ((s.doDelay .measPoll).doneMeasDelay.withRet .ok) := by
  have issued : s.issue = some (.delay .measPoll) := by simp only [State.issue, hs]
  rw [step_delay hr hb issued]
  simp only [State.advance, hs, State.doDelay, Env.delay, hb, State.doneMeasDelay]
  split <;> rfl

/-- Settles O30: each row is a read that takes its byte, a write whose last poll hits, or the delay. -/
theorem measRows : Obligations.MeasRows := by
  intro s b hr hb
  refine ⟨fun hs hx => ?_, fun hs hx h => ?_, fun hs hx => ?_, fun hs hx h => ?_, fun hs hx h => ?_,
    fun hs hx h => ?_, fun hs h => ?_⟩
  · exact ⟨_, step_readDone hr hb hs hx, rfl, rfl⟩
  · exact ⟨_, (siteWE .ledonWr).step_hit hr hb hs hx (pollHit_tx_of_clear h), rfl, rfl⟩
  · exact ⟨_, step_readDone hr hb hs hx, rfl, rfl⟩
  · exact ⟨_, (siteWE .measWr).step_hit hr hb hs hx (pollHit_tx_of_clear h), rfl, rfl⟩
  · have done := doneRead_measPoll_ready (s := (s.received (.byte b)).latchRead b) h
    exact ⟨_, done ▸ step_readDone hr hb hs hx, rfl, rfl⟩
  · have done := doneRead_measPoll_busy (s := (s.received (.byte b)).latchRead b) h
    exact ⟨_, done ▸ step_readDone hr hb hs hx, rfl, rfl⟩
  · have done : (s.doDelay .measPoll).doneMeasDelay = _ := if_neg h
    have stepped := done ▸ step_measDly hr hb hs
    exact ⟨_, stepped, rfl, rfl, (delay_env s.par .measPoll s.env).1⟩

/-! Where MEAS goes after its first read. -/

/-- The phases of MEAS between its first read and its LedOff write (R213). -/
inductive Seq.BeforeLedOff : Seq → Prop
  | writing {c : WCtx} (hc : c = .ledonWr ∨ c = .measWr) (w : WStep) : BeforeLedOff (.writing c w)
  | reading {c : RCtx} (hc : c = .measRd ∨ c = .measPoll) (r : RStep) : BeforeLedOff (.reading c r)
  | measDly : BeforeLedOff .measDly

/-- The places where such a phase can lead: another of them, or the start of the LedOff write (R217). -/
def Seq.TowardLedOff (q : Seq) : Prop := q.BeforeLedOff ∨ q = .writing .ledoffWr (.wA .ptr)

/-- What is left of MEAS when its first read, its LedOff write and its completion are set aside. -/
theorem Seq.beforeLedOff_of_meas {q : Seq} (ht : q.top = .meas) (hrd : ∀ r, q ≠ .reading .ledonRd r)
    (hwr : ∀ w, q ≠ .writing .ledoffWr w) (hend : ∀ k, q ≠ .ending .meas k) : q.BeforeLedOff := by
  cases q with
  | idle => cases ht
  | measDly => exact .measDly
  | ending c k =>
    cases c with
    | meas => exact absurd rfl (hend k)
    | _ => cases ht
  | writing c w =>
    cases c with
    | ledonWr => exact .writing (.inl rfl) w
    | measWr => exact .writing (.inr rfl) w
    | ledoffWr => exact absurd rfl (hwr w)
    | _ => cases ht
  | reading c r =>
    cases c with
    | ledonRd => exact absurd rfl (hrd r)
    | measRd => exact .reading (.inl rfl) r
    | measPoll => exact .reading (.inr rfl) r
    | _ => cases ht

theorem Seq.BeforeLedOff.ne_ending {q : Seq} (h : q.BeforeLedOff) (c : EndCtx) (k : BitVec 2) : q ≠ .ending c k := by
  cases h <;> nofun

theorem Seq.TowardLedOff.ne_ending {q : Seq} (h : q.TowardLedOff) (c : EndCtx) (k : BitVec 2) : q ≠ .ending c k := by
  obtain h | rfl := h
  · exact h.ne_ending c k
  · nofun

theorem Seq.BeforeLedOff.top {q : Seq} (h : q.BeforeLedOff) : q.top = .meas := by
  cases h with
  | writing hc w => obtain rfl | rfl := hc <;> rfl
  | reading hc r => obtain rfl | rfl := hc <;> rfl
  | measDly => rfl

theorem Seq.TowardLedOff.top {q : Seq} (h : q.TowardLedOff) : q.top = .meas := by
  obtain h | rfl := h
  · exact h.top
  · rfl

/-- The writes before LedOff lead to a read when they are done, to LedOff when they fail (R213, R249). -/
theorem write_towardLedOff {c : WCtx} (hc : c = .ledonWr ∨ c = .measWr) (s : State) :
    (s.doneWrite c).seq.TowardLedOff ∧ ∀ f, (s.failWrite c f).seq.TowardLedOff := by
  obtain rfl | rfl := hc
  · exact ⟨.inl (.reading (.inl rfl) _), fun _ => .inr rfl⟩
  · exact ⟨.inl (.reading (.inr rfl) _), fun _ => .inr rfl⟩

/-- The reads before LedOff lead to a write, the delay or LedOff when they are done, to LedOff when they fail (R213,
R249). -/
theorem read_towardLedOff {c : RCtx} (hc : c = .measRd ∨ c = .measPoll) (s : State) :
    (s.doneRead c).seq.TowardLedOff ∧ ∀ f, (s.failRead c f).seq.TowardLedOff := by
  obtain rfl | rfl := hc
  · exact ⟨.inl (.writing (.inr rfl) _), fun _ => .inr rfl⟩
  · refine ⟨?_, fun _ => .inr rfl⟩
    by_cases h : s.regs.rx &&& s.par.measBusyMask = 0
    · rw [doneRead_measPoll_ready h]; exact .inr rfl
    · rw [doneRead_measPoll_busy h]; exact .inl .measDly

/-- The delay leads to the next read, or at the bound to LedOff (R213, R216). -/
theorem doneMeasDelay_towardLedOff (s : State) : s.doneMeasDelay.seq.TowardLedOff := by
  unfold State.doneMeasDelay
  split
  · exact .inr rfl
  · exact .inl (.reading (.inr rfl) _)

/-- Taking an answer before LedOff, Ok or not, leads toward LedOff. -/
theorem advance_towardLedOff {s : State} (h : s.seq.BeforeLedOff) : s.advance.seq.TowardLedOff := by
  unfold State.advance
  rw [State.withRet_seq]
  generalize s.seq = q at h
  cases h with
  | measDly => exact doneMeasDelay_towardLedOff s
  | @writing c hc w =>
    obtain ⟨t, -, -, ⟨w', h⟩ | h | ⟨f, h⟩⟩ := advanceWrite_cases c w s <;> simp only [h]
    · exact .inl (.writing hc w')
    · exact (write_towardLedOff hc t).1
    · exact (write_towardLedOff hc t).2 f
  | @reading c hc r =>
    obtain ⟨t, -, -, ⟨r', h⟩ | h | ⟨f, h⟩⟩ := advanceRead_cases c r s <;> simp only [h]
    · exact .inl (.reading hc r')
    · exact (read_towardLedOff hc t).1
    · exact (read_towardLedOff hc t).2 f

/-- A step before LedOff, whoever answers its call, leads toward LedOff (R217). -/
theorem step_towardLedOff {s t : State} (hr : s.resetReq = false) (h : step s = .next t) (hq : s.seq.BeforeLedOff) :
    t.seq.TowardLedOff := by
  cases step_kind h with
  | reset hr' => simp [hr] at hr'
  | @call i u _ hi hu =>
    obtain ⟨⟨-, hseq, -⟩, -⟩ := issued_call hi hu
    exact advance_towardLedOff (hseq ▸ hq)
  | complete _ hs => exact absurd hs (hq.ne_ending _ _)
  | word _ hs | nothing _ hs => rw [hs] at hq; cases hq

/-- Settles O35: such a phase is one before LedOff, and its step leads toward LedOff. -/
theorem measLeavesThroughLedOff : Obligations.MeasLeavesThroughLedOff := by
  intro s t hr h ht hrd hwr hend
  have toward := step_towardLedOff hr h (Seq.beforeLedOff_of_meas ht hrd hwr hend)
  exact ⟨toward.top, fun k => toward.ne_ending .meas k⟩

end Sys2Proof.Machine
end

section
/-! SUPPORT and proofs of the statements of spec/60_exceptions.md: no step is without a next state, a failure ends its
operation or is deferred to the LedOff write of MEAS, and every command ends with a response (R246 to R249, R255, R258). -/

namespace Sys2Proof.Machine

/-! No fatal state. -/

/-- A call that the engine issues has a next state under the oracle, and so has the sequencer after it (R262, R146). -/
theorem step_issued_next {s : State} {i : Instr} (hr : s.resetReq = false) (hb : s.env.bus = .oracle)
    (hi : s.issue = some i) : ∃ t, step s = .next t := by
  obtain ⟨bytes, he⟩ | he | ⟨iv, rfl⟩ := issue_exec hi
  · exact ⟨_, step_send hr hb hi he rfl⟩
  · exact ⟨_, step_recv hr hb hi he rfl⟩
  · exact ⟨_, step_delay hr hb hi⟩

/-- The word at the port of an idle engine is refused or begun, whoever answers (R103, R125). -/
theorem step_word_next {s : State} {w : CmdWord} {rest : List CmdWord} (hr : s.resetReq = false) (hs : s.seq = .idle)
    (hc : s.cmds = w :: rest) : ∃ t, step s = .next t := by
  rw [step_word hr hs hc]
  obtain h | ⟨t, h, -⟩ := runWord_cases w rest hs
  · exact ⟨_, h⟩
  · exact ⟨t, h⟩

/-- Settles O48: of the kinds of step a call alone depends on who answers, and the oracle always does. -/
theorem noFatalState : Obligations.NoFatalState := by
  intro s hb
  cases hr : s.resetReq with
  | true => exact ⟨_, step_reset hr⟩
  | false =>
    cases hi : s.issue with
    | some i => exact step_issued_next hr hb hi
    | none =>
      obtain hs | ⟨c, k, hs⟩ := issue_none hi
      · cases hc : s.cmds with
        | nil => exact ⟨s, step_idle hr hs hc⟩
        | cons w rest => exact step_word_next hr hs hc
      · exact ⟨_, step_complete hr hs⟩

/-! A failing call, under the oracle. -/

section
variable {s : State} {f : Failure} (hr : s.resetReq = false) (hb : s.env.bus = .oracle) (hf : s.coming = some f)
include hr hb hf

/-- A failing call of a write is handled in the write's context, every register as it was (R246). -/
theorem step_failWrite {c : WCtx} {w : WStep} (hs : s.seq = .writing c w) :
    ∃ e, step s = .next ((State.failWrite c f { s with env := e }).withRet .ok) := by
  obtain ⟨_, stepped, e, r, write, -⟩ := step_coming hr hb hf
  obtain rfl := write c w hs
  exact ⟨e, stepped.trans (congrArg _ (failWrite_ret c f r { s with env := e }))⟩

/-- A failing call of a read is handled in the read's context, every register as it was (R246). -/
theorem step_failRead {c : RCtx} {r : RStep} (hs : s.seq = .reading c r) :
    ∃ e, step s = .next ((State.failRead c f { s with env := e }).withRet .ok) := by
  obtain ⟨_, stepped, e, ret, -, read, -⟩ := step_coming hr hb hf
  obtain rfl := read c r hs
  exact ⟨e, stepped.trans (congrArg _ (failRead_ret c f ret { s with env := e }))⟩

/-- The only failure of the long delay is the Timeout of the busy poll, which is recorded (R216, R241, R249). -/
theorem step_failDelay (hs : s.seq = .measDly) :
    ∃ e, step s = .next ((State.recordError f { s with env := e }).withRet .ok) := by
  obtain ⟨_, stepped, e, ret, -, -, delay⟩ := step_coming hr hb hf
  obtain ⟨rfl, rfl⟩ := delay hs
  exact ⟨e, stepped⟩

end

/-- Settles O31: in each of these contexts the handler of the failure ends the command with the failure's code. -/
theorem failureEndsOperation : Obligations.FailureEndsOperation := by
  intro s f hr hb hf hop
  obtain ⟨c, e, htop, stepped⟩ : ∃ (c : EndCtx) (e : Env), s.seq.top = c.top ∧
      step s = .next ((State.endWith c f.code { s with env := e }).withRet .ok) := by
    obtain ⟨w, hs⟩ | ⟨w, hs⟩ | ⟨r, hs⟩ | ⟨i, r, hs⟩ | ⟨r, hs⟩ := hop
    · obtain ⟨e, stepped⟩ := step_failWrite hr hb hf hs
      exact ⟨.wrvr, e, congrArg Seq.top hs, stepped⟩
    · obtain ⟨e, stepped⟩ := step_failWrite hr hb hf hs
      exact ⟨.seldev, e, congrArg Seq.top hs, stepped⟩
    · obtain ⟨e, stepped⟩ := step_failRead hr hb hf hs
      exact ⟨.rdvr, e, congrArg Seq.top hs, stepped⟩
    · obtain ⟨e, stepped⟩ := step_failRead hr hb hf hs
      exact ⟨.rdflt, e, congrArg Seq.top hs, stepped⟩
    · obtain ⟨e, stepped⟩ := step_failRead hr hb hf hs
      exact ⟨.meas, e, congrArg Seq.top hs, stepped⟩
  exact ⟨_, _, stepped, htop.symm, rfl, rfl, endsWith_complete hr rfl, by cases f <;> rfl⟩

/-- A call of MEAS that fails before LedOff has its failure recorded, which begins LedOff (R213, R249). -/
theorem step_recordsError {s : State} {f : Failure} (hr : s.resetReq = false) (hb : s.env.bus = .oracle)
    (hf : s.coming = some f) (hq : s.seq.BeforeLedOff) :
    ∃ e, step s = .next ((State.recordError f { s with env := e }).withRet .ok) := by
  generalize hs : s.seq = q at hq
  cases hq with
  | writing hc w => obtain rfl | rfl := hc <;> exact step_failWrite hr hb hf hs
  | reading hc r => obtain rfl | rfl := hc <;> exact step_failRead hr hb hf hs
  | measDly => exact step_failDelay hr hb hf hs

/-- Settles O32: a failure before LedOff is recorded, and the LedOff write ends MEAS whether it fails or hits. -/
theorem measDefersFailure : Obligations.MeasDefersFailure := by
  intro s hr hb
  refine ⟨fun f hf hq => ?_, fun f w hf hs => ?_, fun b hs hx h => ?_⟩
  · have before : s.seq.BeforeLedOff := by
      obtain ⟨w, hs⟩ | ⟨r, hs⟩ | ⟨w, hs⟩ | ⟨r, hs⟩ | hs := hq <;> rw [hs]
      · exact .writing (.inl rfl) w
      · exact .reading (.inl rfl) r
      · exact .writing (.inr rfl) w
      · exact .reading (.inr rfl) r
      · exact .measDly
    obtain ⟨e, stepped⟩ := step_recordsError hr hb hf before
    exact ⟨_, stepped, rfl, rfl⟩
  · obtain ⟨e, stepped⟩ := step_failWrite hr hb hf hs
    exact ⟨_, _, stepped, rfl, rfl, rfl, endsWith_complete hr rfl⟩
  · have stepped := (siteWE .ledoffWr).step_hit hr hb hs hx (pollHit_tx_of_clear h)
    exact ⟨_, _, stepped, rfl, rfl, rfl, endsWith_complete hr rfl⟩

/-! Every command ends. -/

/-- The run `x` ends under the oracle. -/
def Run.Ends (p : Params) (x : Run) : Prop := ∃ r t, x = .ok (r, t) ∧ OnOracle p t

/-- The outcome `x` is a state in which a command has answered (R104). -/
def Responds (x : Except Fault State) : Prop := ∃ t, x = .ok t ∧ t.seq = .idle ∧ t.rsp.pending = true

theorem responds_respond (s : State) (k : BitVec 2) (d : RspData) : Responds (.ok (s.respond k d)) :=
  ⟨_, rfl, rfl, rfl⟩

section
variable {p : Params} {s : State} {x : Run}

theorem Run.Within.ends {most : Traffic → Nat} {least : Nat} (h : x.Within p most least s) : x.Ends p := by
  obtain ⟨r, t, -, hx, ho, -⟩ := h
  exact ⟨r, t, hx, ho⟩

theorem Run.Ends.tryThen {k : Ret → State → Run} (h : x.Ends p) (hk : ∀ r t, OnOracle p t → (k r t).Ends p) :
    (x.tryThen k).Ends p := by
  obtain ⟨r, t, rfl, ho⟩ := h
  simp only [Run.tryThen]
  split
  · exact ⟨r, t, rfl, ho⟩
  · exact hk r t ho

theorem Run.Ends.complete (h : x.Ends p) (c : EndCtx) : Responds (x.complete c) := by
  obtain ⟨r, t, rfl, -⟩ := h
  exact responds_respond t _ _

theorem pseudoWrvr_ends (a : VAddr) (d : Byte) (ho : OnOracle p s) : (s.pseudoWrvr a d).Ends p :=
  (pseudoWrvr_within a d ho).ends

theorem pseudoRdvr_ends (a : VAddr) (ho : OnOracle p s) : (s.pseudoRdvr a).Ends p :=
  (pseudoRdvr_within a ho).ends

theorem OnOracle.withRegs (ho : OnOracle p s) (r : Regs) : OnOracle p { s with regs := r } :=
  ⟨ho.par, ho.bus, ho.wf⟩

theorem OnOracle.doDelay (ho : OnOracle p s) (iv : Interval) : OnOracle p (s.doDelay iv) :=
  ⟨ho.par, (delay_env s.par iv s.env).2.1.trans ho.bus, ho.wf⟩

/-- A float read is four reads (R185, R190). -/
theorem pseudoRdflt_ends (base : VAddr) (ho : OnOracle p s) : (s.pseudoRdflt base).Ends p := by
  refine (pseudoRdvr_ends _ (ho.withRegs _)).tryThen fun _ t ht => ?_
  refine (pseudoRdvr_ends _ (ht.withRegs _)).tryThen fun _ t ht => ?_
  refine (pseudoRdvr_ends _ (ht.withRegs _)).tryThen fun _ t ht => ?_
  refine (pseudoRdvr_ends _ (ht.withRegs _)).tryThen fun _ t ht => ?_
  exact ⟨_, _, rfl, ht.withRegs _⟩

/-- The busy poll ends with its attempts (R216, R221). -/
theorem pseudoBusyPoll_ends (left : Nat) (ho : OnOracle p s) : (pseudoBusyPoll left s).Ends p := by
  induction left generalizing s with
  | zero => exact ⟨_, s, rfl, ho⟩
  | succ left ih =>
    refine (pseudoRdvr_ends _ ho).tryThen fun _ t ht => ?_
    dsimp only
    split
    · exact ih ((ht.withRegs _).doDelay _)
    · exact ⟨_, _, rfl, ht.withRegs _⟩

/-- LEDON_WR and Measuring: two writes, a read, and the busy poll (R212). -/
theorem pseudoMeasuring_ends (ho : OnOracle p s) : s.pseudoMeasuring.Ends p := by
  refine (pseudoWrvr_ends _ _ ho).tryThen fun _ t ht => ?_
  refine (pseudoRdvr_ends _ ht).tryThen fun _ t ht => ?_
  refine (pseudoWrvr_ends _ _ (ht.withRegs _)).tryThen fun _ t ht => ?_
  exact pseudoBusyPoll_ends _ (ht.withRegs _)

theorem pseudoLedOff_responds (ho : OnOracle p s) : Responds s.pseudoLedOff := by
  obtain ⟨r, t, hx, -⟩ := pseudoWrvr_ends s.par.ledControlVaddr (ledOffValue s.par s.regs.ledsave) ho
  rw [State.pseudoLedOff, hx]
  exact responds_respond t _ _

/-- MEAS answers after a failed first read, and else after LedOff (R212, R218). -/
theorem pseudoMeas_responds (ho : OnOracle p s) : Responds s.pseudoMeas := by
  obtain ⟨r, t, hx, ht⟩ := pseudoRdvr_ends s.par.ledControlVaddr ho
  rw [State.pseudoMeas, hx]
  dsimp only
  split
  · exact responds_respond t _ _
  · obtain ⟨r', u, hy, hu⟩ := pseudoMeasuring_ends (ht.withRegs { t.regs with ledsave := t.regs.rx, err := codeOk })
    rw [hy]
    dsimp only
    split
    · exact pseudoLedOff_responds (hu.withRegs _)
    · exact pseudoLedOff_responds hu

/-- RDALL answers after its loops (R195, R202). -/
theorem pseudoRdall_responds (ho : OnOracle p s) : ∃ x, s.pseudoCommand .rdall = some x ∧ Responds x := by
  have begun : Sweeping p s.rdallTaken := ⟨⟨ho.par, ho.bus, ho.wf⟩, rfl, fun j _ h => by simp [State.rdallTaken] at h⟩
  obtain ⟨t, ht, -⟩ := pseudoDies_sweeps [0, 1, 2] begun
  exact ⟨_, pseudoCommand_rdall ht, responds_respond t _ _⟩

end

/-- Every command, run in one piece under the oracle, ends with its response (R104, R258). -/
theorem pseudoCommand_responds {p : Params} {s : State} {i : Instr} (hi : i.isCommand = true) (ho : OnOracle p s) :
    ∃ x, s.pseudoCommand i = some x ∧ Responds x := by
  have taken (op : BitVec 3) : OnOracle p (s.latchOp op) := ⟨ho.par, ho.bus, ho.wf⟩
  have refused : Responds (.ok s.refuse) := responds_respond s _ _
  cases i with
  | wrvr a d => exact ⟨_, pseudoCommand_wrvr s a d, (pseudoWrvr_ends a d (taken 0)).complete _⟩
  | rdvr a => exact ⟨_, pseudoCommand_rdvr s a, (pseudoRdvr_ends a (taken 1)).complete _⟩
  | seldev id =>
    by_cases hid : id = 3
    · exact ⟨_, congrArg some (if_pos hid), refused⟩
    · exact ⟨_, pseudoCommand_seldev s hid, (pseudoWrvr_ends _ _ (taken 2)).complete _⟩
  | rdflt base =>
    by_cases hbase : base.toNat ≤ 0x7C
    · exact ⟨_, pseudoCommand_rdflt s hbase, (pseudoRdflt_ends base (taken 3)).complete _⟩
    · exact ⟨_, congrArg some (if_neg hbase), refused⟩
  | rdall => exact pseudoRdall_responds ho
  | meas => exact ⟨_, rfl, pseudoMeas_responds (taken 5)⟩
  | reserved6 | reserved7 => exact ⟨_, rfl, refused⟩
  | _ => cases hi

theorem exec_command_next {s : State} {i : Instr} (hi : i.isCommand = true) (hs : s.seq = .idle) :
    ∃ t, exec i s = .next t := by
  obtain h | ⟨t, h, -⟩ := exec_command hi hs
  · exact ⟨_, h⟩
  · exact ⟨t, h⟩

/-- Settles O37: the pseudocode of the command ends with its response under the oracle, and the machine comes to that
very state within the bound (`commandRefinesPseudocode`). -/
theorem everyCommandEnds : Obligations.EveryCommandEnds := by
  intro i s hs hr hw hb hi
  obtain ⟨s1, accepted⟩ := exec_command_next hi hs
  obtain ⟨_, hx, t, rfl, idle, pending⟩ := pseudoCommand_responds hi ⟨rfl, hb, hw⟩
  obtain ⟨n, hn, hrun⟩ := commandRefinesPseudocode i s s1 _ hs hr hw hx accepted
  exact ⟨s1, accepted, n, hn, t, hrun, idle, pending⟩

end Sys2Proof.Machine
end

section
/-! Proof of the statement of spec/70_reset_and_hazards.md: a reset abandons the running command (R280, R281, R282). -/

namespace Sys2Proof.Machine

/-- Settles O50: a reset applied is the step wherever the command stands (`step_reset`); the reset engine is idle without
a response, and its environment is the old one with the reset's own event, which is no call. -/
theorem resetAbandonsCommand : Obligations.ResetAbandonsCommand := by
  intro s hr
  refine ⟨s.engineReset, step_reset hr, ?_⟩
  simp [Grew, Rsp.reset, Env.log]

end Sys2Proof.Machine
end
